-- ==== Sys2Proof/Word.lean ====
section
/-! DEFINITION. The data types of the block's quantities: bytes and wire fields as bit vectors, numeric quantities as
values of the domain `NUM` (00_scope.md R7, R9, R10), the PWM register triple (10_state.md R26). -/

namespace Sys2Proof

/-- `u8` (R9). -/
abbrev Byte := BitVec 8
/-- `u16` (R9). -/
abbrev Half := BitVec 16
/-- `u32`, and the 4 bytes that carry an `f32` (R9). -/
abbrev Word := BitVec 32

/-- The magnitudes of finite binary32 values: the low 31 bits of the pattern, below that of infinity (0x7F800000). -/
abbrev Mag := Fin 2139095040

/-- What the parameter `NUM` can be (R7, decision D1). -/
inductive NumDomain where
  | binary32
  | rational
  deriving DecidableEq, Repr

/-- A value of `NUM`: NaN or an infinity, and else an IEEE 754 binary32 value with its signed zeros (`fin`) or a rational
(`exact`), as the domain says (R7, R10, decision D1). There is one NaN: a `NUM` value is not a bit pattern (log 1). -/
inductive Quantity where
  | nan
  | inf (neg : Bool)
  | fin (neg : Bool) (mag : Mag)
  | exact (q : Rat)
  deriving DecidableEq, Repr

/-- A triple (PSC, ARR, CCR) of PWM timer values, what FREQCALC answers (41_control_tick.md R92). -/
structure PwmRegs where
  psc : Nat
  arr : Nat
  ccr : Nat
  deriving DecidableEq, Repr

end Sys2Proof
end

