-- ==== Sys2Proof/Config.lean ====
section
/-! DEFINITION. The implementation parameters of 00_scope.md R7 (plain data, held in the state and never changed by a
step) with the values the test vectors use, and the free values the spec leaves open. -/

namespace Sys2Proof

/-- The discriminant values of `DISC`; the payload lengths follow from the payload layouts (30_encoding.md R61, D3, D4). -/
structure DiscTable where
  cfgPwm : Byte
  cfgHyst : Byte
  cfgPid : Byte
  cfgCot : Byte
  cmdArm : Byte
  telemetry : Byte
  captureBlob : Byte
  deriving DecidableEq, Repr

/-- The values of 30_encoding.md R61. -/
def DiscTable.default : DiscTable where
  cfgPwm := 0x01
  cfgHyst := 0x02
  cfgPid := 0x03
  cfgCot := 0x04
  cmdArm := 0x05
  telemetry := 0x80
  captureBlob := 0x81

/-- The discriminants of inbound messages. -/
def DiscTable.inbound (t : DiscTable) : List Byte := [t.cfgPwm, t.cfgHyst, t.cfgPid, t.cfgCot, t.cmdArm]

/-- The parameters of R7. -/
structure Params where
  /-- `NUM`. -/
  num : NumDomain
  /-- `CLOCK_HZ` (OPEN). -/
  clockHz : Nat
  /-- `TIMER_BITS`. -/
  timerBits : Nat
  /-- `CHANNELS`. -/
  channels : Nat
  /-- `RING_CAP` (OPEN). -/
  ringCap : Nat
  /-- `WINDOW` (OPEN). -/
  window : Nat
  /-- `VSCALE` (OPEN), one for each channel. -/
  vscale : List Quantity
  /-- `CAP_CAPACITY`. -/
  capCapacity : Nat
  /-- `CTRL_PERIOD_S` (OPEN). -/
  ctrlPeriodS : Quantity
  /-- `IDLE_FREQ_HZ`, `IDLE_DUTY`. -/
  idleFreqHz : Quantity
  idleDuty : Quantity
  /-- `SKIP_TICKS`, `CS_MIN_ON`, `CS_VAR_FACTOR`. -/
  skipTicks : Nat
  csMinOn : Nat
  csVarFactor : Quantity
  /-- `TELEMETRY_INTERVAL_S`. -/
  telemetryIntervalS : Quantity
  /-- `SMPR_DEFAULT` (OPEN). -/
  smprDefault : Nat
  /-- `CTRL_CNT_BITS` (OPEN). -/
  ctrlCntBits : Nat
  /-- `DISC`. -/
  disc : DiscTable
  deriving DecidableEq, Repr

/-- The defaults of R7, and for OPEN parameters the values the test vectors use (95_test_vectors.md). DESIGN CHOICE
(log 7): `SMPR_DEFAULT = 0` and `CTRL_CNT_BITS = 32` have no value anywhere in the spec. -/
def Params.default : Params where
  num := .binary32
  clockHz := 72000000
  timerBits := 16
  channels := 2
  ringCap := 64
  window := 4
  vscale := [.fin false ⟨0x3F800000, by decide⟩, .fin false ⟨0x3F800000, by decide⟩]
  capCapacity := 1024
  ctrlPeriodS := .fin false ⟨0x39000000, by decide⟩
  idleFreqHz := .fin false ⟨0x447A0000, by decide⟩
  idleDuty := .fin false ⟨0x3C23D70A, by decide⟩
  skipTicks := 5
  csMinOn := 6
  csVarFactor := .fin false ⟨0x40000000, by decide⟩
  telemetryIntervalS := .fin false ⟨0x3F000000, by decide⟩
  smprDefault := 0
  ctrlCntBits := 32
  disc := .default

/-- `TMAX = 2^TIMER_BITS − 1` (00_scope.md R8). -/
def Params.tmax (p : Params) : Nat := 2 ^ p.timerBits - 1

/-- `AGG_CAP = 1 + MAXPAYLOAD = 42` (00_scope.md R8, D41): the greatest payload length is CFG_COT's 41, whatever values
the discriminants have. -/
def aggCap : Nat := 42

/-- Free value: where the sampling engine's write position stands after a restart (40_mode_controller.md R82, D35).
Applied to the state's draw counter and reduced modulo `RING_CAP` (log 9). -/
opaque Config.freeDmaPos : Nat → Nat

/-- Free value: `ceilI` and `roundI` of a value that is not finite, for which 00_scope.md R11 states no result
(log 11). -/
opaque Config.freeRound : Quantity → Int

/-- Free value: which of the values that are not finite (`none`: NaN) a rational divided by zero gives. Decision D1 gives
`NUM` = exact rationals no division by zero; a result that is not finite makes a tick a no-op (41_control_tick.md R91;
log 24). -/
opaque Config.freeQuotient : Rat → Option Bool

/-- Free value: what a PWM register of so many bits holds after a write of an integer that does not fit it, which
10_state.md R26 says no rule makes and a `TIMER_BITS` above 24 can make (log 23). Reduced to the register's width. -/
opaque Config.freeRegister : Nat → Int → Nat

end Sys2Proof
end

