-- ==== Sys2Proof/Machine/Num.lean ====
section
/-! DEFINITION. `NUM` arithmetic (00_scope.md R10, R11), for both domains that `NUM` can be (R7, decision D1). IEEE 754
binary32: one operation at a time, rounded to nearest, ties to even; a finite value is an integer multiple of 2^-149;
results are computed exactly in integers and narrowed once, by `roundMag`; the constants and rounding rules are the
standard's (93_implementation_defined.md section 5). Exact rationals: no result is rounded, and NaN and the infinities
follow the same rules (log 24). Where one operand is a binary32 value and the other a rational, which no run brings
about, the operation is the exact one. -/

namespace Sys2Proof

/-! ## Values -/

/-- The value of a magnitude in units of 2^-149: subnormal below 2^23, else an implicit leading one. -/
def magValue (m : Nat) : Nat :=
  if m < 2 ^ 23 then m else (2 ^ 23 + m % 2 ^ 23) * 2 ^ (m / 2 ^ 23 - 1)

/-- One, in units of 2^-149. -/
def unit : Nat := 2 ^ 149

/-- The magnitude nearest to `n / d` units of 2^-149, ties to the even magnitude. The result may reach or pass the
magnitude of infinity: that is overflow. -/
def roundMag (n d : Nat) : Nat :=
  let k := Nat.log2 (n / d) - 23
  let q := d * 2 ^ k
  let t := n / q
  let r := n % q
  k * 2 ^ 23 + t + (if q < 2 * r ∨ (q = 2 * r ∧ t % 2 = 1) then 1 else 0)

/-- The value with sign `neg` and magnitude `m`, infinite where `m` overflows. -/
def Quantity.ofMag (neg : Bool) (m : Nat) : Quantity :=
  if h : m < 2139095040 then .fin neg ⟨m, h⟩ else .inf neg

/-- The binary32 value nearest to `± n / d` units of 2^-149. -/
def Quantity.round (neg : Bool) (n d : Nat) : Quantity := Quantity.ofMag neg (roundMag n d)

def Quantity.zero : Quantity := .fin false ⟨0, by decide⟩
def Quantity.one : Quantity := .fin false ⟨0x3F800000, by decide⟩
def Quantity.two : Quantity := .fin false ⟨0x40000000, by decide⟩

/-- An integer as a binary32 value, rounded to nearest even. -/
def Quantity.ofNat (n : Nat) : Quantity := Quantity.round false (n * unit) 1

/-- `num(n)` (R10). -/
def NumDomain.num (d : NumDomain) (n : Nat) : Quantity :=
  match d with
  | .binary32 => Quantity.ofNat n
  | .rational => .exact n

/-- `num(n)` for any integer. -/
def NumDomain.numInt (d : NumDomain) (n : Int) : Quantity :=
  match d with
  | .binary32 => Quantity.round (decide (n < 0)) (n.natAbs * unit) 1
  | .rational => .exact n

/-! ## Classes and comparisons -/

/-- `finite(x)` (R10). -/
def Quantity.finite : Quantity → Bool
  | .fin _ _ => true
  | .exact _ => true
  | .inf _ => false
  | .nan => false

def Quantity.isNaN : Quantity → Bool
  | .nan => true
  | .inf _ => false
  | .fin _ _ => false
  | .exact _ => false

/-- A finite binary32 value as a signed integer of units of 2^-149. -/
def signedValue (neg : Bool) (m : Mag) : Int := if neg then -(magValue m : Int) else (magValue m : Int)

/-- The rational that a finite value is. -/
def Quantity.toRat : Quantity → Rat
  | .nan => 0
  | .inf _ => 0
  | .fin neg m => mkRat (signedValue neg m) unit
  | .exact q => q

/-- The sign bit; a rational zero has none. -/
def Quantity.sign : Quantity → Bool
  | .nan => false
  | .inf neg => neg
  | .fin neg _ => neg
  | .exact q => decide (q < 0)

def Quantity.isZero : Quantity → Bool
  | .nan => false
  | .inf _ => false
  | .fin _ m => decide (m.val = 0)
  | .exact q => decide (q = 0)

/-- A finite value as an element of the domain: a binary32 value becomes the rational it is. -/
def NumDomain.embed (d : NumDomain) (x : Quantity) : Quantity :=
  match d, x with
  | .rational, .fin neg m => .exact (Quantity.fin neg m).toRat
  | _, x => x

/-- Order of the finite binary32 values: the signed magnitude. -/
def magKey (neg : Bool) (m : Mag) : Int := if neg then -(m.val : Int) else (m.val : Int)

/-- `a < b`, false when either side is NaN (R10). -/
def Quantity.lt : Quantity → Quantity → Bool
  | .nan, _ => false
  | _, .nan => false
  | .fin a x, .fin b y => decide (magKey a x < magKey b y)
  | .inf a, .inf b => a && !b
  | .inf a, _ => a
  | _, .inf b => !b
  | x, y => decide (x.toRat < y.toRat)

/-- `a ≤ b`, false when either side is NaN (R10). -/
def Quantity.le (a b : Quantity) : Bool := !a.isNaN && !b.isNaN && !b.lt a

/-! ## Arithmetic -/

/-- Negation: the sign flipped (43_pid.md R99). -/
def Quantity.neg : Quantity → Quantity
  | .nan => .nan
  | .inf s => .inf (!s)
  | .fin s m => .fin (!s) m
  | .exact q => .exact (-q)

def Quantity.add : Quantity → Quantity → Quantity
  | .nan, _ => .nan
  | _, .nan => .nan
  | .fin a x, .fin b y =>
    let sum := signedValue a x + signedValue b y
    if sum = 0 then .fin (a && b) ⟨0, by decide⟩ else Quantity.round (decide (sum < 0)) sum.natAbs 1
  | .inf a, .inf b => if a = b then .inf a else .nan
  | .inf a, _ => .inf a
  | _, .inf b => .inf b
  | x, y => .exact (x.toRat + y.toRat)

def Quantity.sub (a b : Quantity) : Quantity := a.add b.neg

def Quantity.mul : Quantity → Quantity → Quantity
  | .nan, _ => .nan
  | _, .nan => .nan
  | .fin a x, .fin b y => Quantity.round (a ^^ b) (magValue x * magValue y) unit
  | .inf a, y => if y.isZero then .nan else .inf (a ^^ y.sign)
  | x, .inf b => if x.isZero then .nan else .inf (x.sign ^^ b)
  | x, y => .exact (x.toRat * y.toRat)

/-- A rational divided by zero: a free value among those that are not finite (log 24). -/
def Quantity.overZero (q : Rat) : Quantity :=
  match Config.freeQuotient q with
  | none => .nan
  | some neg => .inf neg

def Quantity.div : Quantity → Quantity → Quantity
  | .nan, _ => .nan
  | _, .nan => .nan
  | .fin a x, .fin b y =>
    if y.val = 0 then (if x.val = 0 then .nan else .inf (a ^^ b))
    else Quantity.round (a ^^ b) (magValue x * unit) (magValue y)
  | .inf _, .inf _ => .nan
  | .inf a, y => .inf (a ^^ y.sign)
  | .fin a _, .inf b => .fin (a ^^ b) ⟨0, by decide⟩
  | .exact _, .inf _ => .exact 0
  | x, y => if y.toRat = 0 then Quantity.overZero x.toRat else .exact (x.toRat / y.toRat)

/-! ## Helper functions of R11 -/

/-- `min(a, b) = if a < b then a else b`. -/
def Quantity.min (a b : Quantity) : Quantity := if a.lt b then a else b

/-- `max(a, b) = if a > b then a else b`. -/
def Quantity.max (a b : Quantity) : Quantity := if b.lt a then a else b

/-- `clamp(x, lo, hi) = min(max(x, lo), hi)`; the result is `hi` where `lo > hi` (decision D45). -/
def clamp (x lo hi : Quantity) : Quantity := (x.max lo).min hi

/-- `⌈a / b⌉` on naturals. -/
def ceilDiv (a b : Nat) : Nat := (a + (b - 1)) / b

/-- `ceilI(x)`: the least integer `n` with `num(n) ≥ x` (R11). `num` rounds, so `num(n) ≥ x` holds from the midpoint
between `x` and the value below it, the midpoint included when the tie goes to `x`. -/
def ceilI : Quantity → Int
  | .fin false m =>
    if m.val = 0 then 0
    else
      let s := magValue (m.val - 1) + magValue m.val
      if m.val % 2 = 0 then (ceilDiv s (2 * unit) : Nat) else (s / (2 * unit) + 1 : Nat)
  | .fin true m =>
    let s := magValue m.val + magValue (m.val + 1)
    if m.val % 2 = 0 then -((s / (2 * unit) : Nat) : Int) else -((ceilDiv s (2 * unit) - 1 : Nat) : Int)
  | .exact q => q.ceil
  | .inf neg => Config.freeRound (.inf neg)
  | .nan => Config.freeRound .nan

/-- `roundI(x)`: nearest integer, half away from zero (R11, decision D10). -/
def roundI : Quantity → Int
  | .fin false m => ((2 * magValue m.val + unit) / (2 * unit) : Nat)
  | .fin true m => -(((2 * magValue m.val + unit) / (2 * unit) : Nat) : Int)
  | .exact q => if q < 0 then -(-q + 1 / 2).floor else (q + 1 / 2).floor
  | .inf neg => Config.freeRound (.inf neg)
  | .nan => Config.freeRound .nan

/-- `sat_u16(n) = min(max(n, 0), 65535)` (R11). -/
def satU16 (n : Int) : Nat := (Min.min (Max.max n 0) 65535).toNat

/-! ## PWM timer registers (10_state.md R26) -/

/-- What a PWM register holds after a write of `n`: `n` where it fits the register, else a free value of its width
(log 23). -/
def registerValue (p : Params) (n : Int) : Nat :=
  if 0 ≤ n ∧ n ≤ (p.tmax : Int) then n.toNat else Config.freeRegister p.timerBits n % 2 ^ p.timerBits

/-- `DUTYCCR(d)` at reload `arr` (41_control_tick.md R93): "the same `compare = round(reload*duty)` step as FREQCALC". -/
def dutyCcr (dom : NumDomain) (arr : Nat) (d : Quantity) : Int := roundI ((dom.num arr).mul d)

/-- `FREQCALC(f, d)` (41_control_tick.md R92, decisions D10 to D12). -/
def freqCalc (p : Params) (f d : Quantity) : Option PwmRegs :=
  if !f.finite || !(p.num.num 0).lt f || d.isNaN then none
  else
    let q := (p.num.num p.clockHz).div ((p.num.num (2 ^ p.timerBits)).mul f)
    if !q.finite then none
    else
      let psc := (ceilI q - 1).toNat
      if p.tmax < psc then none
      else
        let arr := Min.min (roundI ((p.num.num p.clockHz).div ((p.num.num (psc + 1)).mul f))).toNat p.tmax
        some ⟨psc, arr, registerValue p (dutyCcr p.num arr (clamp d (p.num.num 0) (p.num.num 1)))⟩

/-- `IDLE_REGS` (40_mode_controller.md R81). -/
def idleRegs (p : Params) : PwmRegs :=
  match freqCalc p p.idleFreqHz p.idleDuty with
  | some r => r
  | none => ⟨p.tmax, p.tmax, registerValue p (dutyCcr p.num p.tmax p.idleDuty)⟩

end Sys2Proof
end

