-- ==== Sys2Proof/Syntax.lean ====
section
/-! DEFINITION. The closed event alphabet (30_encoding.md R58), one constructor per row of opcode_table.json, and the
reasons a byte sequence is no event. Operands are the wire fields, uninterpreted (R62 to R66): what a field means is
Machine/Operands.lean's. -/

namespace Sys2Proof

/-- One input event with its operand fields in payload order. -/
inductive Instr where
  /-- CFG_PWM (R63). -/
  | cfgPwm (freq duty : Word) (running : Byte)
  /-- CFG_HYST (R64). -/
  | cfgHyst (freq target step : Word) (maxCompare : Half) (running : Byte)
  /-- CFG_PID (R65). -/
  | cfgPid (freq target kP kI kD maxIntegral maxDuty : Word) (running : Byte)
  /-- CFG_COT (R66). -/
  | cfgCot (target l iPeak startupFactor kP kI maxIntegral minCurrent csPeriod averageAge : Word) (running : Byte)
  /-- CMD_ARM (R67). -/
  | cmdArm
  /-- TICK, event code 0x100 (41_control_tick.md R88). -/
  | tick
  /-- HK, event code 0x200, operand `now` (45_housekeeping.md R111). -/
  | hk (now : Word)
  deriving DecidableEq, Repr

/-- TICK runs in the periodic context, every other event in the background context (R58). -/
def Instr.periodic : Instr → Bool
  | .cfgPwm _ _ _ => false
  | .cfgHyst _ _ _ _ _ => false
  | .cfgPid _ _ _ _ _ _ _ _ => false
  | .cfgCot _ _ _ _ _ _ _ _ _ _ _ => false
  | .cmdArm => false
  | .tick => true
  | .hk _ => false

/-- Why bytes are no event. -/
inductive DecodeError where
  /-- Fewer bytes than the event has (R60). -/
  | truncated
  /-- More bytes than the event has: "nothing follows" (R59). -/
  | trailingBytes
  /-- An inbound discriminant outside the inbound rows of R61 (R70a). -/
  | unrecognizedDiscriminant (disc : Byte)
  /-- Event kind 3 (R58, R70b), or a kind byte with bits above the 10-bit code (log 3). -/
  | reservedKind (kind : Byte)
  /-- Kind 1 or 2 with a nonzero `disc` byte (R70b). -/
  | nonzeroDisc (kind disc : Byte)
  deriving DecidableEq, Repr

end Sys2Proof
end

