-- ==== Sys2Proof/Machine/State.lean ====
section
/-! DEFINITION. The state of the machine as plain data (10_state.md): the block state `S`, the hardware register set
`HW`, the memories, the parameters and the environment's side (schedule of inputs, log of outputs); the reasons a step
can stop; the power-on state (70_reset_and_hazards.md R130). -/

namespace Sys2Proof.Machine

/-! ## Memory (20_memory.md R37) -/

/-- A space of `w`-bit cells: (address, cell) pairs in canonical form. With `w = 8` a pair is a `Host.Cell`. -/
abbrev Memory (w : Nat) := List (Nat × BitVec w)

/-- What an unlisted cell reads as. DESIGN CHOICE (log 6): the spec leaves the power-on contents unspecified. -/
def Memory.blank (w : Nat) : BitVec w := 0

/-- Canonical form: addresses strictly rising, no cell equal to what an unlisted one reads as. -/
def Memory.wf {w : Nat} : Memory w → Bool
  | [] => true
  | (a, v) :: rest => decide (v ≠ Memory.blank w) && rest.all (fun c => decide (a < c.1)) && Memory.wf rest

/-! ## Regulator records (10_state.md R18 to R24) -/

/-- `S.pwm` (R20). -/
structure PwmRec where
  freq : Quantity
  duty : Quantity
  deriving DecidableEq, Repr

/-- `S.hyst` (R21). -/
structure HystRec where
  freq : Quantity
  target : Quantity
  step : Quantity
  maxCompare : Half
  duty : Quantity
  deriving DecidableEq, Repr

/-- `S.pid` (R22). -/
structure PidRec where
  freq : Quantity
  target : Quantity
  kP : Quantity
  kI : Quantity
  kD : Quantity
  maxIntegral : Quantity
  maxDuty : Quantity
  integral : Quantity
  prevError : Quantity
  duty : Quantity
  deriving DecidableEq, Repr

/-- `S.cot.ema` (R24). -/
structure Ema where
  init : Bool
  avg : Quantity
  var : Quantity
  alpha : Quantity
  deriving DecidableEq, Repr

/-- `S.cot.sub` (R23). -/
inductive SubState where
  | cot
  | cs
  deriving DecidableEq, Repr

/-- Codes COT = 0, CS = 1 (R23, decision D48). -/
def SubState.code : SubState → Nat
  | .cot => 0
  | .cs => 1

/-- `S.cot` (R23). -/
structure CotRec where
  target : Quantity
  l : Quantity
  iPeak : Quantity
  startupFactor : Quantity
  kP : Quantity
  kI : Quantity
  maxIntegral : Quantity
  minCurrent : Quantity
  csPeriod : Quantity
  averageAge : Quantity
  sub : SubState
  integral : Quantity
  belowCount : Nat
  pwmOnTicks : Nat
  cycleEnable : Bool
  ema : Ema
  deriving DecidableEq, Repr

/-- `S.mode` (R15). -/
inductive Mode where
  | idle
  | pwmPassthrough
  | simpleHysteretic
  | pid
  | constantOnTime
  deriving DecidableEq, Repr

/-- Codes 0 to 4 (R15, decision D48). -/
def Mode.code : Mode → Nat
  | .idle => 0
  | .pwmPassthrough => 1
  | .simpleHysteretic => 2
  | .pid => 3
  | .constantOnTime => 4

/-- The installed algorithm with its record: the tagged variant of R16. A record "exists only while its mode is
installed" (R18): the other modes' records hold no value, so no rule can read one (log 4). -/
inductive Regulator where
  | idle
  | pwm (r : PwmRec)
  | hyst (r : HystRec)
  | pid (r : PidRec)
  | cot (r : CotRec)
  deriving DecidableEq, Repr

/-- `S.mode` as the tag of the variant (R16). -/
def Regulator.mode : Regulator → Mode
  | .idle => .idle
  | .pwm _ => .pwmPassthrough
  | .hyst _ => .simpleHysteretic
  | .pid _ => .pid
  | .cot _ => .constantOnTime

/-! ## The rest of the block state `S` -/

/-- `S.cap` (R32). -/
structure Capture where
  buf : Memory 8
  cursor : Nat
  armed : Bool
  full : Bool
  deriving DecidableEq, Repr

/-- `S.agg` (R33). -/
structure Agg where
  bytes : Memory 8
  length : Nat
  deriving DecidableEq, Repr

/-- The kind of an outbound message (R35). -/
inductive SendKind where
  | blob
  | telemetry
  deriving DecidableEq, Repr

/-- The message a send loop holds (R35). -/
structure Outbound where
  kind : SendKind
  bytes : List Byte
  deriving DecidableEq, Repr

/-- `S.hk` (R35): `lastTelemetry = none` is the spec's `never`. -/
structure Housekeeping where
  lastTelemetry : Option Quantity
  outbox : Option Outbound
  deriving DecidableEq, Repr

/-- The block state `S`. -/
structure Block where
  /-- `S.mode` and the record of that mode (R15 to R24). -/
  reg : Regulator
  /-- `S.running` (R19). -/
  running : Bool
  cap : Capture
  agg : Agg
  /-- `S.tickPending` (R34). -/
  tickPending : Bool
  hk : Housekeeping
  deriving DecidableEq, Repr

/-- The hardware register set `HW` (R26 to R30). -/
structure Hw where
  pwmPsc : Nat
  pwmArr : Nat
  pwmCcr : Nat
  pwmRun : Bool
  pwmOe : Bool
  ctrlRun : Bool
  ctrlCnt : Nat
  adcRun : Bool
  dmaPos : Nat
  adcSmpr : Nat
  deriving DecidableEq, Repr

/-! ## The environment (20_memory.md R48, 30_encoding.md R58) -/

/-- The host's answer to `trySend` (45_housekeeping.md R110). -/
inductive Answer where
  | sent
  | busy
  deriving DecidableEq, Repr

/-- What an agent of R48 does next. -/
inductive Action where
  /-- An event, as its bytes, at the block's event port (R58). -/
  | event (bytes : List Byte)
  /-- The transport calls `submit(chunk)` (40_mode_controller.md R73). -/
  | submit (chunk : List Byte)
  /-- The background context takes the next step of the work it has begun, before what follows in the schedule. -/
  | background
  /-- One `trySend` attempt with the host's answer (R110). -/
  | attempt (answer : Answer)
  /-- The sampling engine delivers a sample (R52). -/
  | sample (v : Half)
  /-- The control timer's counter moves to `v` (10_state.md R28). -/
  | count (v : Nat)
  deriving DecidableEq, Repr

/-- One entry of the schedule. `tickDuring`: the control timer's period elapses while this step runs (10_state.md R34,
log 16). -/
structure Input where
  action : Action
  tickDuring : Bool
  deriving DecidableEq, Repr

/-- What the block puts out. -/
inductive Output where
  /-- The framer dispatched `MSG` (40_mode_controller.md R74). -/
  | dispatched (i : Instr)
  /-- The output event `protocolError(disc)` (R77). -/
  | protocolError (disc : Byte)
  /-- The host received this message (R110, `emit`). -/
  | message (bytes : List Byte)
  deriving DecidableEq, Repr

/-- The outcome of an operation step (60_exceptions.md R115). -/
inductive OpOutcome where
  | ok
  | protocolError (disc : Byte)
  | hardwareBusy
  | tickNoop
  deriving DecidableEq, Repr

/-- Outcome codes 0 to 3 (R115, decision D54). -/
def OpOutcome.code : OpOutcome → Nat
  | .ok => 0
  | .protocolError _ => 1
  | .hardwareBusy => 2
  | .tickNoop => 3

/-- Where the background context stands between two steps of one operation, its "local values" (60_exceptions.md R121).
A send loop is `S.hk.outbox`, not this (R124). -/
inductive Background where
  /-- In no operation, or in a send loop. -/
  | idle
  /-- Inside `submit`: the chunk's bytes not copied yet (R73). -/
  | submitting (rest : List Byte)
  /-- Inside `HK(now)` after its FLUSH has sent the blob: the telemetry step is next (45_housekeeping.md R111). -/
  | housekeeping (now : Quantity)
  deriving DecidableEq, Repr

/-- The environment's side. -/
structure Env where
  /-- What the agents do next, the first entry first. -/
  inputs : List Input
  /-- What the block has put out, the oldest first. -/
  outputs : List Output
  /-- The outcome of the last operation step. -/
  outcome : OpOutcome
  /-- `now` of the last HK event (45_housekeeping.md R111); `none`: there was none. -/
  lastNow : Option Quantity
  background : Background
  /-- How many free values have been drawn; the next is `Config.freeDmaPos draws`. -/
  draws : Nat
  deriving DecidableEq, Repr

/-- The state of the machine. -/
structure State where
  params : Params
  blk : Block
  hw : Hw
  /-- The analog sample ring (10_state.md R31). -/
  ring : Memory 16
  env : Env
  deriving DecidableEq, Repr

/-- `S.mode`. -/
def State.mode (s : State) : Mode := s.blk.reg.mode

/-- Free value: the content of a telemetry message, `TELEMETRY(S, HW)` (45_housekeeping.md R113, decision D29; log 10). -/
opaque Config.telemetry : Block → Hw → List Byte

/-! ## Reasons to stop -/

/-- Model faults (60_exceptions.md R118a). No documented behaviour reaches one. -/
inductive Fault where
  /-- A CAP primitive outside its bound (20_memory.md R41). Raised by the capture append and the flush. Safe. -/
  | capOutOfBounds
  /-- An AGG primitive outside its bound (R41). Raised by the framer where `length` exceeds AGG_CAP. Safe. -/
  | aggOutOfBounds
  /-- A rule reads a value that does not exist (R118a): an accepted blob whose HK event there never was. Raised by
  `sendAttempt`. Safe. -/
  | noValue
  deriving DecidableEq, Repr

/-- Refusals: events the alphabet or the model does not admit (R118b; 93_implementation_defined.md section 1). -/
inductive Refusal where
  /-- An instruction without a meaning in this model. Raised by `exec`. Safe. -/
  | notModelled (mnemonic : String)
  /-- Bytes that are no event: reserved event codes (R70b), discriminants that never reach dispatch (R78), wrong
  lengths. Raised by the event port. Safe. -/
  | undecodable (e : DecodeError)
  /-- A TICK while `HW.CTRL_RUN = 0` (R118b). Raised by TICK. Safe. -/
  | tickWhileStopped
  /-- An HK whose `now` is below the previous HK's (R118b). Raised by HK. Safe. -/
  | clockWentBack
  /-- A MSG, HK or `submit` while `S.hk.outbox ≠ none` (R118b, R139). Raised by those. Safe. -/
  | backgroundBusy
  /-- A send answer where nothing is being sent (log 17). Raised by `sendAttempt`. Safe. -/
  | noSendInProgress
  /-- The parameters are no model instance (93_implementation_defined.md section 1). Raised by `step`. Safe. -/
  | notAModelInstance
  deriving DecidableEq, Repr

/-- What an operation answers. -/
abbrev Result := Host.Outcome State Fault Refusal

/-! ## Power-on (70_reset_and_hazards.md R130) -/

/-- The power-on state of a model instance. The unspecified values, "draws a model takes as arguments of the run"
(R130), are the ring, the capture and aggregation bytes, `DMA_POS` and `CTRL_CNT`. -/
def State.powerOn (p : Params) (ring : Memory 16) (buf agg : Memory 8) (dmaPos ctrlCnt : Nat) : State where
  params := p
  blk :=
    { reg := .idle
      running := false
      cap := { buf := buf, cursor := 0, armed := false, full := false }
      agg := { bytes := agg, length := 0 }
      tickPending := false
      hk := { lastTelemetry := none, outbox := none } }
  hw :=
    { pwmPsc := (idleRegs p).psc
      pwmArr := (idleRegs p).arr
      pwmCcr := (idleRegs p).ccr
      pwmRun := false
      pwmOe := false
      ctrlRun := false
      ctrlCnt := ctrlCnt
      adcRun := false
      dmaPos := dmaPos
      adcSmpr := p.smprDefault }
  ring := ring
  env :=
    { inputs := []
      outputs := []
      outcome := .ok
      lastNow := none
      background := .idle
      draws := 0 }

/-- The state after reset: power-on at the parameters of the test vectors, the unspecified values zero (logs 5 to 7). -/
def State.reset : State := State.powerOn Params.default [] [] [] 0 0

end Sys2Proof.Machine
end

