-- ==== Sys2Proof/Machine/Flags.lean ====
section
/-! DEFINITION. The one-bit status values of 10_state.md R25, one setter each, and the `ok` test of a tick. There is no
condition-code register, and no flag records a clamp (R25, 43_pid.md R102): the clamps themselves are
`clamp` and `freqCalc`. -/

namespace Sys2Proof.Machine

def setArmed (b : Bool) (s : State) : State := { s with blk := { s.blk with cap := { s.blk.cap with armed := b } } }
def setFull (b : Bool) (s : State) : State := { s with blk := { s.blk with cap := { s.blk.cap with full := b } } }
def setRunning (b : Bool) (s : State) : State := { s with blk := { s.blk with running := b } }
def setTickPending (b : Bool) (s : State) : State := { s with blk := { s.blk with tickPending := b } }
def setPwmRun (b : Bool) (s : State) : State := { s with hw := { s.hw with pwmRun := b } }
def setPwmOe (b : Bool) (s : State) : State := { s with hw := { s.hw with pwmOe := b } }
def setCtrlRun (b : Bool) (s : State) : State := { s with hw := { s.hw with ctrlRun := b } }
def setAdcRun (b : Bool) (s : State) : State := { s with hw := { s.hw with adcRun := b } }

/-- `ok(N)`: every bound value is finite (41_control_tick.md R91). -/
def allFinite : List Quantity → Bool
  | [] => true
  | x :: xs => x.finite && allFinite xs

/-- Records the outcome of an operation step (60_exceptions.md R115). -/
def setOutcome (o : OpOutcome) (s : State) : State := { s with env := { s.env with outcome := o } }

end Sys2Proof.Machine
end

