-- ==== Sys2Proof/Machine/Memory.lean ====
section
/-! DEFINITION. Reading and writing the cells of a space, and the primitives of 20_memory.md R38 to R41 over RING, CAP
and AGG. -/

namespace Sys2Proof.Machine

/-- The cell at an address. -/
def Memory.read {w : Nat} : Memory w → Nat → BitVec w
  | [], _ => Memory.blank w
  | (b, v) :: rest, a => if a = b then v else Memory.read rest a

/-- Writes one cell, keeping the canonical form. -/
def Memory.write {w : Nat} : Memory w → Nat → BitVec w → Memory w
  | [], a, v => if v = Memory.blank w then [] else [(a, v)]
  | (b, x) :: rest, a, v =>
    if a < b then (if v = Memory.blank w then (b, x) :: rest else (a, v) :: (b, x) :: rest)
    else if a = b then (if v = Memory.blank w then rest else (a, v) :: rest)
    else (b, x) :: Memory.write rest a v

/-- `n` cells from an address on. -/
def Memory.readRange {w : Nat} (m : Memory w) (a : Nat) : Nat → List (BitVec w)
  | 0 => []
  | n + 1 => m.read a :: Memory.readRange m (a + 1) n

/-- Writes a sequence of cells from an address on. -/
def Memory.writeRange {w : Nat} (m : Memory w) (a : Nat) : List (BitVec w) → Memory w
  | [] => m
  | v :: vs => Memory.writeRange (m.write a v) (a + 1) vs

/-- `MemRead(RING, a, 1) = RING[a mod RING_CAP]` for any integer `a` (R38, R41). -/
def ringRead (s : State) (a : Int) : Half := s.ring.read (a % (s.params.ringCap : Int)).toNat

/-- `MemRead(CAP, o, n)`; `none` outside the bound `o + n ≤ CAP_CAPACITY` (R39, R41). -/
def capRead (s : State) (o n : Nat) : Option (List Byte) :=
  if o + n ≤ s.params.capCapacity then some (s.blk.cap.buf.readRange o n) else none

/-- `MemWrite(CAP, o, n, v)` with `n` the length of `v` (R41). -/
def capWrite (s : State) (o : Nat) (v : List Byte) : Option State :=
  if o + v.length ≤ s.params.capCapacity then
    some { s with blk := { s.blk with cap := { s.blk.cap with buf := s.blk.cap.buf.writeRange o v } } }
  else none

/-- `MemRead(AGG, o, n)` (R40, R41). -/
def aggRead (s : State) (o n : Nat) : Option (List Byte) :=
  if o + n ≤ aggCap then some (s.blk.agg.bytes.readRange o n) else none

/-- `MemWrite(AGG, o, n, v)` with `n` the length of `v` (R40, R41). -/
def aggWrite (s : State) (o : Nat) (v : List Byte) : Option State :=
  if o + v.length ≤ aggCap then
    some { s with blk := { s.blk with agg := { s.blk.agg with bytes := s.blk.agg.bytes.writeRange o v } } }
  else none

/-- The buffered prefix of the stream, `S.agg.bytes[0 .. length−1]` (10_state.md R33). -/
def Agg.contents (g : Agg) : List Byte := g.bytes.readRange 0 g.length

end Sys2Proof.Machine
end

