-- ==== Sys2Proof/Decode.lean ====
section
/-! DEFINITION. Decoding of events and messages (30_encoding.md), total on any bytes and rejecting by name, and after it
the encoder. An event is laid out as its 10-bit code in two bytes, the `disc` byte first, then its operand bytes
(log 3); a message on the wire is its discriminant and its payload (R59). The discriminant values are the parameter
`DISC` (R61). -/

namespace Sys2Proof

/-! ## Byte order (20_memory.md R42) -/

/-- `u16le(v)`. -/
def bytes16 (v : Half) : List Byte := [v.extractLsb' 0 8, v.extractLsb' 8 8]

/-- `u32le(v)`. -/
def bytes32 (v : Word) : List Byte := [v.extractLsb' 0 8, v.extractLsb' 8 8, v.extractLsb' 16 8, v.extractLsb' 24 8]

/-- Reads a little-endian 2-byte field off the front of a byte sequence. -/
def take16 : List Byte → Option (Half × List Byte)
  | b0 :: b1 :: rest => some (b1 ++ b0, rest)
  | _ => none

/-- Reads a little-endian 4-byte field off the front of a byte sequence (R62). -/
def take32 : List Byte → Option (Word × List Byte)
  | b0 :: b1 :: b2 :: b3 :: rest => some (b3 ++ b2 ++ b1 ++ b0, rest)
  | _ => none

/-- Reads a 1-byte field. -/
def take8 : List Byte → Option (Byte × List Byte)
  | b0 :: rest => some (b0, rest)
  | [] => none

/-! ## Discriminant table (30_encoding.md R61) -/

/-- `len(disc)` for the inbound rows of `DISC`; `none` for an unrecognized discriminant (R70a). -/
def payloadLen (t : DiscTable) (disc : Byte) : Option Nat :=
  if disc = t.cfgPwm then some 9
  else if disc = t.cfgHyst then some 15
  else if disc = t.cfgPid then some 29
  else if disc = t.cfgCot then some 41
  else if disc = t.cmdArm then some 0
  else none

/-! ## Payload layouts (30_encoding.md R63 to R67) -/

/-- R63. -/
def takeCfgPwm (bs : List Byte) : Option (Instr × List Byte) := do
  let (freq, bs) ← take32 bs
  let (duty, bs) ← take32 bs
  let (running, bs) ← take8 bs
  return (.cfgPwm freq duty running, bs)

/-- R64. -/
def takeCfgHyst (bs : List Byte) : Option (Instr × List Byte) := do
  let (freq, bs) ← take32 bs
  let (target, bs) ← take32 bs
  let (step, bs) ← take32 bs
  let (maxCompare, bs) ← take16 bs
  let (running, bs) ← take8 bs
  return (.cfgHyst freq target step maxCompare running, bs)

/-- R65. -/
def takeCfgPid (bs : List Byte) : Option (Instr × List Byte) := do
  let (freq, bs) ← take32 bs
  let (target, bs) ← take32 bs
  let (kP, bs) ← take32 bs
  let (kI, bs) ← take32 bs
  let (kD, bs) ← take32 bs
  let (maxIntegral, bs) ← take32 bs
  let (maxDuty, bs) ← take32 bs
  let (running, bs) ← take8 bs
  return (.cfgPid freq target kP kI kD maxIntegral maxDuty running, bs)

/-- R66. -/
def takeCfgCot (bs : List Byte) : Option (Instr × List Byte) := do
  let (target, bs) ← take32 bs
  let (l, bs) ← take32 bs
  let (iPeak, bs) ← take32 bs
  let (startupFactor, bs) ← take32 bs
  let (kP, bs) ← take32 bs
  let (kI, bs) ← take32 bs
  let (maxIntegral, bs) ← take32 bs
  let (minCurrent, bs) ← take32 bs
  let (csPeriod, bs) ← take32 bs
  let (averageAge, bs) ← take32 bs
  let (running, bs) ← take8 bs
  return (.cfgCot target l iPeak startupFactor kP kI maxIntegral minCurrent csPeriod averageAge running, bs)

/-- HK's operand `now` (45_housekeeping.md R111). -/
def takeHk (bs : List Byte) : Option (Instr × List Byte) := do
  let (now, bs) ← take32 bs
  return (.hk now, bs)

/-- A field sequence that ends early is truncated. -/
def orTruncated : Option (Instr × List Byte) → Except DecodeError (Instr × List Byte)
  | some r => .ok r
  | none => .error .truncated

/-- `MSG(disc, payload)`: the message whose discriminant is `disc`, its payload read off the front of `bs` (R69). -/
def decodeMessage (t : DiscTable) (disc : Byte) (bs : List Byte) : Except DecodeError (Instr × List Byte) :=
  if disc = t.cfgPwm then orTruncated (takeCfgPwm bs)
  else if disc = t.cfgHyst then orTruncated (takeCfgHyst bs)
  else if disc = t.cfgPid then orTruncated (takeCfgPid bs)
  else if disc = t.cfgCot then orTruncated (takeCfgCot bs)
  else if disc = t.cmdArm then .ok (.cmdArm, bs)
  else .error (.unrecognizedDiscriminant disc)

/-- The event at the front of a byte sequence, with the bytes after it. The kind is bits [9:8] of the code, `disc` bits
[7:0] (R58, R69); kind 3 and a nonzero `disc` under kinds 1 and 2 are reserved (R70b). -/
def decodeEvent (t : DiscTable) : List Byte → Except DecodeError (Instr × List Byte)
  | disc :: kind :: bs =>
    if kind = 0 then decodeMessage t disc bs
    else if kind = 1 then (if disc = 0 then .ok (.tick, bs) else .error (.nonzeroDisc kind disc))
    else if kind = 2 then (if disc = 0 then orTruncated (takeHk bs) else .error (.nonzeroDisc kind disc))
    else .error (.reservedKind kind)
  | _ => .error .truncated

/-- An event that fills its byte sequence exactly ("nothing follows", R59). -/
def decodeWhole (t : DiscTable) (bs : List Byte) : Except DecodeError Instr :=
  match decodeEvent t bs with
  | .ok (i, []) => .ok i
  | .ok (_, _ :: _) => .error .trailingBytes
  | .error e => .error e

/-! ## Encoder, from the same tables -/

/-- The event kind, bits [9:8] of the event code, as a byte (R58). -/
def kindByte : Instr → Byte
  | .cfgPwm _ _ _ => 0
  | .cfgHyst _ _ _ _ _ => 0
  | .cfgPid _ _ _ _ _ _ _ _ => 0
  | .cfgCot _ _ _ _ _ _ _ _ _ _ _ => 0
  | .cmdArm => 0
  | .tick => 1
  | .hk _ => 2

/-- Bits [7:0] of the event code: a message's discriminant; zero for TICK and HK (R58, R61). -/
def discByte (t : DiscTable) : Instr → Byte
  | .cfgPwm _ _ _ => t.cfgPwm
  | .cfgHyst _ _ _ _ _ => t.cfgHyst
  | .cfgPid _ _ _ _ _ _ _ _ => t.cfgPid
  | .cfgCot _ _ _ _ _ _ _ _ _ _ _ => t.cfgCot
  | .cmdArm => t.cmdArm
  | .tick => 0
  | .hk _ => 0

/-- The 10-bit event code `kind[9:8] ++ disc[7:0]` of opcode_table.json. -/
def eventCode (t : DiscTable) (i : Instr) : BitVec 10 := (kindByte i).setWidth 2 ++ discByte t i

/-- The operand bytes in payload order (R63 to R67). -/
def operandBytes : Instr → List Byte
  | .cfgPwm freq duty running => bytes32 freq ++ bytes32 duty ++ [running]
  | .cfgHyst freq target step maxCompare running =>
    bytes32 freq ++ bytes32 target ++ bytes32 step ++ bytes16 maxCompare ++ [running]
  | .cfgPid freq target kP kI kD maxIntegral maxDuty running =>
    bytes32 freq ++ bytes32 target ++ bytes32 kP ++ bytes32 kI ++ bytes32 kD ++ bytes32 maxIntegral ++
      bytes32 maxDuty ++ [running]
  | .cfgCot target l iPeak startupFactor kP kI maxIntegral minCurrent csPeriod averageAge running =>
    bytes32 target ++ bytes32 l ++ bytes32 iPeak ++ bytes32 startupFactor ++ bytes32 kP ++ bytes32 kI ++
      bytes32 maxIntegral ++ bytes32 minCurrent ++ bytes32 csPeriod ++ bytes32 averageAge ++ [running]
  | .cmdArm => []
  | .tick => []
  | .hk now => bytes32 now

/-- The bytes of an event. -/
def encode (t : DiscTable) (i : Instr) : List Byte := discByte t i :: kindByte i :: operandBytes i

/-- A message as it goes over the wire: discriminant, then payload (R59). Meant for kind 0. -/
def encodeMessage (t : DiscTable) (i : Instr) : List Byte := discByte t i :: operandBytes i

/-! ## Words of the opcode table -/

/-- Bytes of the longest event: two of the code and CFG_COT's 41. -/
def maxEventBytes : Nat := 43

/-- The bytes of an event word of `nbits` bits, bit 0 the least significant bit of the first byte, then zero operand
bytes up to the longest event. -/
def tableBytes (nbits w : Nat) : List Byte :=
  let n := (nbits + 7) / 8
  (List.range n).map (fun k => BitVec.ofNat 8 (w / 2 ^ (8 * k))) ++ List.replicate (maxEventBytes - n) 0

/-- The instruction the decoder reads from the event word `w` of `nbits` bits; the opcode table is written with the
discriminants of R61. -/
def decodeTableWord (nbits w : Nat) : Option Instr :=
  match decodeEvent .default (tableBytes nbits w) with
  | .ok (i, _) => some i
  | .error _ => none

/-- The bytes of exactly that event under the discriminants `t`; the word's own bytes where they are no event. -/
def tableEvent (t : DiscTable) (nbits w : Nat) : List Byte :=
  match decodeTableWord nbits w with
  | some i => encode t i
  | none => tableBytes nbits w

end Sys2Proof
end

