-- ==== Sys2Proof/Machine/Operands.lean ====
section
/-! DEFINITION. What the operand fields of an event mean (30_encoding.md R62) and how a record's values are laid out
(41_control_tick.md R94). -/

namespace Sys2Proof

/-- The binary32 value of a pattern (R62). -/
def Quantity.ofBits (b : Word) : Quantity :=
  let neg := b.toNat / 2 ^ 31 = 1
  let mag := b.toNat % 2 ^ 31
  if h : mag < 2139095040 then .fin neg ⟨mag, h⟩
  else if mag = 2139095040 then .inf neg
  else .nan

/-- An `f32` field: the value of the pattern in the domain; every pattern is accepted (R62, decision D1). -/
def NumDomain.ofBits (d : NumDomain) (b : Word) : Quantity := d.embed (Quantity.ofBits b)

/-- The pattern of a binary32 value (20_memory.md R42); NaN as the quiet pattern the test vectors write (log 1). A
rational has no pattern but that of the value it rounds to. -/
def Quantity.toBits : Quantity → Word
  | .nan => 0x7FC00000
  | .inf neg => if neg then 0xFF800000 else 0x7F800000
  | .fin neg m => BitVec.ofNat 32 ((if neg then 2 ^ 31 else 0) + m.val)
  | .exact q =>
    BitVec.ofNat 32 ((if q < 0 then 2 ^ 31 else 0) + Nat.min 2139095040 (roundMag (q.num.natAbs * unit) q.den))

end Sys2Proof

namespace Sys2Proof.Machine

/-- A `running` field: `running = (byte ≠ 0)` (R62, decision D5). -/
def runningOf (b : Byte) : Bool := decide (b ≠ 0)

/-- `adc16(a0) = sat_u16(roundI(a0))` (41_control_tick.md R94). -/
def adc16 (a0 : Quantity) : Half := BitVec.ofNat 16 (satU16 (roundI a0))

/-- `RECORD2(a0)` (R94). -/
def record2 (a0 : Quantity) : List Byte := bytes16 (adc16 a0)

/-- `RECORD6(a0, ccr)` (R94). -/
def record6 (a0 : Quantity) (ccr : Nat) : List Byte := bytes16 (adc16 a0) ++ bytes32 (BitVec.ofNat 32 ccr)

end Sys2Proof.Machine
end

