-- ==== Sys2Proof/Machine/Ops.lean ====
section
/-! DEFINITION. The operations the meanings share: register triple, entry to and return from the periodic context,
feedback read, capture append, mode reset, restart, transition, and the outbound port. -/

namespace Sys2Proof.Machine

/-! ## Hardware registers -/

/-- `(HW.PWM_PSC, HW.PWM_ARR, HW.PWM_CCR) <- r` (10_state.md R26, 70_reset_and_hazards.md R140). -/
def setPwmRegs (r : PwmRegs) (s : State) : State :=
  { s with hw := { s.hw with pwmPsc := r.psc, pwmArr := r.arr, pwmCcr := r.ccr } }

/-- The triple where FREQCALC gives one, else no write (40_mode_controller.md R82, decision D43). -/
def setPwmRegsIf (r : Option PwmRegs) (s : State) : State :=
  match r with
  | some r => setPwmRegs r s
  | none => s

/-- `HW.PWM_CCR <- c`. -/
def setPwmCcr (c : Int) (s : State) : State := { s with hw := { s.hw with pwmCcr := registerValue s.params c } }

/-- Installs an algorithm with its record: `S.mode` and the record in one (10_state.md R16). -/
def setReg (r : Regulator) (s : State) : State := { s with blk := { s.blk with reg := r } }

/-! ## The block's trap entry and return (60_exceptions.md R121, R122) -/

/-- Entry to the periodic context: `S.tickPending <- false`; nothing is saved and no mode changes (R121). -/
def tickEntry (s : State) : State := setTickPending false s

/-- Return: "there is no return instruction and nothing to restore" (R122); the outcome is recorded (R115). -/
def tickReturn (o : OpOutcome) (s : State) : State := setOutcome o s

/-- A TICK request: it waits as pending while the timer runs, and a stopped timer raises none (R119, R120). -/
def requestTick (elapsed : Bool) (s : State) : State :=
  if elapsed && s.hw.ctrlRun then setTickPending true s else s

/-! ## Feedback read (41_control_tick.md R90) -/

/-- `Σ_{k=1..n} RING[base − k × CHANNELS + c]`, exact, as raw counts. -/
def windowSum (s : State) (base : Int) (c : Nat) : Nat → Nat
  | 0 => 0
  | k + 1 =>
    windowSum s base c k + (ringRead s (base - ((k : Int) + 1) * (s.params.channels : Int) + (c : Int))).toNat

/-- `base = pos − (pos mod CHANNELS)`: the first index of the frame being written. -/
def frameBase (s : State) : Nat := s.hw.dmaPos - s.hw.dmaPos % s.params.channels

/-- `avg[c] = num(sum[c]) / num(WINDOW)`. -/
def channelAvg (s : State) (c : Nat) : Quantity :=
  (s.params.num.num (windowSum s (frameBase s : Int) c s.params.window)).div (s.params.num.num s.params.window)

/-- `VSCALE[c]`. A model instance has one for each channel. -/
def scale (s : State) (c : Nat) : Quantity := s.params.vscale.getD c .nan

/-- The triple `Feedback()` returns. -/
structure FeedbackValues where
  vout : Quantity
  vin : Quantity
  a0 : Quantity
  deriving DecidableEq, Repr

/-- `Feedback()` (R90): channel 0 is the output voltage, channel 1 the input voltage (decision D16). -/
def feedback (s : State) : FeedbackValues where
  vout := (channelAvg s 0).mul (scale s 0)
  vin := (channelAvg s 1).mul (scale s 1)
  a0 := channelAvg s 0

/-! ## Diagnostic capture (41_control_tick.md R95) -/

/-- `APPEND(rec)` (R95). -/
def appendRecord (rec : List Byte) (s : State) : Result :=
  if s.params.capCapacity < s.blk.cap.cursor + rec.length then .next (setFull true s)
  else
    match capWrite s s.blk.cap.cursor rec with
    | some t => .next { t with blk := { t.blk with cap := { t.blk.cap with cursor := t.blk.cap.cursor + rec.length } } }
    | none => .fault .capOutOfBounds

/-- `S.cap.armed ∧ ¬S.cap.full`. -/
def capturing (s : State) : Bool := s.blk.cap.armed && !s.blk.cap.full

/-- Step 4 of every regulating tick: `APPEND(RECORD6(a0, HW.PWM_CCR))` when capturing (41_control_tick.md R89). -/
def logRecord6 (a0 : Quantity) (s : State) : Result :=
  if capturing s then appendRecord (record6 a0 s.hw.pwmCcr) s else .next s

/-! ## Mode transition (40_mode_controller.md R79 to R82) -/

/-- `RESET()` (R80). -/
def modeReset (s : State) : State :=
  let s := setTickPending false (setCtrlRun false s)
  let s := setPwmOe false (setPwmRun false s)
  let s := setAdcRun false s
  let s := setPwmRegs (idleRegs s.params) s
  let s := { s with hw := { s.hw with adcSmpr := s.params.smprDefault } }
  setArmed false s

/-- `RESTART()` (R82). `DMA_POS` is a draw in `[0, RING_CAP)` (decision D35, log 9). -/
def restart (s : State) : State :=
  let s := setAdcRun true s
  let s :=
    { s with
      hw := { s.hw with dmaPos := Config.freeDmaPos s.env.draws % s.params.ringCap }
      env := { s.env with draws := s.env.draws + 1 } }
  setCtrlRun true (setPwmRun true s)

/-- The end of a transition: `S.running <- p.running; HW.PWM_OE <- S.running` (R79). -/
def finishTransition (running : Bool) (s : State) : State := setPwmOe running (setRunning running s)

/-- `TRANSITION` (R79): reset, apply (`regs` is what the apply step's FREQCALC gives), install, restart, enable. -/
def transition (reg : Regulator) (regs : Option PwmRegs) (running : Bool) (s : State) : State :=
  finishTransition running (restart (setReg reg (setPwmRegsIf regs (modeReset s))))

/-- Where the background context stands. -/
def setBackground (b : Background) (s : State) : State := { s with env := { s.env with background := b } }

/-- A background operation does not start while a message is being sent (60_exceptions.md R118b). -/
def whenBackgroundFree (s : State) (op : State → Result) : Result :=
  if s.blk.hk.outbox.isSome then .refused .backgroundBusy else op s

/-- A config operation: a transition whose outcome is `ok` (R79, R115). -/
def configure (reg : Regulator) (regs : Option PwmRegs) (running : Bool) (s : State) : Result :=
  whenBackgroundFree s fun s => .next (setOutcome .ok (transition reg regs running s))

/-! ## Outbound port (45_housekeeping.md R110, R113) -/

/-- Step 1 of `SEND(kind, m)`: `S.hk.outbox <- (kind, m)`. -/
def startSend (kind : SendKind) (m : List Byte) (s : State) : State :=
  { s with blk := { s.blk with hk := { s.blk.hk with outbox := some ⟨kind, m⟩ } } }

/-- `emit m`, and any other output: it joins the log. -/
def emit (o : Output) (s : State) : State := { s with env := { s.env with outputs := s.env.outputs ++ [o] } }

/-- `lastTelemetry = never ∨ now − lastTelemetry ≥ TELEMETRY_INTERVAL_S` (R113). -/
def telemetryDue (s : State) (now : Quantity) : Bool :=
  match s.blk.hk.lastTelemetry with
  | none => true
  | some last => s.params.telemetryIntervalS.le (now.sub last)

/-- `TELEMETRY_STEP(now)` outside Idle (R111, R113), up to step 1 of its SEND. The message is built from the state
before `lastTelemetry` is written. -/
def telemetryStep (now : Quantity) (s : State) : State :=
  if s.mode ≠ .idle ∧ telemetryDue s now then
    let m := s.params.disc.telemetry :: Config.telemetry s.blk s.hw
    startSend .telemetry m { s with blk := { s.blk with hk := { s.blk.hk with lastTelemetry := some now } } }
  else s

end Sys2Proof.Machine
end

