-- ==== Sys2Proof/Machine/Command.lean ====
section
/-! DEFINITION. The command operation CMD_ARM (40_mode_controller.md R87). -/

namespace Sys2Proof.Machine

/-- CMD_ARM (R87): cursor 0, `full` cleared, `armed` set; no reset. -/
def execCmdArm (s : State) : Result :=
  whenBackgroundFree s fun s =>
    let s := { s with blk := { s.blk with cap := { s.blk.cap with cursor := 0 } } }
    .next (setOutcome .ok (setArmed true (setFull false s)))

end Sys2Proof.Machine
end

