-- ==== Sys2Proof/Machine/Configure.lean ====
section
/-! DEFINITION. The config operations CFG_PWM, CFG_HYST, CFG_PID, CFG_COT (40_mode_controller.md R83 to R86). -/

namespace Sys2Proof.Machine

/-- CFG_PWM (R83). -/
def execCfgPwm (freq duty : Word) (running : Byte) (s : State) : Result :=
  let dom := s.params.num
  let f := dom.ofBits freq
  let d := dom.ofBits duty
  configure (.pwm { freq := f, duty := d }) (freqCalc s.params f d) (runningOf running) s

/-- CFG_HYST (R84). -/
def execCfgHyst (freq target step : Word) (maxCompare : Half) (running : Byte) (s : State) : Result :=
  let dom := s.params.num
  let f := dom.ofBits freq
  configure
    (.hyst
      { freq := f, target := dom.ofBits target, step := dom.ofBits step, maxCompare := maxCompare, duty := dom.num 0 })
    (freqCalc s.params f (dom.num 0)) (runningOf running) s

/-- CFG_PID (R85). -/
def execCfgPid (freq target kP kI kD maxIntegral maxDuty : Word) (running : Byte) (s : State) : Result :=
  let dom := s.params.num
  let f := dom.ofBits freq
  configure
    (.pid
      { freq := f
        target := dom.ofBits target
        kP := dom.ofBits kP
        kI := dom.ofBits kI
        kD := dom.ofBits kD
        maxIntegral := dom.ofBits maxIntegral
        maxDuty := dom.ofBits maxDuty
        integral := dom.num 0
        prevError := dom.num 0
        duty := dom.num 0 })
    (freqCalc s.params f (dom.num 0)) (runningOf running) s

/-- `alpha = samplePeriod / (averageAge + samplePeriod)` (10_state.md R24, R86). -/
def emaAlpha (p : Params) (averageAge : Quantity) : Quantity := p.ctrlPeriodS.div (averageAge.add p.ctrlPeriodS)

/-- CFG_COT (R86). It writes no PWM register: the idle default stays (decision D25). -/
def execCfgCot (target l iPeak startupFactor kP kI maxIntegral minCurrent csPeriod averageAge : Word) (running : Byte)
    (s : State) : Result :=
  let dom := s.params.num
  configure
    (.cot
      { target := dom.ofBits target
        l := dom.ofBits l
        iPeak := dom.ofBits iPeak
        startupFactor := dom.ofBits startupFactor
        kP := dom.ofBits kP
        kI := dom.ofBits kI
        maxIntegral := dom.ofBits maxIntegral
        minCurrent := dom.ofBits minCurrent
        csPeriod := dom.ofBits csPeriod
        averageAge := dom.ofBits averageAge
        sub := .cot
        integral := dom.num 0
        belowCount := 0
        pwmOnTicks := 0
        cycleEnable := true
        ema := { init := false, avg := dom.num 0, var := dom.num 0, alpha := emaAlpha s.params (dom.ofBits averageAge) } })
    none (runningOf running) s

end Sys2Proof.Machine
end

