-- ==== Sys2Proof/Machine/Housekeeping.lean ====
section
/-! DEFINITION. HK and the send attempts that carry it on (45_housekeeping.md R110 to R113). Each attempt is an atomic
step of its own, and so is the telemetry step of an HK that has flushed (log 13). -/

namespace Sys2Proof.Machine

/-- `now` is below the previous HK's `now` (60_exceptions.md R118b). -/
def clockBehind (s : State) (now : Quantity) : Bool :=
  match s.env.lastNow with
  | none => false
  | some last => now.lt last

/-- `FLUSH()` up to step 1 of its SEND (R112), else straight on to the telemetry step (R111). -/
def flushOrTelemetry (now : Quantity) (s : State) : Result :=
  if s.blk.cap.armed && s.blk.cap.full then
    match capRead s 0 s.params.capCapacity with
    | some bytes => .next (startSend .blob (s.params.disc.captureBlob :: bytes) s)
    | none => .fault .capOutOfBounds
  else .next (telemetryStep now s)

/-- HK(now) (R111). -/
def execHk (now : Word) (s : State) : Result :=
  let t := s.params.num.ofBits now
  whenBackgroundFree s fun s =>
    if clockBehind s t then .refused .clockWentBack
    else flushOrTelemetry t (setOutcome .ok { s with env := { s.env with lastNow := some t } })

/-- The step of an accepted attempt: `outbox <- none; emit m`; after the blob also `armed <- false`, with the telemetry
step of the same HK to come (R110 to R112). -/
def sendAccepted (o : Outbound) (s : State) : Result :=
  let s := { s with blk := { s.blk with hk := { s.blk.hk with outbox := none } } }
  let s := setOutcome .ok (emit (.message o.bytes) s)
  match o.kind with
  | .telemetry => .next s
  | .blob =>
    match s.env.lastNow with
    | some now => .next (setBackground (.housekeeping now) (setArmed false s))
    | none => .fault .noValue

/-- One `trySend` attempt (R110): a busy answer changes nothing but the recorded outcome. -/
def sendAttempt (a : Answer) (s : State) : Result :=
  match s.blk.hk.outbox with
  | none => .refused .noSendInProgress
  | some o =>
    match a with
    | .busy => .next (setOutcome .hardwareBusy s)
    | .sent => sendAccepted o s

/-- A send loop's attempts, one after the other with nothing between them. -/
def sendAttempts : List Answer → State → Result
  | [], s => .next s
  | a :: rest, s =>
    match sendAttempt a s with
    | .next t => sendAttempts rest t
    | .fault f => .fault f
    | .refused e => .refused e

/-- The rest of an HK that has flushed: its telemetry step up to step 1 of the SEND, a step of its own, so that a TICK
may fall between it and the accepted blob (R111, 20_memory.md R50). -/
def resumeHk (now : Quantity) (s : State) : State := setOutcome .ok (telemetryStep now (setBackground .idle s))

end Sys2Proof.Machine
end

