-- ==== Sys2Proof/Machine/Cot.lean ====
section
/-! DEFINITION. TICK in ConstantOnTime: the COT and Cycle-Skipping sub-states (44_cot.md R103 to R107). -/

namespace Sys2Proof.Machine

/-! ## Helpers (R103, R104) -/

/-- `LI` (R103). -/
def voltSeconds (r : CotRec) : Quantity := r.l.mul r.iPeak

/-- `onTime(vin)` (R103). -/
def onTime (r : CotRec) (vin : Quantity) : Quantity := (voltSeconds r).div vin

/-- `vHigh(vout, vin)` (R103). -/
def vHigh (r : CotRec) (vout vin : Quantity) : Quantity := vout.max (vin.mul r.startupFactor)

/-- `fallTime(vout, vin)` (R103). -/
def fallTime (r : CotRec) (vout vin : Quantity) : Quantity := (voltSeconds r).div ((vHigh r vout vin).sub vin)

/-- `calculateCurrent(tf, T)` (R103). -/
def calculateCurrent (dom : NumDomain) (r : CotRec) (tf period : Quantity) : Quantity := (r.iPeak.mul tf).div ((dom.num 2).mul period)

/-- `freqForCurrent(I, tf)` (R103). -/
def freqForCurrent (dom : NumDomain) (r : CotRec) (current tf : Quantity) : Quantity := ((dom.num 2).mul current).div (r.iPeak.mul tf)

/-- `freqMax(tOn, tf)` (R103). -/
def freqMax (dom : NumDomain) (tOn tf : Quantity) : Quantity := (dom.num 1).div (tOn.add tf)

/-- `EMA_ADD(s, x)` (R104). -/
def emaAdd (dom : NumDomain) (m : Ema) (x : Quantity) : Ema :=
  if m.init then
    let diff := x.sub m.avg
    let incr := m.alpha.mul diff
    { init := true
      avg := m.avg.add incr
      var := ((dom.num 1).sub m.alpha).mul (m.var.add (diff.mul incr))
      alpha := m.alpha }
  else { init := true, avg := x, var := dom.num 0, alpha := m.alpha }

/-! ## Steps -/

/-- What a ConstantOnTime tick commits: the record, the triple (`none`: not written) and `PWM_OE`. -/
structure CotWrite where
  record : CotRec
  regs : Option PwmRegs
  oe : Bool
  deriving DecidableEq, Repr

/-- `COT_STEP` (R106); `none` is the tick no-op. -/
def cotStep (p : Params) (running : Bool) (r : CotRec) (vout vin e : Quantity) (m : Ema) : Option CotWrite :=
  let i1 := clamp (r.integral.add (r.kI.mul e)) r.maxIntegral.neg r.maxIntegral
  let current := (r.kP.mul e).add i1
  let b1 := if current.lt r.minCurrent then r.belowCount + 1 else 0
  if p.skipTicks ≤ b1 then
    if allFinite [e, i1, current, m.avg, m.var] then
      some
        { record := { r with sub := .cs, integral := i1, belowCount := 0, pwmOnTicks := 0, cycleEnable := false, ema := m }
          regs := none
          oe := false }
    else none
  else
    let li := voltSeconds r
    let tOn := onTime r vin
    let vhi := vHigh r vout vin
    let tFall := fallTime r vout vin
    let ieff := current.max r.minCurrent
    let f0 := freqForCurrent p.num r ieff tFall
    let fMax := freqMax p.num tOn tFall
    let f := f0.min fMax
    let dty := tOn.mul f
    match freqCalc p f dty with
    | none => none
    | some regs =>
      if allFinite [e, i1, current, m.avg, m.var, li, tOn, vhi, tFall, ieff, f0, fMax, f, dty] then
        some
          { record := { r with integral := i1, belowCount := b1, cycleEnable := true, ema := m }
            regs := some regs
            oe := running }
      else none

/-- `pwmOnTicks` counts an enabled tick and saturates at 2^32 − 1 (R107, decision D50). -/
def countOnTick (en : Bool) (n : Nat) : Nat := if en then min (n + 1) (2 ^ 32 - 1) else n

/-- `ret`: the Cycle-Skipping return test, against the variance before this tick's sample (R107, decision D22). -/
def csReturns (p : Params) (r : CotRec) (p1 : Nat) (e : Quantity) : Bool :=
  decide (p.csMinOn ≤ p1) && (p.csVarFactor.mul r.ema.var).lt (e.mul e)

/-- `CS_STEP` (R107); `none` is the tick no-op. -/
def csStep (p : Params) (running : Bool) (r : CotRec) (vout vin e : Quantity) (m : Ema) : Option CotWrite :=
  let en := vout.lt r.target
  let p1 := countOnTick en r.pwmOnTicks
  let li := voltSeconds r
  let tOn := onTime r vin
  let fcs := (p.num.num 1).div r.csPeriod
  let dcs := tOn.div r.csPeriod
  let ee := e.mul e
  let thr := p.csVarFactor.mul r.ema.var
  match freqCalc p fcs dcs with
  | none => none
  | some regs =>
    if allFinite [e, li, tOn, fcs, dcs, ee, thr, m.avg, m.var] then
      if csReturns p r p1 e then
        let vhi := vHigh r vout vin
        let tFall := fallTime r vout vin
        let i0 := calculateCurrent p.num r tFall r.csPeriod
        if allFinite [vhi, tFall, i0] then
          some
            { record := { r with pwmOnTicks := p1, cycleEnable := en, ema := m, sub := .cot, integral := i0, belowCount := 0 }
              regs := some regs
              oe := running && en }
        else none
      else
        some { record := { r with pwmOnTicks := p1, cycleEnable := en, ema := m }, regs := some regs, oe := running && en }
    else none

/-- The step of the sub-state (R105). -/
def cotNext (p : Params) (running : Bool) (r : CotRec) (vout vin : Quantity) : Option CotWrite :=
  let e := r.target.sub vout
  let m := emaAdd p.num r.ema vout
  match r.sub with
  | .cot => cotStep p running r vout vin e m
  | .cs => csStep p running r vout vin e m

/-- The commit and the log of `TICK_COT` (R105). -/
def finishCot (a0 : Quantity) (next : Option CotWrite) (s : State) : Result :=
  match next with
  | some w => logRecord6 a0 (tickReturn .ok (setPwmOe w.oe (setPwmRegsIf w.regs (setReg (.cot w.record) s))))
  | none => logRecord6 a0 (tickReturn .tickNoop s)

/-- `TICK_COT` (R105). -/
def tickCot (r : CotRec) (s : State) : Result :=
  finishCot (feedback s).a0 (cotNext s.params s.blk.running r (feedback s).vout (feedback s).vin) s

end Sys2Proof.Machine
end

