-- ==== Sys2Proof/Machine/Hysteretic.lean ====
section
/-! DEFINITION. TICK in SimpleHysteretic (42_hysteretic.md R97). -/

namespace Sys2Proof.Machine

/-- `d1`: the step toward the target (R97, decisions D13, D14). -/
def hystStep (r : HystRec) (vout : Quantity) : Quantity :=
  if vout.lt r.target then r.duty.add r.step
  else if r.target.lt vout then r.duty.sub r.step
  else r.duty

/-- The new record and compare value; `none` is the tick no-op (R97, 41_control_tick.md R91). -/
def hystNext (dom : NumDomain) (r : HystRec) (arr : Nat) (vout : Quantity) : Option (HystRec × Int) :=
  let d1 := hystStep r vout
  let d2 := clamp d1 (dom.num 0) (dom.num 1)
  let c := dutyCcr dom arr d2
  let limit : Int := r.maxCompare.toNat
  let c' := if limit < c then limit else c
  let d3 := if limit < c then (dom.num r.maxCompare.toNat).div (dom.num arr) else d2
  if allFinite [d1, d3] then some ({ r with duty := d3 }, c') else none

/-- The commit and the log of `TICK_HYST` (R97). -/
def finishHyst (a0 : Quantity) (next : Option (HystRec × Int)) (s : State) : Result :=
  match next with
  | some (r', c) => logRecord6 a0 (tickReturn .ok (setPwmCcr c (setReg (.hyst r') s)))
  | none => logRecord6 a0 (tickReturn .tickNoop s)

/-- `TICK_HYST` (R97). -/
def tickHyst (r : HystRec) (s : State) : Result :=
  finishHyst (feedback s).a0 (hystNext s.params.num r s.hw.pwmArr (feedback s).vout) s

end Sys2Proof.Machine
end

