-- ==== Sys2Proof/Machine/Passthrough.lean ====
section
/-! DEFINITION. TICK in PWMPassthrough (41_control_tick.md R96). -/

namespace Sys2Proof.Machine

/-- `TICK_PWM` (R96): only the conditional log. -/
def tickPwm (s : State) : Result :=
  if capturing s then appendRecord (record2 (feedback s).a0) s else .next s

end Sys2Proof.Machine
end

