-- ==== Sys2Proof/Machine/Pid.lean ====
section
/-! DEFINITION. TICK in PID (43_pid.md R99). -/

namespace Sys2Proof.Machine

/-- The new record and compare value; `none` is the tick no-op (R99, 41_control_tick.md R91). -/
def pidNext (dom : NumDomain) (r : PidRec) (arr : Nat) (vout : Quantity) : Option (PidRec × Int) :=
  let e := r.target.sub vout
  let i1 := clamp (r.integral.add e) r.maxIntegral.neg r.maxIntegral
  let df := e.sub r.prevError
  let u := ((e.mul r.kP).add (i1.mul r.kI)).add (df.mul r.kD)
  let hi := clamp r.maxDuty (dom.num 0) (dom.num 1)
  let d := clamp u (dom.num 0) hi
  if allFinite [e, i1, df, u, hi, d] then
    some ({ r with integral := i1, prevError := e, duty := d }, dutyCcr dom arr d)
  else none

/-- The commit and the log of `TICK_PID` (R99). -/
def finishPid (a0 : Quantity) (next : Option (PidRec × Int)) (s : State) : Result :=
  match next with
  | some (r', c) => logRecord6 a0 (tickReturn .ok (setPwmCcr c (setReg (.pid r') s)))
  | none => logRecord6 a0 (tickReturn .tickNoop s)

/-- `TICK_PID` (R99). -/
def tickPid (r : PidRec) (s : State) : Result :=
  finishPid (feedback s).a0 (pidNext s.params.num r s.hw.pwmArr (feedback s).vout) s

end Sys2Proof.Machine
end

