-- ==== Sys2Proof/Machine/Tick.lean ====
section
/-! DEFINITION. TICK: the single switch of the tick entry point (41_control_tick.md R88). -/

namespace Sys2Proof.Machine

/-- The tick of the installed algorithm, after entry. In Idle no algorithm is installed: no operation (R88). -/
def tickDispatch (s : State) : Result :=
  match s.blk.reg with
  | .idle => .next (tickReturn .ok s)
  | .pwm _ => tickPwm (tickReturn .ok s)
  | .hyst r => tickHyst r s
  | .pid r => tickPid r s
  | .cot r => tickCot r s

/-- TICK (R88): it occurs only while `HW.CTRL_RUN = 1`; otherwise it is no event of the block (60_exceptions.md R118b). -/
def execTick (s : State) : Result :=
  if s.hw.ctrlRun then tickDispatch (tickEntry s) else .refused .tickWhileStopped

end Sys2Proof.Machine
end

