-- ==== Sys2Proof/Machine/Dispatch.lean ====
section
/-! DEFINITION. The meaning of each event, one arm per row of opcode_table.json. -/

namespace Sys2Proof.Machine

def exec (i : Instr) (s : State) : Host.Outcome State Fault Refusal :=
  match i with
  | .cfgPwm freq duty running => Sys2Proof.Machine.execCfgPwm freq duty running s
  | .cfgHyst freq target step maxCompare running => Sys2Proof.Machine.execCfgHyst freq target step maxCompare running s
  | .cfgPid freq target kP kI kD maxIntegral maxDuty running => Sys2Proof.Machine.execCfgPid freq target kP kI kD maxIntegral maxDuty running s
  | .cfgCot target l iPeak startupFactor kP kI maxIntegral minCurrent csPeriod averageAge running => Sys2Proof.Machine.execCfgCot target l iPeak startupFactor kP kI maxIntegral minCurrent csPeriod averageAge running s
  | .cmdArm => Sys2Proof.Machine.execCmdArm s
  | .tick => Sys2Proof.Machine.execTick s
  | .hk now => Sys2Proof.Machine.execHk now s

end Sys2Proof.Machine
end

