-- ==== Sys2Proof/Machine/Framer.lean ====
section
/-! DEFINITION. The message port (40_mode_controller.md R73 to R78): `submit`, EXTRACT, COMPACT, PROTOCOL_ERROR, as
atomic steps of the background context (log 15). -/

namespace Sys2Proof.Machine

/-- `submit(chunk)` begins (R73). -/
def startSubmit (chunk : List Byte) (s : State) : State := setBackground (.submitting chunk) s

/-- `COMPACT(n)` (R75): the trailing bytes move down to offset 0; bytes at and past the new length stay as they are. -/
def compact (n : Nat) (s : State) : Result :=
  match aggRead s n (s.blk.agg.length - n) with
  | none => .fault .aggOutOfBounds
  | some trailing =>
    match aggWrite s 0 trailing with
    | none => .fault .aggOutOfBounds
    | some t => .next { t with blk := { t.blk with agg := { t.blk.agg with length := s.blk.agg.length - n } } }

/-- `PROTOCOL_ERROR(d)` (R77): the output event, and `COMPACT(1)`. -/
def protocolError (d : Byte) (s : State) : Result :=
  compact 1 (setOutcome (.protocolError d) (emit (.protocolError d) s))

/-- `MSG(d, payload)`, then `COMPACT(n)` (R74, R78). -/
def dispatchMessage (d : Byte) (n : Nat) (s : State) : Result :=
  match aggRead s 1 (n - 1) with
  | none => .fault .aggOutOfBounds
  | some payload =>
    match decodeMessage s.params.disc d payload with
    | .error e => .refused (.undecodable e)
    | .ok (i, _) =>
      match exec i s with
      | .next t => compact n (emit (.dispatched i) t)
      | .fault f => .fault f
      | .refused r => .refused r

/-- One pass of `submit`'s copy: "as many incoming bytes as fit"; the end of the chunk ends `submit` (R73). -/
def copyChunk (rest : List Byte) (s : State) : Result :=
  match rest with
  | [] => .next (setBackground .idle s)
  | _ :: _ =>
    let k := min rest.length (aggCap - s.blk.agg.length)
    match aggWrite s s.blk.agg.length (rest.take k) with
    | none => .fault .aggOutOfBounds
    | some t =>
      .next (setBackground (.submitting (rest.drop k))
        { t with blk := { t.blk with agg := { t.blk.agg with length := t.blk.agg.length + k } } })

/-- One atomic step of a running `submit`: one pass of EXTRACT's loop while it has something to take (R74), else the next
copy. With no `submit` running there is nothing to do. -/
def framerStep (s : State) : Result :=
  match s.env.background with
  | .idle => .next s
  | .housekeeping _ => .next s
  | .submitting rest =>
    if s.blk.agg.length = 0 then copyChunk rest s
    else
      let d := s.blk.agg.bytes.read 0
      match payloadLen s.params.disc d with
      | none => protocolError d s
      | some len => if s.blk.agg.length < 1 + len then copyChunk rest s else dispatchMessage d (1 + len) s

/-- At most `n` steps of a running `submit`, without anything between them. -/
def framerRun : Nat → State → Result
  | 0, s => .next s
  | n + 1, s =>
    match s.env.background with
    | .idle => .next s
    | .housekeeping _ => .next s
    | .submitting _ =>
      match framerStep s with
      | .next t => framerRun n t
      | .fault f => .fault f
      | .refused r => .refused r

/-- A whole `submit(chunk)` call with nothing interleaved. Every step copies a byte, takes a byte out or ends. -/
def submitWhole (chunk : List Byte) (s : State) : Result :=
  framerRun (2 * chunk.length + s.blk.agg.length + 1) (startSubmit chunk s)

end Sys2Proof.Machine
end

