-- ==== Sys2Proof/Machine/Agents.lean ====
section
/-! DEFINITION. What each agent of 20_memory.md R48 does when its turn comes, and whose turn it is
(60_exceptions.md R119, R120). -/

namespace Sys2Proof.Machine

/-- The schedule without its first entry. -/
def setInputs (rest : List Input) (s : State) : State := { s with env := { s.env with inputs := rest } }

/-- The sampling engine's step (R52): only while `ADC_RUN = 1`; else ring and position are frozen (10_state.md R29; log 20).
DESIGN CHOICE (log 25): R52's write and the advance that follows it are one step, with no step of the block between. -/
def engineSample (v : Half) (s : State) : State :=
  if s.hw.adcRun then
    { s with
      ring := s.ring.write (s.hw.dmaPos % s.params.ringCap) v
      hw := { s.hw with dmaPos := (s.hw.dmaPos + 1) % s.params.ringCap } }
  else s

/-- The control timer's counter is written by the timer only, `CTRL_CNT_BITS` wide (10_state.md R28). -/
def timerCount (v : Nat) (s : State) : State :=
  { s with hw := { s.hw with ctrlCnt := v % 2 ^ s.params.ctrlCntBits } }

/-- A TICK request raised while a step runs waits until it has ended (R120, R122). -/
def requestAfter (elapsed : Bool) (r : Result) : Result :=
  match r with
  | .next t => .next (requestTick elapsed t)
  | .fault f => .fault f
  | .refused e => .refused e

/-- A `submit` or an HK is between two of its steps: until it ends the background context starts nothing else (R74,
R110). -/
def midOperation (s : State) : Bool :=
  match s.env.background with
  | .idle => false
  | .submitting _ => true
  | .housekeeping _ => true

/-- The next step of the operation the background context is in; in none, nothing. -/
def backgroundStep (s : State) : Result :=
  match s.env.background with
  | .idle => .next s
  | .submitting _ => framerStep s
  | .housekeeping now => .next (resumeHk now s)

/-- An event at the event port. TICK runs in the periodic context at once; the others wait for the operation the
background context is in. The entry leaves the schedule when its event runs. -/
def offerEvent (bytes : List Byte) (elapsed : Bool) (rest : List Input) (s : State) : Result :=
  match decodeWhole s.params.disc bytes with
  | .error e => .refused (.undecodable e)
  | .ok i =>
    if i.periodic then requestAfter elapsed (exec i (setInputs rest s))
    else if midOperation s then backgroundStep s
    else exec i (requestTick elapsed (setInputs rest s))

/-- The transport calls `submit(chunk)`; it waits for the operation the background context is in, and none starts during
a send (70_reset_and_hazards.md R139). -/
def offerSubmit (chunk : List Byte) (elapsed : Bool) (rest : List Input) (s : State) : Result :=
  if midOperation s then backgroundStep s
  else whenBackgroundFree s fun s => .next (startSubmit chunk (requestTick elapsed (setInputs rest s)))

/-- The host's answer to a send attempt; an HK that has flushed first goes on to its next SEND. -/
def offerAttempt (answer : Answer) (elapsed : Bool) (rest : List Input) (s : State) : Result :=
  if midOperation s then backgroundStep s else sendAttempt answer (requestTick elapsed (setInputs rest s))

/-- A step of the background context or of an agent that a pending TICK does not go before. -/
def backgroundTurn (i : Input) (rest : List Input) (s : State) : Result :=
  match i.action with
  | .event bytes => offerEvent bytes i.tickDuring rest s
  | .submit chunk => offerSubmit chunk i.tickDuring rest s
  | .background => backgroundStep (requestTick i.tickDuring (setInputs rest s))
  | .attempt answer => offerAttempt answer i.tickDuring rest s
  | .sample v => .next (requestTick i.tickDuring (engineSample v (setInputs rest s)))
  | .count v => .next (requestTick i.tickDuring (timerCount v (setInputs rest s)))

/-- The sampling engine and the timer's counter are no contexts: a pending TICK does not hold them back (R120). -/
def Action.device : Action → Bool
  | .event _ => false
  | .submit _ => false
  | .background => false
  | .attempt _ => false
  | .sample _ => true
  | .count _ => true

/-- Whose turn it is: a pending TICK goes before every step of the background context (R120); with nothing scheduled a
operation the background context is in goes on, and else the block does nothing (60_exceptions.md R129). -/
def turn (s : State) : Result :=
  match s.env.inputs with
  | [] => if s.blk.tickPending then exec .tick s else backgroundStep s
  | i :: rest =>
    if s.blk.tickPending && !i.action.device then exec .tick s else backgroundTurn i rest s

/-- Places an event word of the opcode table as the very next event: at the head of the schedule, no TICK pending, no
operation of the background context under way, and for TICK the control timer running, since only a running timer raises it (log 2). -/
def placeEvent (nbits w : Nat) (s : State) : State :=
  let s := setInputs (⟨.event (tableEvent s.params.disc nbits w), false⟩ :: s.env.inputs) s
  let s := setBackground .idle (setTickPending false s)
  match decodeTableWord nbits w with
  | some i => if i.periodic then setCtrlRun true s else s
  | none => s

end Sys2Proof.Machine
end

