-- ==== Sys2Proof/WellFormed.lean ====
section
/-! DEFINITION. What is well-formed: an event (every operand pattern is legal, 30_encoding.md R62, R70d) and a parameter
set (00_scope.md R7; 93_implementation_defined.md section 1: a set that fails is not a model instance). -/

namespace Sys2Proof

/-- "Every bit pattern of every payload field is legal" (R70d), and a `now` is any `NUM` (45_housekeeping.md R111): the
types of the fields carry all there is to check. -/
def Instr.wf : Instr → Bool
  | .cfgPwm _ _ _ => true
  | .cfgHyst _ _ _ _ _ => true
  | .cfgPid _ _ _ _ _ _ _ _ => true
  | .cfgCot _ _ _ _ _ _ _ _ _ _ _ => true
  | .cmdArm => true
  | .tick => true
  | .hk _ => true

/-- `CLOCK_HZ` is a positive integer (R7). -/
def Params.clockOk (p : Params) : Bool := decide (0 < p.clockHz)

/-- DEDUCED (log 8): the feedback reads channels 0 and 1 (41_control_tick.md R90). -/
def Params.channelsOk (p : Params) : Bool := decide (2 ≤ p.channels)

/-- `RING_CAP` is a multiple of `CHANNELS`, and `1 ≤ WINDOW ≤ RING_CAP / CHANNELS` (R7, 70_reset_and_hazards.md R135). -/
def Params.ringOk (p : Params) : Bool :=
  decide (p.ringCap % p.channels = 0 ∧ 0 < p.window ∧ p.window ≤ p.ringCap / p.channels)

/-- `SKIP_TICKS` is in `1 .. 255` (44_cot.md R106). -/
def Params.skipOk (p : Params) : Bool := decide (0 < p.skipTicks ∧ p.skipTicks ≤ 255)

/-- DEDUCED (log 8): a message's discriminant tells which message it is (30_encoding.md R60), so the inbound ones
differ. -/
def DiscTable.wf (t : DiscTable) : Bool := decide t.inbound.Nodup

/-- `x` is a value of the domain. NaN and the infinities, which any `f32` field can hold (30_encoding.md R62), are values
of both (log 24). -/
def NumDomain.has (d : NumDomain) (x : Quantity) : Bool :=
  match x with
  | .nan => true
  | .inf _ => true
  | .fin _ _ => decide (d = .binary32)
  | .exact _ => decide (d = .rational)

/-- The parameters of type `NUM`. -/
def Params.numbers (p : Params) : List Quantity :=
  p.ctrlPeriodS :: p.idleFreqHz :: p.idleDuty :: p.csVarFactor :: p.telemetryIntervalS :: p.vscale

/-- Every parameter of type `NUM` is a value of the domain, and every channel has its scale (R7). -/
def Params.numbersOk (p : Params) : Bool := p.numbers.all p.num.has && decide (p.vscale.length = p.channels)

/-- The parameter set is a model instance. -/
def Params.wf (p : Params) : Bool :=
  p.clockOk && p.channelsOk && p.ringOk && p.skipOk && p.disc.wf && p.numbersOk

end Sys2Proof
end

