-- ==== Sys2Proof/Machine/Step.lean ====
section
/-! DEFINITION. One step of the machine. It has no program counter: the next operation is the next input event
(10_state.md R17). -/

namespace Sys2Proof.Machine

/-- One step. A parameter set that is no model instance is refused (93_implementation_defined.md section 1). -/
def step (s : State) : Host.Outcome State Fault Refusal :=
  if s.params.wf then turn s else .refused .notAModelInstance

/-- `s` with that event as its next. -/
def State.withFetchWord (s : State) (nbits w : Nat) : State := placeEvent nbits w s

end Sys2Proof.Machine
end

