-- ==== Sys2Proof/Safety.lean ====
section
/-! DEFINITION. What holds of the machine in every state of a run: the parts of the invariant, in the terms the
statements use; and what an operation leaves, written as the state before with the parts that changed. -/

namespace Sys2Proof.Machine

/-- Every space is in canonical form (20_memory.md R37). -/
def MemoriesCanonical (s : State) : Prop :=
  s.ring.wf = true ∧ s.blk.cap.buf.wf = true ∧ s.blk.agg.bytes.wf = true

/-- `num` of every register value is exact (00_scope.md R10): in the rationals always, in binary32 where the timer is
narrow enough. -/
def ExactTimer (p : Params) : Prop := p.num = .rational ∨ p.timerBits ≤ 24

/-- Each PWM value register holds a value of its width, and "`CCR ≤ ARR`" where `num(ARR)` is exact (10_state.md R26;
log 23). -/
def RegsInRange (s : State) : Prop :=
  s.hw.pwmPsc ≤ s.params.tmax ∧ s.hw.pwmArr ≤ s.params.tmax ∧ s.hw.pwmCcr ≤ s.params.tmax ∧
    (ExactTimer s.params → s.hw.pwmCcr ≤ s.hw.pwmArr)

/-- Cursor, fill level and write position stay inside their arrays (10_state.md R29, R32, R33). -/
def PositionsInRange (s : State) : Prop :=
  s.blk.cap.cursor ≤ s.params.capCapacity ∧ s.blk.agg.length ≤ aggCap ∧ s.hw.dmaPos < s.params.ringCap

/-- The timers and the engine run exactly outside Idle, a TICK is pending only while the timer runs, and the output is
driven only if the last config said `running` (10_state.md R15, R27, R28; 40_mode_controller.md R79). -/
def RunBitsFollowMode (s : State) : Prop :=
  s.hw.ctrlRun = decide (s.mode ≠ .idle) ∧ s.hw.pwmRun = decide (s.mode ≠ .idle) ∧
    s.hw.adcRun = decide (s.mode ≠ .idle) ∧ (s.blk.tickPending = true → s.hw.ctrlRun = true) ∧
    (s.hw.pwmOe = true → s.blk.running = true ∧ s.mode ≠ .idle)

/-- `x` lies in `[lo, hi]`, so none of the three is NaN. -/
def Within (lo x hi : Quantity) : Prop := lo.le x = true ∧ x.le hi = true

/-- The installed record's ranges: tracked duties in `[0, 1]` (10_state.md R21, R22), the PID integral in its bound when
the bound is not negative (43_pid.md R100), the counters of 10_state.md R23. -/
def RecordInRange (s : State) : Prop :=
  let zero := s.params.num.num 0
  let one := s.params.num.num 1
  match s.blk.reg with
  | .idle => True
  | .pwm _ => True
  | .hyst r => Within zero r.duty one
  | .pid r =>
    Within zero r.duty one ∧
      (zero.le r.maxIntegral = true → Within r.maxIntegral.neg r.integral r.maxIntegral)
  | .cot r => r.belowCount < s.params.skipTicks ∧ r.pwmOnTicks ≤ 2 ^ 32 - 1

/-- A send holds the whole capture (45_housekeeping.md R112) or a telemetry message, and the HK that began it is the last
one; so is an HK that has flushed. -/
def SendConsistent (s : State) : Prop :=
  match s.blk.hk.outbox with
  | none => ∀ now, s.env.background = .housekeeping now → s.env.lastNow = some now
  | some o =>
    s.env.background = .idle ∧ s.env.lastNow ≠ none ∧
      match o.kind with
      | .blob =>
        s.blk.cap.armed = true ∧ s.blk.cap.full = true ∧
          o.bytes = s.params.disc.captureBlob :: s.blk.cap.buf.readRange 0 s.params.capCapacity
      | .telemetry => s.mode ≠ .idle

/-- The buffered bytes are the beginning of a message that is not complete (10_state.md R33). -/
def AwaitsBytes (t : DiscTable) (g : Agg) : Prop :=
  g.length = 0 ∨ ∃ len, payloadLen t (g.bytes.read 0) = some len ∧ g.length < 1 + len

/-- Outside `submit` the aggregation buffer holds "a prefix of some valid message" (R33), and in Idle no capture ends
(45_housekeeping.md R114). -/
def BuffersConsistent (s : State) : Prop :=
  ((∀ left, s.env.background ≠ .submitting left) → AwaitsBytes s.params.disc s.blk.agg) ∧ (s.mode = .idle → s.blk.cap.full = false)

/-- The values of type `NUM` in a record (10_state.md R20 to R24). -/
def recordNumbers : Regulator → List Quantity
  | .idle => []
  | .pwm r => [r.freq, r.duty]
  | .hyst r => [r.freq, r.target, r.step, r.duty]
  | .pid r => [r.freq, r.target, r.kP, r.kI, r.kD, r.maxIntegral, r.maxDuty, r.integral, r.prevError, r.duty]
  | .cot r =>
    [r.target, r.l, r.iPeak, r.startupFactor, r.kP, r.kI, r.maxIntegral, r.minCurrent, r.csPeriod, r.averageAge,
      r.integral, r.ema.avg, r.ema.var, r.ema.alpha]

/-- Every quantity the machine holds is a value of `NUM` (00_scope.md R7, R10): those of the record, and the times. -/
structure NumbersInDomain (s : State) : Prop where
  record : ∀ x ∈ recordNumbers s.blk.reg, s.params.num.has x = true
  lastTelemetry : ∀ x, s.blk.hk.lastTelemetry = some x → s.params.num.has x = true
  lastNow : ∀ x, s.env.lastNow = some x → s.params.num.has x = true
  flushed : ∀ x, s.env.background = .housekeeping x → s.params.num.has x = true

/-- The invariant of a run. -/
structure RunInvariant (s : State) : Prop where
  instanceOk : s.params.wf = true
  memories : MemoriesCanonical s
  regs : RegsInRange s
  positions : PositionsInRange s
  runBits : RunBitsFollowMode s
  record : RecordInRange s
  send : SendConsistent s
  buffers : BuffersConsistent s
  numbers : NumbersInDomain s

/-! ## When a step is refused -/

/-- The step taken in `s` is of an event that the environment must not raise, and `e` names it: reserved codes and
unreadable bytes (30_encoding.md R70), a TICK while the timer is stopped, an HK whose time went back, work offered during
a send (60_exceptions.md R118b), and a host answer to no send (log 17). -/
def RefusalGrounds (s : State) (e : Refusal) : Prop :=
  ∃ action elapsed rest, s.env.inputs = ⟨action, elapsed⟩ :: rest ∧
    match e with
    | .undecodable d => ∃ bytes, action = .event bytes ∧ decodeWhole s.params.disc bytes = .error d
    | .tickWhileStopped =>
      s.hw.ctrlRun = false ∧ ∃ bytes, action = .event bytes ∧ decodeWhole s.params.disc bytes = .ok .tick
    | .clockWentBack =>
      ∃ bytes now last, action = .event bytes ∧ decodeWhole s.params.disc bytes = .ok (.hk now) ∧
        s.env.lastNow = some last ∧ (s.params.num.ofBits now).lt last = true
    | .backgroundBusy =>
      s.blk.hk.outbox ≠ none ∧
        ((∃ chunk, action = .submit chunk) ∨
          ∃ bytes i, action = .event bytes ∧ decodeWhole s.params.disc bytes = .ok i ∧ i.periodic = false)
    | .noSendInProgress => s.blk.hk.outbox = none ∧ ∃ answer, action = .attempt answer
    | _ => False

/-! ## Numbers -/

/-- `x` is the binary32 value nearest to `± n / d` units of 2^-149, the even one of two equally near; infinite from the
middle between the largest finite magnitude and the next power of two on (00_scope.md R10). -/
def Nearest (neg : Bool) (n d : Nat) (x : Quantity) : Prop :=
  (∃ m : Mag, x = .fin neg m ∧
      ∀ m' : Nat, m' ≠ m.val →
        (((magValue m.val * d : Nat) : Int) - n).natAbs < (((magValue m' * d : Nat) : Int) - n).natAbs ∨
          ((((magValue m.val * d : Nat) : Int) - n).natAbs = (((magValue m' * d : Nat) : Int) - n).natAbs ∧
            m.val % 2 = 0)) ∨
    (x = .inf neg ∧ d * (magValue 2139095039 + magValue 2139095040) ≤ 2 * n)

/-! ## What an operation leaves -/

/-- `t` is what a config leaves of `s` (40_mode_controller.md R79, R80, R82): the record and the triple given, the write
position anywhere in the ring, every other part as named or as before. -/
def Configured (s t : State) (reg : Regulator) (regs : PwmRegs) (running : Bool) : Prop :=
  ∃ pos, pos < s.params.ringCap ∧
    t =
      { params := s.params
        blk :=
          { reg := reg
            running := running
            cap := { buf := s.blk.cap.buf, cursor := s.blk.cap.cursor, armed := false, full := s.blk.cap.full }
            agg := s.blk.agg
            tickPending := false
            hk := s.blk.hk }
        hw :=
          { pwmPsc := regs.psc
            pwmArr := regs.arr
            pwmCcr := regs.ccr
            pwmRun := true
            pwmOe := running
            ctrlRun := true
            ctrlCnt := s.hw.ctrlCnt
            adcRun := true
            dmaPos := pos
            adcSmpr := s.params.smprDefault }
        ring := s.ring
        env := { s.env with outcome := .ok, draws := s.env.draws + 1 } }

/-- The mode an event leads to from a mode (40_mode_controller.md R79). -/
def modeAfter (i : Instr) (m : Mode) : Mode :=
  match i with
  | .cfgPwm _ _ _ => .pwmPassthrough
  | .cfgHyst _ _ _ _ _ => .simpleHysteretic
  | .cfgPid _ _ _ _ _ _ _ _ => .pid
  | .cfgCot _ _ _ _ _ _ _ _ _ _ _ => .constantOnTime
  | .cmdArm => m
  | .tick => m
  | .hk _ => m

/-- `c'` is the capture `c` after the tick's log of `rec` (41_control_tick.md R89, R95): untouched unless armed and not
full; `full` where the record does not fit; else the record at the cursor and every other byte as before. -/
def Logged (capacity : Nat) (c : Capture) (rec : List Byte) (c' : Capture) : Prop :=
  if c.armed = true ∧ c.full = false then
    if capacity < c.cursor + rec.length then c' = { c with full := true }
    else
      c'.cursor = c.cursor + rec.length ∧ c'.armed = true ∧ c'.full = false ∧ c'.buf.wf = true ∧
        (∀ k, (h : k < rec.length) → c'.buf.read (c.cursor + k) = rec[k]) ∧
        ∀ a, a < c.cursor ∨ c.cursor + rec.length ≤ a → c'.buf.read a = c.buf.read a
  else c' = c

/-- `t` is what a TICK leaves of `s`: the record, the registers and the outcome given, the capture logged, every other
part as before (41_control_tick.md R88, R89). -/
def Ticked (s t : State) (reg : Regulator) (hw : Hw) (outcome : OpOutcome) (rec : List Byte) : Prop :=
  Logged s.params.capCapacity s.blk.cap rec t.blk.cap ∧
    t =
      { s with
        blk := { s.blk with reg := reg, cap := t.blk.cap, tickPending := false }
        hw := hw
        env := { s.env with outcome := outcome } }

end Sys2Proof.Machine
end

