-- ==== Sys2Proof/Certificates/Slice0/Obligations.lean ====
section
/-! DEFINITION. The statements about the machine. Each docstring names the rule or section it formalises; where a clause
is the model's own choice it names the log entry. -/

open Sys2Proof Sys2Proof.Machine

/-! ## Encoding (30_encoding.md) -/

/-- Every event is read back from its bytes whole, with every operand at every value, whatever follows it; and every
message from its discriminant and payload; for every discriminant table. The two-byte layout of the event code is the
model's (log 3). -/
def Obligations.DecodingInvertsEncoding : Prop :=
  ∀ (t : DiscTable) (i : Instr), t.wf = true → i.wf = true →
    decodeWhole t (encode t i) = .ok i ∧
      (∀ rest, decodeEvent t (encode t i ++ rest) = .ok (i, rest)) ∧
      (kindByte i = 0 → ∀ rest, decodeMessage t (discByte t i) (operandBytes i ++ rest) = .ok (i, rest))

/-- Only the encoding of an event decodes to it: each event has one byte form (R58 to R67, R70; layout: log 3). -/
def Obligations.EncodingInvertsDecoding : Prop :=
  ∀ (t : DiscTable) (bytes rest : List Byte) (i : Instr), decodeEvent t bytes = .ok (i, rest) →
    bytes = encode t i ++ rest

/-- The bytes of all five messages of 95_test_vectors.md 2.1, with the kind byte of the event code put after the
discriminant (log 3), stand for the events they are listed for; TICK and HK from their codes in R58. -/
def Obligations.SpecWordsDecode : Prop :=
  decodeWhole .default [0x01, 0x00, 0x00, 0x50, 0xC3, 0x47, 0x00, 0x00, 0x00, 0x3F, 0x01] =
      .ok (.cfgPwm 0x47C35000 0x3F000000 0x01) ∧
    decodeWhole .default
        [0x02, 0x00, 0x00, 0x00, 0x7A, 0x44, 0x00, 0x00, 0xFA, 0x44, 0x00, 0x00, 0x00, 0x3E, 0x28, 0x23, 0x01] =
      .ok (.cfgHyst 0x447A0000 0x44FA0000 0x3E000000 9000 0x01) ∧
    decodeWhole .default
        ([0x03, 0x00, 0x00, 0x00, 0x7A, 0x44, 0x00, 0x00, 0xFA, 0x44, 0x00, 0x00, 0x80, 0x3A, 0x00, 0x00] ++
          [0x80, 0x38, 0x00, 0x00, 0x00, 0x39, 0x00, 0x00, 0x80, 0x43, 0x00, 0x00, 0x40, 0x3F, 0x01]) =
      .ok (.cfgPid 0x447A0000 0x44FA0000 0x3A800000 0x38800000 0x39000000 0x43800000 0x3F400000 0x01) ∧
    decodeWhole .default
        ([0x04, 0x00, 0x00, 0x00, 0x40, 0x41, 0x00, 0x00, 0x80, 0x38, 0x00, 0x00, 0x80, 0x3F, 0x00, 0x00, 0xC0] ++
          [0x3F, 0x00, 0x00, 0x00, 0x3F, 0x00, 0x00, 0x80, 0x3D, 0x00, 0x00, 0x80, 0x40, 0x00, 0x00, 0x80, 0x3D] ++
          [0x00, 0x00, 0x00, 0x39, 0x00, 0x00, 0xC0, 0x39, 0x01]) =
      .ok
        (.cfgCot 0x41400000 0x38800000 0x3F800000 0x3FC00000 0x3F000000 0x3D800000 0x40800000 0x3D800000 0x39000000
          0x39C00000 0x01) ∧
    decodeWhole .default [0x05, 0x00] = .ok .cmdArm ∧
    decodeWhole .default [0x00, 0x01] = .ok .tick ∧
    decodeWhole .default [0x00, 0x02, 0x00, 0x00, 0x80, 0x3F] = .ok (.hk 0x3F800000)

/-- An event code that stands for no event is refused by name at the event port: a kind that is none of the three (kind 3
of R70; the upper six bits of the kind byte are the layout's, log 3), a TICK or HK with a nonzero discriminant byte
(R70), and a kind 0 whose discriminant is no inbound one (log 17: R70 names the refusal of the message port only). -/
def Obligations.ReservedCodesRefused : Prop :=
  ∀ (s : State) (disc kind : Byte) (tail : List Byte) (elapsed : Bool) (rest : List Input),
    s.params.wf = true → s.blk.tickPending = false →
    s.env.inputs = ⟨.event (disc :: kind :: tail), elapsed⟩ :: rest →
    (3 ≤ kind.toNat → step s = .refused (.undecodable (.reservedKind kind))) ∧
      ((kind = 1 ∨ kind = 2) → disc ≠ 0 → step s = .refused (.undecodable (.nonzeroDisc kind disc))) ∧
      (kind = 0 → disc ∉ s.params.disc.inbound →
        step s = .refused (.undecodable (.unrecognizedDiscriminant disc)))

/-- A pattern of 32 bits and a binary32 value stand for each other; the NaN patterns, and only they, are one value
(R62; the one NaN is log 1); and with `NUM` = binary32 a field is the value of its pattern. -/
def Obligations.PatternsAndValuesAgree : Prop :=
  (∀ b : Word, (Quantity.ofBits b).isNaN = true ↔ 0x7F800000 < b.toNat % 2 ^ 31) ∧
    (∀ b : Word, (Quantity.ofBits b).isNaN = false → (Quantity.ofBits b).toBits = b) ∧
    (∀ x : Quantity, NumDomain.binary32.has x = true → Quantity.ofBits x.toBits = x) ∧
    ∀ b : Word, NumDomain.binary32.ofBits b = Quantity.ofBits b

/-- The bytes of a capture record (41_control_tick.md R94): the rounded and saturated channel 0 average, then the
compare value, each with its low byte first. -/
def Obligations.RecordLayout : Prop :=
  ∀ (a0 : Quantity) (ccr : Nat),
    let adc := (min (max (roundI a0) 0) 65535).toNat
    record2 a0 = [BitVec.ofNat 8 adc, BitVec.ofNat 8 (adc / 2 ^ 8)] ∧
      record6 a0 ccr =
        [BitVec.ofNat 8 adc, BitVec.ofNat 8 (adc / 2 ^ 8), BitVec.ofNat 8 ccr, BitVec.ofNat 8 (ccr / 2 ^ 8),
          BitVec.ofNat 8 (ccr / 2 ^ 16), BitVec.ofNat 8 (ccr / 2 ^ 24)]

/-! ## Power-on (70_reset_and_hazards.md) -/

/-- The power-on table of R130, whatever the unspecified values are; and the default registers at the parameters of the
test vectors. -/
def Obligations.PowerOnState : Prop :=
  (∀ (p : Params) (ring : Memory 16) (buf agg : Memory 8) (dmaPos ctrlCnt : Nat),
    let s := State.powerOn p ring buf agg dmaPos ctrlCnt
    s.mode = .idle ∧ s.hw.pwmPsc = (idleRegs p).psc ∧ s.hw.pwmArr = (idleRegs p).arr ∧
      s.hw.pwmCcr = (idleRegs p).ccr ∧ s.hw.pwmRun = false ∧ s.hw.pwmOe = false ∧ s.hw.ctrlRun = false ∧
      s.hw.adcRun = false ∧ s.hw.adcSmpr = p.smprDefault ∧ s.blk.cap.cursor = 0 ∧ s.blk.cap.armed = false ∧
      s.blk.cap.full = false ∧ s.blk.agg.length = 0 ∧ s.blk.tickPending = false ∧
      s.blk.hk.lastTelemetry = none ∧ s.blk.hk.outbox = none) ∧
    (State.reset.hw.pwmPsc, State.reset.hw.pwmArr, State.reset.hw.pwmCcr) = (1, 36000, 360)

/-- The state after reset meets the invariant of a run. -/
def Obligations.ResetMeetsInvariant : Prop := RunInvariant State.reset

/-! ## Config and command operations (40_mode_controller.md) -/

/-- CFG_PWM (R79, R83) completes, and what it leaves. -/
def Obligations.CfgPwmInstallsPassthrough : Prop :=
  ∀ (s : State) (freq duty : Word) (running : Byte),
    s.params.wf = true → s.blk.hk.outbox = none →
    ∃ t, exec (.cfgPwm freq duty running) s = .next t ∧
      Configured s t (.pwm { freq := s.params.num.ofBits freq, duty := s.params.num.ofBits duty })
        ((freqCalc s.params (s.params.num.ofBits freq) (s.params.num.ofBits duty)).getD (idleRegs s.params)) (decide (running ≠ 0))

/-- CFG_HYST (R79, R84) completes, and what it leaves. -/
def Obligations.CfgHystInstallsHysteretic : Prop :=
  ∀ (s : State) (freq target step : Word) (maxCompare : Half) (running : Byte),
    s.params.wf = true → s.blk.hk.outbox = none →
    ∃ t, exec (.cfgHyst freq target step maxCompare running) s = .next t ∧
      Configured s t
        (.hyst
          { freq := s.params.num.ofBits freq
            target := s.params.num.ofBits target
            step := s.params.num.ofBits step
            maxCompare := maxCompare
            duty := s.params.num.num 0 })
        ((freqCalc s.params (s.params.num.ofBits freq) (s.params.num.num 0)).getD (idleRegs s.params)) (decide (running ≠ 0))

/-- CFG_PID (R79, R85) completes, and what it leaves. -/
def Obligations.CfgPidInstallsPid : Prop :=
  ∀ (s : State) (freq target kP kI kD maxIntegral maxDuty : Word) (running : Byte),
    s.params.wf = true → s.blk.hk.outbox = none →
    ∃ t, exec (.cfgPid freq target kP kI kD maxIntegral maxDuty running) s = .next t ∧
      Configured s t
        (.pid
          { freq := s.params.num.ofBits freq
            target := s.params.num.ofBits target
            kP := s.params.num.ofBits kP
            kI := s.params.num.ofBits kI
            kD := s.params.num.ofBits kD
            maxIntegral := s.params.num.ofBits maxIntegral
            maxDuty := s.params.num.ofBits maxDuty
            integral := s.params.num.num 0
            prevError := s.params.num.num 0
            duty := s.params.num.num 0 })
        ((freqCalc s.params (s.params.num.ofBits freq) (s.params.num.num 0)).getD (idleRegs s.params)) (decide (running ≠ 0))

/-- CFG_COT (R79, R86) completes, and what it leaves: no PWM register is written beyond the idle default. -/
def Obligations.CfgCotInstallsConstantOnTime : Prop :=
  ∀ (s : State) (target l iPeak startupFactor kP kI maxIntegral minCurrent csPeriod averageAge : Word)
    (running : Byte),
    s.params.wf = true → s.blk.hk.outbox = none →
    ∃ t,
      exec (.cfgCot target l iPeak startupFactor kP kI maxIntegral minCurrent csPeriod averageAge running) s = .next t ∧
      Configured s t
        (.cot
          { target := s.params.num.ofBits target
            l := s.params.num.ofBits l
            iPeak := s.params.num.ofBits iPeak
            startupFactor := s.params.num.ofBits startupFactor
            kP := s.params.num.ofBits kP
            kI := s.params.num.ofBits kI
            maxIntegral := s.params.num.ofBits maxIntegral
            minCurrent := s.params.num.ofBits minCurrent
            csPeriod := s.params.num.ofBits csPeriod
            averageAge := s.params.num.ofBits averageAge
            sub := .cot
            integral := s.params.num.num 0
            belowCount := 0
            pwmOnTicks := 0
            cycleEnable := true
            ema :=
              { init := false
                avg := s.params.num.num 0
                var := s.params.num.num 0
                alpha := s.params.ctrlPeriodS.div ((s.params.num.ofBits averageAge).add s.params.ctrlPeriodS) } })
        (idleRegs s.params) (decide (running ≠ 0))

/-- The idle default (R81): what FREQCALC gives, the slowest timer where it gives nothing, which at a positive idle
frequency is only where the clock is too large for the timer; 1, 36000, 360 at the parameters of the test vectors. A
rounded fallback compare value that does not fit its register is a free value (log 23). -/
def Obligations.IdleRegisters : Prop :=
  (∀ p : Params,
    (∀ r, freqCalc p p.idleFreqHz p.idleDuty = some r → idleRegs p = r) ∧
      (freqCalc p p.idleFreqHz p.idleDuty = none →
        (idleRegs p).psc = p.tmax ∧ (idleRegs p).arr = p.tmax ∧
          (let c := roundI ((p.num.num p.tmax).mul p.idleDuty)
           0 ≤ c → c ≤ p.tmax → ((idleRegs p).ccr : Int) = c)) ∧
      (p.wf = true → p.idleFreqHz.finite = true → (p.num.num 0).lt p.idleFreqHz = true → p.idleDuty.isNaN = false →
        (freqCalc p p.idleFreqHz p.idleDuty = none ↔
          ((p.num.num p.clockHz).div ((p.num.num (2 ^ p.timerBits)).mul p.idleFreqHz)).le (p.num.num (p.tmax + 1)) =
            false))) ∧
    freqCalc Params.default Params.default.idleFreqHz Params.default.idleDuty = some ⟨1, 36000, 360⟩

/-- CMD_ARM (R87) completes in every mode; it writes the cursor and two flags and nothing else of the block. -/
def Obligations.CmdArmArmsTheCapture : Prop :=
  ∀ s : State, s.blk.hk.outbox = none →
    exec .cmdArm s =
      .next
        { s with
          blk := { s.blk with cap := { buf := s.blk.cap.buf, cursor := 0, armed := true, full := false } }
          env := { s.env with outcome := .ok } }

/-- R79: a config message leads to its mode from every mode; the arm command, TICK and HK never change the mode. -/
def Obligations.ModeTransitionTable : Prop :=
  ∀ (s t : State) (i : Instr), exec i s = .next t → t.mode = modeAfter i s.mode

/-- R79: "no event leads to `Idle`". -/
def Obligations.NoStepLeadsToIdle : Prop :=
  ∀ s t : State, step s = .next t → t.mode = .idle → s.mode = .idle

/-! ## The tick (41_control_tick.md) -/

/-- R88, R118: TICK is refused while the control timer is stopped. While it runs, TICK completes in every mode, writes
no part of the block but the record, the capture and the pending bit, and no register but the PWM triple and the output
enable; in Idle it does nothing. -/
def Obligations.TickCompletes : Prop :=
  ∀ s : State,
    (s.hw.ctrlRun = false → exec .tick s = .refused .tickWhileStopped) ∧
      (s.hw.ctrlRun = true →
        ∃ t, exec .tick s = .next t ∧
          t =
            { s with
              blk := { s.blk with reg := t.blk.reg, cap := t.blk.cap, tickPending := false }
              hw :=
                { s.hw with
                  pwmPsc := t.hw.pwmPsc
                  pwmArr := t.hw.pwmArr
                  pwmCcr := t.hw.pwmCcr
                  pwmOe := t.hw.pwmOe }
              env := { s.env with outcome := t.env.outcome } } ∧
          t.mode = s.mode ∧ t.blk.cap.armed = s.blk.cap.armed ∧
          (t.env.outcome = .ok ∨ t.env.outcome = .tickNoop) ∧
          (s.mode = .idle → t = { s with blk := { s.blk with tickPending := false }, env := { s.env with outcome := .ok } }))

/-- APPEND (R95): a record that does not fit sets `full` and is dropped; one that fits is stored at the cursor, which
moves past it. -/
def Obligations.AppendStoresOrSetsFull : Prop :=
  ∀ (s : State) (rec : List Byte), s.blk.cap.buf.wf = true → s.blk.cap.armed = true → s.blk.cap.full = false →
    ∃ t, appendRecord rec s = .next t ∧
      t = { s with blk := { s.blk with cap := t.blk.cap } } ∧
      (s.params.capCapacity < s.blk.cap.cursor + rec.length → t.blk.cap = { s.blk.cap with full := true }) ∧
      (s.blk.cap.cursor + rec.length ≤ s.params.capCapacity →
        t.blk.cap.cursor = s.blk.cap.cursor + rec.length ∧ t.blk.cap.full = false ∧ t.blk.cap.armed = true ∧
          (∀ k, (h : k < rec.length) → t.blk.cap.buf.read (s.blk.cap.cursor + k) = rec[k]) ∧
          ∀ a, a < s.blk.cap.cursor ∨ s.blk.cap.cursor + rec.length ≤ a → t.blk.cap.buf.read a = s.blk.cap.buf.read a)

/-- TICK in PWMPassthrough (R96): only the log, of the 2-byte record; registers and record stay. -/
def Obligations.PassthroughTickOnlyLogs : Prop :=
  ∀ (s : State) (r : PwmRec), s.blk.reg = .pwm r → s.hw.ctrlRun = true → s.blk.cap.buf.wf = true →
    ∃ t, exec .tick s = .next t ∧ Ticked s t (.pwm r) s.hw .ok (record2 (feedback s).a0)

/-- `DUTYCCR` (R93): the rounded product, between 0 and the reload, for every reload that `num` holds exactly: with
`NUM` = rationals every one, with binary32 those below 2^24. -/
def Obligations.DutyCompareValue : Prop :=
  ∀ (dom : NumDomain) (arr : Nat) (d : Quantity), dom = .rational ∨ arr < 2 ^ 24 → Within (dom.num 0) d (dom.num 1) →
    dutyCcr dom arr d = roundI ((dom.num arr).mul d) ∧ 0 ≤ dutyCcr dom arr d ∧ dutyCcr dom arr d ≤ arr

/-- FREQCALC (R92) answers exactly on its domain; the prescaler is the least whose timer reaches the frequency, then the
reload and the compare are rounded, in that order; all three are register values, and the compare value is within the
reload where `num` of a reload is exact. A rounded compare value that does not fit its register is a free value
(log 23). -/
def Obligations.FreqCalcResult : Prop :=
  ∀ (p : Params) (f d : Quantity), p.num.has f = true →
    let q := (p.num.num p.clockHz).div ((p.num.num (2 ^ p.timerBits)).mul f)
    (freqCalc p f d = none ↔
      ¬(f.finite = true ∧ (p.num.num 0).lt f = true ∧ d.isNaN = false ∧ q.finite = true ∧
          q.le (p.num.num (p.tmax + 1)) = true)) ∧
      ∀ r, freqCalc p f d = some r →
        q.le (p.num.num (r.psc + 1)) = true ∧ (∀ k, k < r.psc → q.le (p.num.num (k + 1)) = false) ∧
          r.psc ≤ p.tmax ∧
          r.arr = min (roundI ((p.num.num p.clockHz).div ((p.num.num (r.psc + 1)).mul f))).toNat p.tmax ∧
          (let c := roundI ((p.num.num r.arr).mul (clamp d (p.num.num 0) (p.num.num 1)))
           0 ≤ c → c ≤ p.tmax → (r.ccr : Int) = c) ∧
          r.ccr ≤ p.tmax ∧
          (ExactTimer p → (r.ccr : Int) = roundI ((p.num.num r.arr).mul (clamp d (p.num.num 0) (p.num.num 1))) ∧ r.ccr ≤ r.arr)

/-- `Feedback()` (R90): exact sums of the window's samples from the frame before the one being written, channel by
channel, divided by the window and scaled. -/
def Obligations.FeedbackIsTheWindowAverage : Prop :=
  ∀ s : State,
    let base : Int := ((s.hw.dmaPos - s.hw.dmaPos % s.params.channels : Nat) : Int)
    let sample (c k : Nat) : Nat :=
      (s.ring.read ((base - (k : Int) * (s.params.channels : Int) + (c : Int)) % (s.params.ringCap : Int)).toNat).toNat
    let avg (c : Nat) : Quantity :=
      (s.params.num.num (((List.range s.params.window).map fun k => sample c (k + 1)).sum)).div (s.params.num.num s.params.window)
    feedback s =
      { vout := (avg 0).mul (scale s 0)
        vin := (avg 1).mul (scale s 1)
        a0 := avg 0 }

/-- "so `0 ≤ a0 ≤ 65535`" (R90), at windows of at most 256 samples, where the sum is an exact `NUM`. -/
def Obligations.AverageIsASampleValue : Prop :=
  ∀ s : State, 0 < s.params.window → (s.params.num = .rational ∨ s.params.window ≤ 256) →
    Within (s.params.num.num 0) (feedback s).a0 (s.params.num.num 65535)

/-- "so `0 ≤ a0 ≤ 65535`" (R90) at every model instance, taken literally. -/
def Obligations.AverageIsASampleValueAtEveryWindow : Prop :=
  ∀ s : State, s.params.wf = true → Within (s.params.num.num 0) (feedback s).a0 (s.params.num.num 65535)

/-- The feedback depends on the parameters, the write position and the samples of channels 0 and 1 in the window, and on
nothing else (R90). -/
def Obligations.FeedbackSeesOnlyTheWindow : Prop :=
  ∀ s t : State, s.params = t.params → s.hw.dmaPos = t.hw.dmaPos →
    (∀ k c, 1 ≤ k → k ≤ s.params.window → c < 2 →
      ringRead s ((frameBase s : Int) - (k : Int) * (s.params.channels : Int) + (c : Int)) =
        ringRead t ((frameBase t : Int) - (k : Int) * (t.params.channels : Int) + (c : Int))) →
    feedback s = feedback t

/-! ## Hysteretic (42_hysteretic.md) -/

/-- TICK in SimpleHysteretic (R97), step by step; where a bound value is not finite it is a no-op, and logs. A compare
value that does not fit its register, which needs a timer of 128 bits or more, is a free value (log 23). -/
def Obligations.HystereticTickResult : Prop :=
  ∀ (s : State) (r : HystRec), s.blk.reg = .hyst r → s.hw.ctrlRun = true → s.blk.cap.buf.wf = true →
    let dom := s.params.num
    let vout := (feedback s).vout
    let d1 := if vout.lt r.target then r.duty.add r.step else if r.target.lt vout then r.duty.sub r.step else r.duty
    let d2 := clamp d1 (dom.num 0) (dom.num 1)
    let c := roundI ((dom.num s.hw.pwmArr).mul d2)
    let d3 := if (r.maxCompare.toNat : Int) < c then (dom.num r.maxCompare.toNat).div (dom.num s.hw.pwmArr) else d2
    let c' := min c r.maxCompare.toNat
    ∃ t ccr, exec .tick s = .next t ∧ ccr ≤ s.params.tmax ∧ (0 ≤ c' → c' ≤ s.params.tmax → (ccr : Int) = c') ∧
      (d1.finite = true ∧ d3.finite = true →
        Ticked s t (.hyst { r with duty := d3 }) { s.hw with pwmCcr := ccr } .ok (record6 (feedback s).a0 ccr)) ∧
      (¬(d1.finite = true ∧ d3.finite = true) →
        Ticked s t (.hyst r) s.hw .tickNoop (record6 (feedback s).a0 s.hw.pwmCcr))

/-- The invariants of R97 after every committed tick: the duty is a duty, the compare value is within the reload and the
configured maximum, and where that maximum bound, the duty is the rescaled one, which gives the maximum back. -/
def Obligations.HystereticTickKeepsBounds : Prop :=
  ∀ (s t : State) (r r' : HystRec),
    let dom := s.params.num
    RegsInRange s → (dom.num s.hw.pwmArr).finite = true → s.blk.reg = .hyst r →
    exec .tick s = .next t → t.blk.reg = .hyst r' → t.env.outcome = .ok →
    Within (dom.num 0) r'.duty (dom.num 1) ∧ t.hw.pwmCcr ≤ min s.hw.pwmArr r.maxCompare.toNat ∧
      (r'.duty ≠ clamp (hystStep r (feedback s).vout) (dom.num 0) (dom.num 1) →
        r'.duty = (dom.num r.maxCompare.toNat).div (dom.num s.hw.pwmArr) ∧ t.hw.pwmCcr = r.maxCompare.toNat ∧
          (s.hw.pwmArr ≤ 65535 → dutyCcr dom s.hw.pwmArr r'.duty = r.maxCompare.toNat))

/-- R98(b) taken literally: with a nonnegative finite step the duty never falls on a tick below the target. -/
def Obligations.HystereticDutyMonotoneLiterally : Prop :=
  ∀ (s t : State) (r r' : HystRec), s.params.wf = true → RegsInRange s → RecordInRange s →
    s.blk.reg = .hyst r → r.step.finite = true → (s.params.num.num 0).le r.step = true →
    (feedback s).vout.lt r.target = true → exec .tick s = .next t → t.blk.reg = .hyst r' → r.duty.le r'.duty = true

/-- R98(b): the duty never rises on a tick above the target, and never falls on one below it where the maximum compare
value cannot bind (where it can, it may: HystereticDutyMonotoneLiterally). -/
def Obligations.HystereticDutyMonotone : Prop :=
  ∀ (s t : State) (r r' : HystRec), NumbersInDomain s → RecordInRange s → s.blk.reg = .hyst r →
    r.step.finite = true → (s.params.num.num 0).le r.step = true → exec .tick s = .next t → t.blk.reg = .hyst r' →
    (r.target.lt (feedback s).vout = true → r'.duty.le r.duty = true) ∧
      (s.hw.pwmArr ≤ r.maxCompare.toNat → (feedback s).vout.lt r.target = true → r.duty.le r'.duty = true)

/-! ## PID (43_pid.md) -/

/-- TICK in PID (R99), step by step; where a bound value is not finite it is a no-op, and logs. A compare value that does
not fit its register, which needs a timer of more than 24 bits, is a free value (log 23). -/
def Obligations.PidTickResult : Prop :=
  ∀ (s : State) (r : PidRec), s.blk.reg = .pid r → s.hw.ctrlRun = true → s.blk.cap.buf.wf = true →
    let dom := s.params.num
    let e := r.target.sub (feedback s).vout
    let i1 := clamp (r.integral.add e) r.maxIntegral.neg r.maxIntegral
    let df := e.sub r.prevError
    let u := ((e.mul r.kP).add (i1.mul r.kI)).add (df.mul r.kD)
    let hi := clamp r.maxDuty (dom.num 0) (dom.num 1)
    let d := clamp u (dom.num 0) hi
    let c := roundI ((dom.num s.hw.pwmArr).mul d)
    let ok := e.finite = true ∧ i1.finite = true ∧ df.finite = true ∧ u.finite = true ∧ hi.finite = true ∧ d.finite = true
    ∃ t ccr, exec .tick s = .next t ∧ ccr ≤ s.params.tmax ∧ (0 ≤ c → c ≤ s.params.tmax → (ccr : Int) = c) ∧
      (ok →
        Ticked s t (.pid { r with integral := i1, prevError := e, duty := d }) { s.hw with pwmCcr := ccr } .ok
          (record6 (feedback s).a0 ccr)) ∧
      (¬ok → Ticked s t (.pid r) s.hw .tickNoop (record6 (feedback s).a0 s.hw.pwmCcr))

/-- R100, R102: after a committed tick the integral is in its bound when the bound is not negative, the duty is between
0 and the output bound, and the compare register agrees with the stored duty (where `num` of a reload is exact); a no-op
leaves them all. -/
def Obligations.PidTickKeepsBounds : Prop :=
  ∀ (s t : State) (r r' : PidRec),
    let dom := s.params.num
    RegsInRange s → s.blk.reg = .pid r →
    exec .tick s = .next t → t.blk.reg = .pid r' →
    (t.env.outcome = .ok →
      ((dom.num 0).le r.maxIntegral = true → Within r.maxIntegral.neg r'.integral r.maxIntegral) ∧
        Within (dom.num 0) r'.duty (clamp r.maxDuty (dom.num 0) (dom.num 1)) ∧ t.hw.pwmCcr ≤ s.params.tmax ∧
        (ExactTimer s.params →
          (t.hw.pwmCcr : Int) = roundI ((dom.num s.hw.pwmArr).mul r'.duty) ∧ t.hw.pwmCcr ≤ s.hw.pwmArr)) ∧
      (t.env.outcome = .tickNoop → r' = r ∧ t.hw = s.hw)

/-- R101: with feedback equal to the target (an error of +0 or −0), the second tick reaches a record and registers that a
third keeps. -/
def Obligations.PidZeroErrorFixedPoint : Prop :=
  ∀ (s : State) (r : PidRec), s.blk.reg = .pid r → s.hw.ctrlRun = true →
    (r.target.sub (feedback s).vout).le (s.params.num.num 0) = true →
    (s.params.num.num 0).le (r.target.sub (feedback s).vout) = true →
    ∃ t1 t2 t3, exec .tick s = .next t1 ∧ exec .tick t1 = .next t2 ∧ exec .tick t2 = .next t3 ∧
      t3.blk.reg = t2.blk.reg ∧ t3.hw = t2.hw

/-! ## Constant on-time (44_cot.md) -/

/-- TICK in the COT sub-state (R105, R106): the switch to Cycle-Skipping at the `SKIP_TICKS`-th tick below the threshold,
with the output off and no value register written; else the derived frequency and duty. -/
def Obligations.CotTickResult : Prop :=
  ∀ (s : State) (r : CotRec), s.blk.reg = .cot r → r.sub = .cot → s.hw.ctrlRun = true → s.blk.cap.buf.wf = true →
    let dom := s.params.num
    let vout := (feedback s).vout
    let vin := (feedback s).vin
    let a0 := (feedback s).a0
    let e := r.target.sub vout
    let m := emaAdd dom r.ema vout
    let i1 := clamp (r.integral.add (r.kI.mul e)) r.maxIntegral.neg r.maxIntegral
    let current := (r.kP.mul e).add i1
    let b1 := if current.lt r.minCurrent then r.belowCount + 1 else 0
    let li := r.l.mul r.iPeak
    let tOn := li.div vin
    let vhi := vout.max (vin.mul r.startupFactor)
    let tFall := li.div (vhi.sub vin)
    let ieff := current.max r.minCurrent
    let f0 := ((dom.num 2).mul ieff).div (r.iPeak.mul tFall)
    let fMax := (dom.num 1).div (tOn.add tFall)
    let f := f0.min fMax
    let dty := tOn.mul f
    let ok1 := e.finite = true ∧ i1.finite = true ∧ current.finite = true ∧ m.avg.finite = true ∧ m.var.finite = true
    let ok2 := li.finite = true ∧ tOn.finite = true ∧ vhi.finite = true ∧ tFall.finite = true ∧ ieff.finite = true ∧
      f0.finite = true ∧ fMax.finite = true ∧ f.finite = true ∧ dty.finite = true
    ∃ t, exec .tick s = .next t ∧
      (s.params.skipTicks ≤ b1 → ok1 →
        Ticked s t
          (.cot { r with sub := .cs, integral := i1, belowCount := 0, pwmOnTicks := 0, cycleEnable := false, ema := m })
          { s.hw with pwmOe := false } .ok (record6 a0 s.hw.pwmCcr)) ∧
      (∀ g, b1 < s.params.skipTicks → ok1 ∧ ok2 → freqCalc s.params f dty = some g →
        Ticked s t (.cot { r with integral := i1, belowCount := b1, cycleEnable := true, ema := m })
          { s.hw with pwmPsc := g.psc, pwmArr := g.arr, pwmCcr := g.ccr, pwmOe := s.blk.running } .ok
          (record6 a0 g.ccr)) ∧
      (¬ok1 ∨ (b1 < s.params.skipTicks ∧ (¬ok2 ∨ freqCalc s.params f dty = none)) →
        Ticked s t (.cot r) s.hw .tickNoop (record6 a0 s.hw.pwmCcr))

/-- TICK in the Cycle-Skipping sub-state (R105, R107): bang-bang enable, the fixed period's registers, and the return to
COT with the integral reinitialized, tested against the variance before this tick's sample. -/
def Obligations.CycleSkippingTickResult : Prop :=
  ∀ (s : State) (r : CotRec), s.blk.reg = .cot r → r.sub = .cs → s.hw.ctrlRun = true → s.blk.cap.buf.wf = true →
    let dom := s.params.num
    let vout := (feedback s).vout
    let vin := (feedback s).vin
    let a0 := (feedback s).a0
    let e := r.target.sub vout
    let m := emaAdd dom r.ema vout
    let en := vout.lt r.target
    let p1 := if en then min (r.pwmOnTicks + 1) (2 ^ 32 - 1) else r.pwmOnTicks
    let li := r.l.mul r.iPeak
    let tOn := li.div vin
    let fcs := (dom.num 1).div r.csPeriod
    let dcs := tOn.div r.csPeriod
    let ee := e.mul e
    let thr := s.params.csVarFactor.mul r.ema.var
    let ret := s.params.csMinOn ≤ p1 ∧ thr.lt ee = true
    let vhi := vout.max (vin.mul r.startupFactor)
    let tFall := li.div (vhi.sub vin)
    let i0 := (r.iPeak.mul tFall).div ((dom.num 2).mul r.csPeriod)
    let ok := e.finite = true ∧ li.finite = true ∧ tOn.finite = true ∧ fcs.finite = true ∧ dcs.finite = true ∧
      ee.finite = true ∧ thr.finite = true ∧ m.avg.finite = true ∧ m.var.finite = true ∧
      (¬ret ∨ (vhi.finite = true ∧ tFall.finite = true ∧ i0.finite = true))
    ∃ t, exec .tick s = .next t ∧
      (∀ g, ok → freqCalc s.params fcs dcs = some g →
        (ret →
          Ticked s t
            (.cot { r with sub := .cot, integral := i0, belowCount := 0, pwmOnTicks := p1, cycleEnable := en, ema := m })
            { s.hw with pwmPsc := g.psc, pwmArr := g.arr, pwmCcr := g.ccr, pwmOe := s.blk.running && en } .ok
            (record6 a0 g.ccr)) ∧
          (¬ret →
            Ticked s t (.cot { r with pwmOnTicks := p1, cycleEnable := en, ema := m })
              { s.hw with pwmPsc := g.psc, pwmArr := g.arr, pwmCcr := g.ccr, pwmOe := s.blk.running && en } .ok
              (record6 a0 g.ccr))) ∧
      (¬ok ∨ freqCalc s.params fcs dcs = none →
        Ticked s t (.cot r) s.hw .tickNoop (record6 a0 s.hw.pwmCcr))

/-- R104: the update of the moving statistic, and "`var ≥ 0` holds for `0 ≤ alpha ≤ 1`". -/
def Obligations.MovingStatistic : Prop :=
  ∀ (dom : NumDomain) (m : Ema) (x : Quantity),
    (m.init = false → emaAdd dom m x = { init := true, avg := x, var := dom.num 0, alpha := m.alpha }) ∧
      (m.init = true →
        emaAdd dom m x =
          { init := true
            avg := m.avg.add (m.alpha.mul (x.sub m.avg))
            var := ((dom.num 1).sub m.alpha).mul (m.var.add ((x.sub m.avg).mul (m.alpha.mul (x.sub m.avg))))
            alpha := m.alpha }) ∧
      (Within (dom.num 0) m.alpha (dom.num 1) → (dom.num 0).le m.var = true → (emaAdd dom m x).var.finite = true →
        (dom.num 0).le (emaAdd dom m x).var = true)

/-! ## Numbers (00_scope.md R10, R11) -/

/-- R10: rounding answers the binary32 value nearest to the exact quotient, the even one of two equally near, and infinity
from the middle above the largest finite magnitude on. -/
def Obligations.RoundingIsToNearestEven : Prop :=
  ∀ (neg : Bool) (n d : Nat), 0 < d → Nearest neg n d (Quantity.round neg n d)

/-- R10: `+ − × /` of finite values are the binary32 values nearest to the exact sum, difference, product and quotient
(infinite on overflow), with the signs of the standard (93_implementation_defined.md section 5): an exact zero sum is −0
only where both addends are, the sign of a product and a quotient is that of the operands together; and `num` of an
integer is the value nearest to it. -/
def Obligations.ArithmeticIsExactThenRounded : Prop :=
  (∀ (a b : Bool) (x y : Mag),
    (let sum := signedValue a x + signedValue b y
     (sum ≠ 0 → Nearest (decide (sum < 0)) sum.natAbs 1 ((Quantity.fin a x).add (.fin b y))) ∧
       (sum = 0 → (Quantity.fin a x).add (.fin b y) = .fin (a && b) ⟨0, by decide⟩)) ∧
      (let difference := signedValue a x - signedValue b y
       (difference ≠ 0 →
         Nearest (decide (difference < 0)) difference.natAbs 1 ((Quantity.fin a x).sub (.fin b y))) ∧
         (difference = 0 → (Quantity.fin a x).sub (.fin b y) = .fin (a && !b) ⟨0, by decide⟩)) ∧
      Nearest (a ^^ b) (magValue x * magValue y) unit ((Quantity.fin a x).mul (.fin b y)) ∧
      (y.val ≠ 0 → Nearest (a ^^ b) (magValue x * unit) (magValue y) ((Quantity.fin a x).div (.fin b y))) ∧
      (y.val = 0 → (Quantity.fin a x).div (.fin b y) = if x.val = 0 then .nan else .inf (a ^^ b))) ∧
    ∀ n : Nat, Nearest false (n * unit) 1 (NumDomain.binary32.num n)

/-- R10 and 93_implementation_defined.md section 5: what NaN and infinities give, and comparisons: false with NaN, by
value else, the two zeros equal. -/
def Obligations.SpecialValuesFollowTheStandard : Prop :=
  (∀ x : Quantity, Quantity.nan.add x = .nan ∧ x.add .nan = .nan ∧ Quantity.nan.sub x = .nan ∧ x.sub .nan = .nan ∧
      Quantity.nan.mul x = .nan ∧ x.mul .nan = .nan ∧ Quantity.nan.div x = .nan ∧ x.div .nan = .nan ∧
      Quantity.nan.lt x = false ∧ x.lt .nan = false ∧ Quantity.nan.le x = false ∧ x.le .nan = false) ∧
    (∀ a b : Bool,
      (Quantity.inf a).add (.inf b) = (if a = b then .inf a else .nan) ∧
        (Quantity.inf a).sub (.inf b) = (if a = b then .nan else .inf a) ∧
        (Quantity.inf a).mul (.inf b) = .inf (a ^^ b) ∧ (Quantity.inf a).div (.inf b) = .nan) ∧
    (∀ (a b : Bool) (x : Mag),
      (Quantity.inf a).add (.fin b x) = .inf a ∧ (Quantity.fin b x).add (.inf a) = .inf a ∧
        (Quantity.inf a).sub (.fin b x) = .inf a ∧ (Quantity.fin b x).sub (.inf a) = .inf (!a) ∧
        (Quantity.inf a).mul (.fin b x) = (if x.val = 0 then .nan else .inf (a ^^ b)) ∧
        (Quantity.fin b x).mul (.inf a) = (if x.val = 0 then .nan else .inf (a ^^ b)) ∧
        (Quantity.inf a).div (.fin b x) = .inf (a ^^ b) ∧ (Quantity.fin b x).div (.inf a) = .fin (a ^^ b) ⟨0, by decide⟩ ∧
        (Quantity.fin b x).lt (.inf a) = !a ∧ (Quantity.inf a).lt (.fin b x) = a) ∧
    ∀ (a b : Bool) (x y : Mag),
      ((Quantity.fin a x).lt (.fin b y) = true ↔ signedValue a x < signedValue b y) ∧
        ((Quantity.fin a x).le (.fin b y) = true ↔ signedValue a x ≤ signedValue b y)

/-- R11: `ceilI` is the least integer not below the value, `roundI` the nearest one, half away from zero. -/
def Obligations.IntegerRoundings : Prop :=
  ∀ (neg : Bool) (m : Mag),
    let x := Quantity.fin neg m
    let v : Int := signedValue neg m
    x.le (NumDomain.binary32.numInt (ceilI x)) = true ∧ (∀ n : Int, x.le (NumDomain.binary32.numInt n) = true → ceilI x ≤ n) ∧
      (2 * (v - roundI x * unit)).natAbs ≤ unit ∧
      ((2 * (v - roundI x * unit)).natAbs = unit → v.natAbs < (roundI x * unit).natAbs)

/-- Decision D1: `NUM` as exact rationals. No result is rounded, a field stands for the rational its pattern is, a quotient
by zero is a value that is not finite (which one: log 24), and `ceilI` and `roundI` are those of R11. -/
def Obligations.RationalArithmeticIsExact : Prop :=
  (∀ p q : ℚ,
    (Quantity.exact p).add (.exact q) = .exact (p + q) ∧ (Quantity.exact p).sub (.exact q) = .exact (p - q) ∧
      (Quantity.exact p).mul (.exact q) = .exact (p * q) ∧ (Quantity.exact p).neg = .exact (-p) ∧
      (q ≠ 0 → (Quantity.exact p).div (.exact q) = .exact (p / q)) ∧
      ((Quantity.exact p).div (.exact 0)).finite = false ∧
      ((Quantity.exact p).lt (.exact q) = true ↔ p < q) ∧ ((Quantity.exact p).le (.exact q) = true ↔ p ≤ q)) ∧
    (∀ n : Nat, NumDomain.rational.num n = .exact n) ∧
    (∀ b : Word,
      ((Quantity.ofBits b).finite = false → NumDomain.rational.ofBits b = Quantity.ofBits b) ∧
        ∀ neg m, Quantity.ofBits b = .fin neg m → NumDomain.rational.ofBits b = .exact ((signedValue neg m : ℚ) / unit)) ∧
    ∀ q : ℚ, q ≤ ceilI (.exact q) ∧ (∀ n : Int, q ≤ n → ceilI (.exact q) ≤ n) ∧ |q - roundI (.exact q)| ≤ 1 / 2 ∧
      (|q - roundI (.exact q)| = 1 / 2 → |q| < |(roundI (.exact q) : ℚ)|)

/-! ## Housekeeping (45_housekeeping.md) -/

/-- HK (R111, R112) with a full armed capture: the whole buffer becomes the message being sent, and nothing else of the
block changes. -/
def Obligations.HkStartsTheFlush : Prop :=
  ∀ (s : State) (now : Word), s.blk.hk.outbox = none →
    (∀ last, s.env.lastNow = some last → (s.params.num.ofBits now).lt last = false) →
    s.blk.cap.armed = true → s.blk.cap.full = true →
    exec (.hk now) s =
      .next
        { s with
          blk :=
            { s.blk with
              hk :=
                { s.blk.hk with
                outbox := some ⟨.blob, s.params.disc.captureBlob :: s.blk.cap.buf.readRange 0 s.params.capCapacity⟩ } }
          env := { s.env with outcome := .ok, lastNow := some (s.params.num.ofBits now) } }

/-- HK (R111, R113) without one: telemetry outside Idle when none was sent or the interval has passed, else nothing; and
an HK whose time is below the previous one's is refused in every case (60_exceptions.md R118). -/
def Obligations.HkSendsTelemetryWhenDue : Prop :=
  ∀ (s : State) (now : Word), s.blk.hk.outbox = none →
    let x := s.params.num.ofBits now
    let due := s.mode ≠ .idle ∧ ∀ last, s.blk.hk.lastTelemetry = some last →
      s.params.telemetryIntervalS.le (x.sub last) = true
    let t : State := { s with env := { s.env with outcome := .ok, lastNow := some x } }
    (∀ last, s.env.lastNow = some last → x.lt last = true → exec (.hk now) s = .refused .clockWentBack) ∧
      ((∀ last, s.env.lastNow = some last → x.lt last = false) → ¬(s.blk.cap.armed = true ∧ s.blk.cap.full = true) →
        (due →
          exec (.hk now) s =
            .next
              { t with
                blk :=
                  { s.blk with
                    hk :=
                      { lastTelemetry := some x
                        outbox := some ⟨.telemetry, s.params.disc.telemetry :: Config.telemetry s.blk s.hw⟩ } } }) ∧
          (¬due → exec (.hk now) s = .next t))

/-- One send attempt (R110): a busy answer changes nothing but the recorded outcome; an accepted telemetry message is
emitted once and the send is over. -/
def Obligations.SendAttemptAnswers : Prop :=
  ∀ (s : State) (o : Outbound), s.blk.hk.outbox = some o →
    sendAttempt .busy s = .next { s with env := { s.env with outcome := .hardwareBusy } } ∧
      (o.kind = .telemetry →
        sendAttempt .sent s =
          .next
            { s with
              blk := { s.blk with hk := { s.blk.hk with outbox := none } }
              env := { s.env with outcome := .ok, outputs := s.env.outputs ++ [.message o.bytes] } })

/-- The capture property (R110 to R114): HK, any number of busy answers (none included) and an accepting one put out
exactly one message of `1 + CAP_CAPACITY` bytes and clear `armed`; buffer, cursor, `full` and everything else of the
block stay, no message is being sent, and the telemetry step of the same HK is next, a step of its own (log 13), which
starts telemetry when it is due and else ends the HK. -/
def Obligations.FullCaptureIsFlushedOnce : Prop :=
  ∀ (s : State) (now : Word) (n : Nat), s.blk.hk.outbox = none →
    (∀ last, s.env.lastNow = some last → (s.params.num.ofBits now).lt last = false) →
    s.blk.cap.armed = true → s.blk.cap.full = true →
    let x := s.params.num.ofBits now
    let bytes := s.params.disc.captureBlob :: s.blk.cap.buf.readRange 0 s.params.capCapacity
    let v : State :=
      { s with
        blk := { s.blk with cap := { s.blk.cap with armed := false } }
        env :=
          { s.env with
            outputs := s.env.outputs ++ [.message bytes]
            outcome := .ok
            lastNow := some x
            background := .housekeeping x } }
    let w : State := { v with env := { v.env with background := .idle } }
    let due := s.mode ≠ .idle ∧ ∀ last, s.blk.hk.lastTelemetry = some last →
      s.params.telemetryIntervalS.le (x.sub last) = true
    bytes.length = 1 + s.params.capCapacity ∧
      ∃ t, exec (.hk now) s = .next t ∧ sendAttempts (List.replicate n .busy ++ [.sent]) t = .next v ∧
        (due →
          backgroundStep v =
            .next
              { w with
                blk :=
                  { w.blk with
                    hk :=
                      { lastTelemetry := some x
                        outbox := some ⟨.telemetry, s.params.disc.telemetry :: Config.telemetry w.blk w.hw⟩ } } }) ∧
        (¬due → backgroundStep v = .next w)

/-- R118, R139: while a message is being sent no background event starts and no `submit` (its refusal, rather than a wait,
is the model's, log 17); a TICK still completes. -/
def Obligations.SendStallsTheBackground : Prop :=
  ∀ (s : State) (o : Outbound), s.params.wf = true → s.blk.hk.outbox = some o →
    (∀ i : Instr, i.periodic = false → exec i s = .refused .backgroundBusy) ∧
      (∀ chunk elapsed rest, s.env.background = .idle → s.blk.tickPending = false →
        s.env.inputs = ⟨.submit chunk, elapsed⟩ :: rest → step s = .refused .backgroundBusy) ∧
      (s.hw.ctrlRun = true → ∃ t, exec .tick s = .next t ∧ t.blk.hk = s.blk.hk)

/-! ## Message port (40_mode_controller.md) -/

/-- R77: an unrecognized byte at the front is surfaced and dropped, exactly that byte, and nothing else of the block
changes. -/
def Obligations.ProtocolErrorDropsOneByte : Prop :=
  ∀ (s : State) (left : List Byte) (d : Byte), s.env.background = .submitting left → s.blk.agg.bytes.wf = true →
    0 < s.blk.agg.length → s.blk.agg.length ≤ aggCap → s.blk.agg.bytes.read 0 = d → payloadLen s.params.disc d = none →
    ∃ t, framerStep s = .next t ∧
      t =
        { s with
          blk := { s.blk with agg := t.blk.agg }
          env := { s.env with outcome := .protocolError d, outputs := s.env.outputs ++ [.protocolError d] } } ∧
      s.blk.agg.contents = d :: t.blk.agg.contents ∧ t.blk.agg.bytes.wf = true

/-- R74, R75: a complete message at the front is dispatched with its payload, exactly its bytes are taken out, and the
message's own effect happens. -/
def Obligations.CompleteMessageIsDispatched : Prop :=
  ∀ (s : State) (left : List Byte) (i : Instr) (tail : List Byte),
    s.params.disc.wf = true → s.env.background = .submitting left → s.blk.agg.bytes.wf = true →
    s.blk.agg.length ≤ aggCap → s.blk.hk.outbox = none → kindByte i = 0 →
    s.blk.agg.contents = encodeMessage s.params.disc i ++ tail →
    ∃ u t, exec i s = .next u ∧ framerStep s = .next t ∧
      t = { u with blk := { u.blk with agg := t.blk.agg }, env := { u.env with outputs := s.env.outputs ++ [.dispatched i] } } ∧
      t.blk.agg.contents = tail ∧ t.blk.agg.bytes.wf = true

/-- R76: "exactly one complete message followed by a prefix of a second": exactly one dispatch, and the buffer holds
exactly the prefix. -/
def Obligations.OneMessageAndAPrefix : Prop :=
  ∀ (s : State) (i j : Instr) (n : Nat), s.params.disc.wf = true → s.blk.hk.outbox = none → s.blk.agg.length = 0 →
    s.blk.agg.bytes.wf = true → kindByte i = 0 → kindByte j = 0 →
    let first := encodeMessage s.params.disc i
    let second := encodeMessage s.params.disc j
    n < second.length →
    ∃ u t, exec i s = .next u ∧ submitWhole (first ++ second.take n) s = .next t ∧
      t.env.outputs = s.env.outputs ++ [.dispatched i] ∧ t.blk.agg.contents = second.take n ∧
      t.env.background = .idle ∧ t.blk.reg = u.blk.reg ∧ t.blk.running = u.blk.running ∧ t.blk.cap = u.blk.cap ∧
      t.hw = u.hw

/-- R76, chunk-boundary invariance: two chunks one after the other, or joined into one, leave the same machine, with the
same outputs, the same buffered bytes and everything else equal. -/
def Obligations.ChunkBoundariesDoNotMatter : Prop :=
  ∀ (s : State) (a b : List Byte), s.blk.hk.outbox = none → s.blk.agg.bytes.wf = true →
    s.blk.agg.length ≤ aggCap → AwaitsBytes s.params.disc s.blk.agg →
    ∃ t u v, submitWhole (a ++ b) s = .next t ∧ submitWhole a s = .next u ∧ submitWhole b u = .next v ∧
      v.blk.agg.contents = t.blk.agg.contents ∧ v = { t with blk := { t.blk with agg := v.blk.agg } }

/-! ## The machine -/

/-- When the bytes at the head of the schedule are an event, a step runs exactly it: TICK at once, a background event
when the background context is in no operation; the entry leaves the schedule, and a period that elapses meanwhile
becomes a TICK request, before a background step's effect and after a TICK's (60_exceptions.md R120; log 2, log 16).
While a `submit` or an HK is between two of its steps, the background event waits and that operation goes on (log 15). -/
def Obligations.StepRunsTheDecodedEvent : Prop :=
  ∀ (s : State) (bytes : List Byte) (elapsed : Bool) (rest : List Input) (i : Instr), s.params.wf = true →
    s.env.inputs = ⟨.event bytes, elapsed⟩ :: rest → s.blk.tickPending = false →
    decodeWhole s.params.disc bytes = .ok i →
    (i.periodic = true →
      step s = requestAfter elapsed (exec i { s with env := { s.env with inputs := rest } })) ∧
      (i.periodic = false → s.env.background = .idle →
        step s = exec i (requestTick elapsed { s with env := { s.env with inputs := rest } })) ∧
      (i.periodic = false → s.env.background ≠ .idle → step s = backgroundStep s)

/-- R120: a pending TICK goes before the next step of the background context. -/
def Obligations.PendingTickGoesFirst : Prop :=
  ∀ s : State, s.params.wf = true → s.blk.tickPending = true →
    (∀ i rest, s.env.inputs = i :: rest → i.action.device = false) → step s = exec .tick s

/-- R52 (10_state.md R29): a running engine stores the sample at the write position and advances it modulo the ring, in
one step (log 25); a stopped one (log 20) changes nothing. A period that elapses meanwhile only makes a TICK pending. -/
def Obligations.EngineWritesOneSample : Prop :=
  ∀ (s : State) (v : Half) (elapsed : Bool) (rest : List Input), s.params.wf = true → s.ring.wf = true →
    s.hw.dmaPos < s.params.ringCap → s.env.inputs = ⟨.sample v, elapsed⟩ :: rest →
    ∃ t, step s = .next t ∧ t.params = s.params ∧
      t.blk = { s.blk with tickPending := s.blk.tickPending || (elapsed && s.hw.ctrlRun) } ∧
      t.env = { s.env with inputs := rest } ∧
      (s.hw.adcRun = true →
        t.hw = { s.hw with dmaPos := (s.hw.dmaPos + 1) % s.params.ringCap } ∧
          t.ring.read s.hw.dmaPos = v ∧ ∀ a, a ≠ s.hw.dmaPos → t.ring.read a = s.ring.read a) ∧
      (s.hw.adcRun = false → t.hw = s.hw ∧ t.ring = s.ring)

/-- 10_state.md R28, R31: only a running sampling engine writes the ring, only the timer its counter. -/
def Obligations.RingAndCounterHaveOneWriter : Prop :=
  ∀ s t : State, step s = .next t →
    (t.ring ≠ s.ring → s.hw.adcRun = true ∧ ∃ v elapsed rest, s.env.inputs = ⟨.sample v, elapsed⟩ :: rest) ∧
      (t.hw.ctrlCnt ≠ s.hw.ctrlCnt →
        ∃ v elapsed rest, s.env.inputs = ⟨.count v, elapsed⟩ :: rest ∧ t.hw.ctrlCnt = v % 2 ^ s.params.ctrlCntBits)

/-- R7: "Every parameter is fixed for the life of a run." -/
def Obligations.ParametersNeverChange : Prop :=
  ∀ s t : State, step s = .next t → t.params = s.params

/-- Every step keeps the canonical form of the three spaces. -/
def Obligations.StepKeepsMemoriesCanonical : Prop :=
  ∀ s t : State, MemoriesCanonical s → step s = .next t → MemoriesCanonical t

/-- 10_state.md R26: after every write of every operation the PWM registers hold values of their width, and
"`CCR ≤ ARR ≤ TMAX` holds" where `num` of a reload is exact (log 23). -/
def Obligations.StepKeepsRegistersInRange : Prop :=
  ∀ s t : State, RegsInRange s → step s = .next t → RegsInRange t

/-- Every step keeps: timers and engine run exactly outside Idle, a TICK is pending only while the timer runs, and the
output is driven only if the last config said `running`. -/
def Obligations.StepKeepsRunBits : Prop :=
  ∀ s t : State, RunBitsFollowMode s → step s = .next t → RunBitsFollowMode t

/-- Every step keeps: every quantity the machine holds is a value of `NUM`, in either domain (R7, R10; NaN and the
infinities are values of both, log 24). -/
def Obligations.StepKeepsNumbersInDomain : Prop :=
  ∀ s t : State, NumbersInDomain s → step s = .next t → NumbersInDomain t

/-- Every step keeps the whole invariant of a run. -/
def Obligations.StepKeepsInvariant : Prop :=
  ∀ s t : State, RunInvariant s → step s = .next t → RunInvariant t

/-- 60_exceptions.md R118: no step of a run ends in a model fault; every refusal is of an event the environment must not
raise, which `RefusalGrounds` names; and the framer itself never stops. -/
def Obligations.RunsNeverFault : Prop :=
  ∀ s : State, RunInvariant s →
    (∀ f, step s ≠ .fault f) ∧ (∀ e, step s = .refused e → RefusalGrounds s e) ∧
      (∀ left, s.env.background = .submitting left → ∃ t, framerStep s = .next t)
end

