-- ==== Sys2Proof/Laws/Decode.lean ====
section
/-! SUPPORT. Fields are read back as written, and what is read is what was there. -/

namespace Sys2Proof

theorem join16 (v : Half) : (v.extractLsb' 8 8 ++ v.extractLsb' 0 8 : Half) = v := by
  ext i hi
  simp only [BitVec.getElem_append, BitVec.getElem_extractLsb']
  split
  · simp [BitVec.getLsbD_eq_getElem hi]
  · rw [show 8 + (i - 8) = i by omega, BitVec.getLsbD_eq_getElem hi]

theorem join32 (v : Word) :
    (v.extractLsb' 24 8 ++ v.extractLsb' 16 8 ++ v.extractLsb' 8 8 ++ v.extractLsb' 0 8 : Word) = v := by
  ext i hi
  simp only [BitVec.getElem_append, BitVec.getElem_extractLsb']
  split
  · simp [BitVec.getLsbD_eq_getElem hi]
  · split
    · rw [show 8 + (i - 8) = i by omega, BitVec.getLsbD_eq_getElem hi]
    · split
      · rw [show 16 + (i - 8 - 8) = i by omega, BitVec.getLsbD_eq_getElem hi]
      · rw [show 24 + (i - 8 - 8 - 8) = i by omega, BitVec.getLsbD_eq_getElem hi]

@[simp] theorem take8_cons (b : Byte) (rest : List Byte) : take8 (b :: rest) = some (b, rest) := rfl

@[simp] theorem take16_bytes16 (v : Half) (rest : List Byte) : take16 (bytes16 v ++ rest) = some (v, rest) := by
  simp [take16, bytes16, join16]

@[simp] theorem take32_bytes32 (v : Word) (rest : List Byte) : take32 (bytes32 v ++ rest) = some (v, rest) := by
  simp [take32, bytes32, join32]

theorem take8_eq_some {bs rest : List Byte} {b : Byte} : take8 bs = some (b, rest) ↔ bs = b :: rest := by
  cases bs <;> simp [take8]

theorem getLsbD_join16 (b0 b1 : Byte) (i : Nat) :
    (b1 ++ b0 : Half).getLsbD i = if i < 8 then b0.getLsbD i else b1.getLsbD (i - 8) := by
  have h := BitVec.getLsbD_append (x := b1) (y := b0) (i := i)
  exact h

theorem getLsbD_join32 (b0 b1 b2 b3 : Byte) (i : Nat) :
    (b3 ++ b2 ++ b1 ++ b0 : Word).getLsbD i =
      if i < 8 then b0.getLsbD i
      else if i - 8 < 8 then b1.getLsbD (i - 8)
      else if i - 16 < 8 then b2.getLsbD (i - 16)
      else b3.getLsbD (i - 24) := by
  have h1 := BitVec.getLsbD_append (x := b3) (y := b2) (i := i - 8 - 8)
  have h2 := BitVec.getLsbD_append (x := b3 ++ b2) (y := b1) (i := i - 8)
  have h3 := BitVec.getLsbD_append (x := b3 ++ b2 ++ b1) (y := b0) (i := i)
  rw [h1] at h2
  rw [h2, Nat.sub_sub, Nat.sub_sub] at h3
  exact h3

theorem bytes16_join (b0 b1 : Byte) : bytes16 (b1 ++ b0 : Half) = [b0, b1] := by
  simp only [bytes16, List.cons.injEq, and_true]
  constructor <;> apply BitVec.eq_of_getLsbD_eq <;> intro i hi <;>
    rw [BitVec.getLsbD_extractLsb', getLsbD_join16] <;> simp [hi]

theorem bytes32_join (b0 b1 b2 b3 : Byte) : bytes32 (b3 ++ b2 ++ b1 ++ b0 : Word) = [b0, b1, b2, b3] := by
  simp only [bytes32, List.cons.injEq, and_true]
  refine ⟨?_, ?_, ?_, ?_⟩ <;> apply BitVec.eq_of_getLsbD_eq <;> intro i hi <;>
    rw [BitVec.getLsbD_extractLsb', getLsbD_join32]
  · simp [hi]
  · simp [hi]
  · rw [if_neg (by omega), if_neg (by omega), if_pos (by omega)]
    simp [hi]
  · rw [if_neg (by omega), if_neg (by omega), if_neg (by omega)]
    simp [hi]

theorem take16_eq_some {bs rest : List Byte} {v : Half} : take16 bs = some (v, rest) ↔ bs = bytes16 v ++ rest := by
  constructor
  · intro h
    match bs, h with
    | b0 :: b1 :: bs, h =>
      simp [take16] at h
      rw [← h.1, bytes16_join, ← h.2]; rfl
  · rintro rfl; simp

theorem take32_eq_some {bs rest : List Byte} {v : Word} : take32 bs = some (v, rest) ↔ bs = bytes32 v ++ rest := by
  constructor
  · intro h
    match bs, h with
    | b0 :: b1 :: b2 :: b3 :: bs, h =>
      simp [take32] at h
      rw [← h.1, bytes32_join, ← h.2]; rfl
  · rintro rfl; simp

@[simp] theorem bytes16_length (v : Half) : (bytes16 v).length = 2 := rfl
@[simp] theorem bytes32_length (v : Word) : (bytes32 v).length = 4 := rfl

/-- A message's operand bytes are as many as the discriminant table says (30_encoding.md R61). -/
theorem payloadLen_discByte {t : DiscTable} {i : Instr} (ht : t.wf = true) (hk : kindByte i = 0) :
    payloadLen t (discByte t i) = some (operandBytes i).length := by
  simp [DiscTable.wf, DiscTable.inbound] at ht
  obtain ⟨⟨h1, h2, h3, h4⟩, ⟨h5, h6, h7⟩, ⟨h8, h9⟩, h10⟩ := ht
  cases i with
  | tick => simp [kindByte] at hk
  | hk now => simp [kindByte] at hk
  | _ => simp [payloadLen, discByte, operandBytes, Ne.symm h1, Ne.symm h2, Ne.symm h3, Ne.symm h4, Ne.symm h5,
      Ne.symm h6, Ne.symm h7, Ne.symm h8, Ne.symm h9, Ne.symm h10]

end Sys2Proof
end

