-- ==== Sys2Proof/Laws/Memory.lean ====
section
/-! SUPPORT. The laws of a space: a read after a write, a write leaves every other cell alone, every operation keeps the
canonical form, and canonical spaces with equal cells are equal. -/

namespace Sys2Proof.Machine

variable {w : Nat}

/-! ## Reading -/

@[simp] theorem Memory.read_nil (a : Nat) : Memory.read ([] : Memory w) a = Memory.blank w := rfl

theorem Memory.wf_cons {a : Nat} {v : BitVec w} {m : Memory w} :
    Memory.wf ((a, v) :: m) = true ↔ v ≠ Memory.blank w ∧ (∀ c ∈ m, a < c.1) ∧ m.wf = true := by
  simp [Memory.wf, and_assoc]

/-- Below the first listed address everything is blank. -/
theorem Memory.read_below {m : Memory w} {a : Nat} (h : ∀ c ∈ m, a < c.1) : m.read a = Memory.blank w := by
  induction m with
  | nil => rfl
  | cons c m ih =>
    have hc : a ≠ c.1 := Nat.ne_of_lt (h c (by simp))
    simp [Memory.read, hc, ih fun d hd => h d (by simp [hd])]

/-! ## One write -/

theorem Memory.mem_write {m : Memory w} {a : Nat} {v : BitVec w} {c : Nat × BitVec w} (h : c ∈ m.write a v) :
    c = (a, v) ∨ c ∈ m := by
  induction m with
  | nil =>
    simp only [Memory.write] at h
    split at h <;> simp_all
  | cons d m ih =>
    obtain ⟨b, x⟩ := d
    simp only [Memory.write] at h
    split at h
    · split at h <;> simp_all
    · split at h
      · split at h
        · exact Or.inr (List.mem_cons_of_mem _ h)
        · rcases List.mem_cons.1 h with h | h
          · exact Or.inl h
          · exact Or.inr (List.mem_cons_of_mem _ h)
      · rcases List.mem_cons.1 h with h | h
        · simp [h]
        · rcases ih h with h | h <;> simp [h]

/-- A write keeps the canonical form. -/
theorem Memory.wf_write {m : Memory w} (a : Nat) (v : BitVec w) (h : m.wf = true) : (m.write a v).wf = true := by
  induction m with
  | nil =>
    simp only [Memory.write]
    split <;> simp_all [Memory.wf]
  | cons d m ih =>
    obtain ⟨b, x⟩ := d
    have hw := Memory.wf_cons.1 h
    simp only [Memory.write]
    split
    · rename_i hab
      split
      · exact h
      · rename_i hv
        exact Memory.wf_cons.2 ⟨hv, by
          intro c hc
          rcases List.mem_cons.1 hc with rfl | hc
          · exact hab
          · exact Nat.lt_trans hab (hw.2.1 c hc), h⟩
    · split
      · rename_i hab
        subst hab
        split
        · exact hw.2.2
        · rename_i hv
          exact Memory.wf_cons.2 ⟨hv, hw.2⟩
      · exact Memory.wf_cons.2 ⟨hw.1, by
          intro c hc
          rcases Memory.mem_write hc with rfl | hc
          · simp only; omega
          · exact hw.2.1 c hc, ih hw.2.2⟩

/-- Read after write, in a canonical space. -/
theorem Memory.read_write {m : Memory w} (h : m.wf = true) (a b : Nat) (v : BitVec w) :
    (m.write a v).read b = if b = a then v else m.read b := by
  induction m with
  | nil =>
    by_cases hv : v = Memory.blank w <;> by_cases hb : b = a <;> simp [Memory.write, Memory.read, hv, hb]
  | cons d m ih =>
    obtain ⟨k, x⟩ := d
    have hw := Memory.wf_cons.1 h
    have below : ∀ j, j ≤ k → Memory.read m j = Memory.blank w := fun j hj =>
      Memory.read_below fun c hc => Nat.lt_of_le_of_lt hj (hw.2.1 c hc)
    simp only [Memory.write]
    split
    · rename_i hak
      have hb := below a (by omega)
      have hak' : a ≠ k := by omega
      by_cases hv : v = Memory.blank w
      · by_cases hba : b = a <;> simp [Memory.read, hv, hba, hb, hak']
      · by_cases hba : b = a <;> simp [Memory.read, hv, hba]
    · split
      · rename_i hak
        subst hak
        have hb := below a (Nat.le_refl _)
        by_cases hv : v = Memory.blank w
        · by_cases hba : b = a <;> simp [Memory.read, hv, hba, hb]
        · by_cases hba : b = a <;> simp [Memory.read, hv, hba]
      · by_cases hbk : b = k
        · subst hbk
          have : b ≠ a := by omega
          simp [Memory.read, this]
        · simp [Memory.read, hbk, ih hw.2.2]

@[simp] theorem Memory.read_write_same {m : Memory w} (h : m.wf = true) (a : Nat) (v : BitVec w) :
    (m.write a v).read a = v := by simp [Memory.read_write h]

theorem Memory.read_write_other {m : Memory w} (h : m.wf = true) {a b : Nat} (hb : b ≠ a) (v : BitVec w) :
    (m.write a v).read b = m.read b := by simp [Memory.read_write h, hb]

/-! ## Ranges -/

@[simp] theorem Memory.readRange_length (m : Memory w) (a n : Nat) : (m.readRange a n).length = n := by
  induction n generalizing a with
  | zero => rfl
  | succ n ih => simp [Memory.readRange, ih]

theorem Memory.readRange_getElem (m : Memory w) (a n i : Nat) (h : i < (m.readRange a n).length) :
    (m.readRange a n)[i] = m.read (a + i) := by
  induction n generalizing a i with
  | zero => simp [Memory.readRange] at h
  | succ n ih =>
    cases i with
    | zero => simp [Memory.readRange]
    | succ i => simp [Memory.readRange, ih]; congr 1; omega

theorem Memory.readRange_congr {m m' : Memory w} {a n : Nat} (h : ∀ i, i < n → m.read (a + i) = m'.read (a + i)) :
    m.readRange a n = m'.readRange a n := by
  apply List.ext_getElem (by simp)
  intro i h1 h2
  rw [Memory.readRange_getElem, Memory.readRange_getElem]
  exact h i (by simpa using h1)

theorem Memory.readRange_append (m : Memory w) (a n k : Nat) :
    m.readRange a (n + k) = m.readRange a n ++ m.readRange (a + n) k := by
  induction n generalizing a with
  | zero => simp [Memory.readRange]
  | succ n ih => rw [Nat.succ_add]; simp [Memory.readRange, ih, Nat.add_assoc, Nat.add_comm 1]

theorem Memory.wf_writeRange {m : Memory w} (a : Nat) (vs : List (BitVec w)) (h : m.wf = true) :
    (m.writeRange a vs).wf = true := by
  induction vs generalizing m a with
  | nil => exact h
  | cons v vs ih => exact ih (a + 1) (Memory.wf_write a v h)

/-- A range write stores its cells in order and leaves every other cell alone. -/
theorem Memory.read_writeRange {m : Memory w} (h : m.wf = true) (a : Nat) (vs : List (BitVec w)) (b : Nat) :
    (m.writeRange a vs).read b = if h' : a ≤ b ∧ b - a < vs.length then vs[b - a] else m.read b := by
  induction vs generalizing m a with
  | nil => simp [Memory.writeRange]
  | cons v vs ih =>
    rw [Memory.writeRange, ih (Memory.wf_write a v h), Memory.read_write h]
    by_cases hb : b = a
    · subst hb; simp
    · by_cases h1 : a + 1 ≤ b ∧ b - (a + 1) < vs.length
      · have h2 : a ≤ b ∧ b - a < (v :: vs).length := by simp; omega
        rw [dif_pos h1, dif_pos h2]
        have : b - a = (b - (a + 1)) + 1 := by omega
        simp [this]
      · have h2 : ¬(a ≤ b ∧ b - a < (v :: vs).length) := by simp; omega
        rw [dif_neg h1, dif_neg h2, if_neg hb]

theorem Memory.read_writeRange_outside {m : Memory w} (h : m.wf = true) {a b : Nat} (vs : List (BitVec w))
    (hb : b < a ∨ a + vs.length ≤ b) : (m.writeRange a vs).read b = m.read b := by
  rw [Memory.read_writeRange h, dif_neg (by omega)]

theorem Memory.readRange_writeRange {m : Memory w} (h : m.wf = true) (a : Nat) (vs : List (BitVec w)) :
    (m.writeRange a vs).readRange a vs.length = vs := by
  apply List.ext_getElem (by simp)
  intro i h1 h2
  rw [Memory.readRange_getElem, Memory.read_writeRange h, dif_pos (by omega)]
  simp

/-- Canonical spaces are equal as data when they are equal cell by cell. -/
theorem Memory.ext {m m' : Memory w} (h : m.wf = true) (h' : m'.wf = true) (e : ∀ a, m.read a = m'.read a) :
    m = m' := by
  induction m generalizing m' with
  | nil =>
    cases m' with
    | nil => rfl
    | cons c m' =>
      have hc := Memory.wf_cons.1 h'
      have := e c.1
      simp [Memory.read] at this
      exact absurd this.symm hc.1
  | cons c m ih =>
    have hc := Memory.wf_cons.1 h
    cases m' with
    | nil =>
      have := e c.1
      simp [Memory.read] at this
      exact absurd this hc.1
    | cons c' m' =>
      have hc' := Memory.wf_cons.1 h'
      obtain ⟨a, v⟩ := c
      obtain ⟨a', v'⟩ := c'
      have haa : a = a' := by
        rcases Nat.lt_trichotomy a a' with hlt | heq | hgt
        · have hr := e a
          have hb : Memory.read m' a = Memory.blank w :=
            Memory.read_below fun c hc => Nat.lt_trans hlt (hc'.2.1 c hc)
          have hne : a ≠ a' := by omega
          simp [Memory.read, hne, hb] at hr
          exact absurd hr hc.1
        · exact heq
        · have hr := e a'
          have hb : Memory.read m a' = Memory.blank w :=
            Memory.read_below fun c hm => Nat.lt_trans hgt (hc.2.1 c hm)
          have hne : a' ≠ a := by omega
          simp [Memory.read, hne, hb] at hr
          exact absurd hr.symm hc'.1
      subst haa
      have hv : v = v' := by simpa [Memory.read] using e a
      subst hv
      congr 1
      apply ih hc.2.2 hc'.2.2
      intro b
      by_cases hb : b = a
      · subst hb
        rw [Memory.read_below hc.2.1, Memory.read_below hc'.2.1]
      · simpa [Memory.read, hb] using e b

/-! ## The primitives of 20_memory.md R41 -/

theorem capWrite_eq_some {s t : State} {o : Nat} {v : List Byte} (h : capWrite s o v = some t) :
    o + v.length ≤ s.params.capCapacity ∧
      t = { s with blk := { s.blk with cap := { s.blk.cap with buf := s.blk.cap.buf.writeRange o v } } } := by
  unfold capWrite at h
  split at h
  · exact ⟨‹_›, by simpa using h.symm⟩
  · cases h

theorem aggWrite_eq_some {s t : State} {o : Nat} {v : List Byte} (h : aggWrite s o v = some t) :
    o + v.length ≤ aggCap ∧
      t = { s with blk := { s.blk with agg := { s.blk.agg with bytes := s.blk.agg.bytes.writeRange o v } } } := by
  unfold aggWrite at h
  split at h
  · exact ⟨‹_›, by simpa using h.symm⟩
  · cases h

theorem capRead_eq_some {s : State} {o n : Nat} {v : List Byte} (h : capRead s o n = some v) :
    o + n ≤ s.params.capCapacity ∧ v = s.blk.cap.buf.readRange o n := by
  unfold capRead at h
  split at h
  · exact ⟨‹_›, by simpa using h.symm⟩
  · cases h

theorem aggRead_eq_some {s : State} {o n : Nat} {v : List Byte} (h : aggRead s o n = some v) :
    o + n ≤ aggCap ∧ v = s.blk.agg.bytes.readRange o n := by
  unfold aggRead at h
  split at h
  · exact ⟨‹_›, by simpa using h.symm⟩
  · cases h

end Sys2Proof.Machine
end

