-- ==== Sys2Proof/Laws/Num.lean ====
section
/-! SUPPORT. Facts about `NUM` arithmetic: what rounding to nearest even is, the rational a value is, comparisons and
clamps, exact integers, and the ranges of FREQCALC and DUTYCCR. -/

namespace Sys2Proof

/-! ## Magnitudes and their values -/

theorem magValue_small {m : Nat} (h : m < 2 ^ 23) : magValue m = m := by
  rw [magValue, if_pos h]

/-- A magnitude as exponent and significand. -/
theorem magValue_scaled {k t : Nat} (h : k = 0 ∧ t ≤ 2 ^ 24 ∨ 2 ^ 23 ≤ t ∧ t ≤ 2 ^ 24) :
    magValue (k * 2 ^ 23 + t) = t * 2 ^ k := by
  by_cases hlow : k = 0 ∧ t < 2 ^ 23
  · obtain ⟨rfl, ht⟩ := hlow
    rw [Nat.zero_mul, Nat.zero_add, magValue_small ht, Nat.pow_zero, Nat.mul_one]
  · have ht : 2 ^ 23 ≤ t ∧ t ≤ 2 ^ 24 := by omega
    by_cases htop : t = 2 ^ 24
    · subst htop
      have h1 : (k * 2 ^ 23 + 2 ^ 24) / 2 ^ 23 = k + 2 := by omega
      have h2 : (k * 2 ^ 23 + 2 ^ 24) % 2 ^ 23 = 0 := by omega
      have h3 : ¬k * 2 ^ 23 + 2 ^ 24 < 2 ^ 23 := by omega
      rw [magValue, if_neg h3, h1, h2, show k + 2 - 1 = k + 1 by omega, Nat.pow_succ]
      ring
    · have h1 : (k * 2 ^ 23 + t) / 2 ^ 23 = k + 1 := by omega
      have h2 : (k * 2 ^ 23 + t) % 2 ^ 23 = t - 2 ^ 23 := by omega
      have h3 : ¬k * 2 ^ 23 + t < 2 ^ 23 := by omega
      rw [magValue, if_neg h3, h1, h2, Nat.add_sub_cancel, Nat.add_sub_cancel' ht.1]

/-- Every magnitude splits that way. -/
theorem mag_split (m : Nat) :
    ∃ k t, m = k * 2 ^ 23 + t ∧ (k = 0 ∧ t < 2 ^ 23 ∨ 2 ^ 23 ≤ t ∧ t < 2 ^ 24) := by
  by_cases h : m < 2 ^ 23
  · exact ⟨0, m, by simp, by omega⟩
  · exact ⟨m / 2 ^ 23 - 1, 2 ^ 23 + m % 2 ^ 23, by omega, by omega⟩

theorem magValue_lt_succ (m : Nat) : magValue m < magValue (m + 1) := by
  obtain ⟨k, t, rfl, h⟩ := mag_split m
  rw [Nat.add_assoc, magValue_scaled (by omega), magValue_scaled (by omega)]
  exact Nat.mul_lt_mul_of_pos_right (Nat.lt_succ_self t) (Nat.two_pow_pos k)

theorem magValue_strictMono : StrictMono magValue := strictMono_nat_of_lt_succ magValue_lt_succ

theorem magValue_le_iff {m n : Nat} : magValue m ≤ magValue n ↔ m ≤ n := magValue_strictMono.le_iff_le

theorem magValue_lt_iff {m n : Nat} : magValue m < magValue n ↔ m < n := magValue_strictMono.lt_iff_lt

@[simp] theorem magValue_zero : magValue 0 = 0 := rfl

theorem magValue_one : magValue 0x3F800000 = unit := by decide

theorem unit_pos : 0 < unit := Nat.two_pow_pos 149

/-! ## Rounding -/

/-- `roundMag` lands at or below `m` exactly when `n / d` lies below the midpoint after `m`, or on it with `m` even. -/
theorem roundMag_le_iff {n d m : Nat} (hd : 0 < d) :
    roundMag n d ≤ m ↔
      2 * n < d * (magValue m + magValue (m + 1)) ∨ (2 * n = d * (magValue m + magValue (m + 1)) ∧ m % 2 = 0) := by
  set k := Nat.log2 (n / d) - 23 with hk
  set q := d * 2 ^ k with hq
  set t := n / q with ht
  set r := n % q with hr
  have hq0 : 0 < q := Nat.mul_pos hd (Nat.two_pow_pos k)
  have hn : n = t * q + r := by rw [ht, hr, Nat.mul_comm]; exact (Nat.div_add_mod n q).symm
  have hrq : r < q := Nat.mod_lt _ hq0
  have htq : t = n / d / 2 ^ k := by rw [ht, hq, Nat.div_div_eq_div_mul]
  have hrange : k = 0 ∧ t < 2 ^ 24 ∨ 2 ^ 23 ≤ t ∧ t < 2 ^ 24 := by
    by_cases h0 : n / d = 0
    · left
      rw [h0] at hk htq
      exact ⟨by rw [hk]; rfl, by rw [htq]; simp⟩
    · have hlo : 2 ^ Nat.log2 (n / d) ≤ n / d := Nat.log2_self_le h0
      have hhi : n / d < 2 ^ (Nat.log2 (n / d) + 1) := Nat.lt_log2_self
      by_cases hk0 : k = 0
      · left
        refine ⟨hk0, ?_⟩
        rw [htq, hk0, Nat.pow_zero, Nat.div_one]
        exact Nat.lt_of_lt_of_le hhi (Nat.pow_le_pow_right (by decide) (by omega))
      · right
        have hlog : Nat.log2 (n / d) = k + 23 := by omega
        rw [hlog] at hlo hhi
        rw [htq]
        constructor
        · rw [Nat.le_div_iff_mul_le (Nat.two_pow_pos k), ← Nat.pow_add, Nat.add_comm]
          exact hlo
        · rw [Nat.div_lt_iff_lt_mul (Nat.two_pow_pos k), ← Nat.pow_add]
          exact Nat.lt_of_lt_of_le hhi (Nat.pow_le_pow_right (by decide) (by omega))
  have hv0 : magValue (k * 2 ^ 23 + t) = t * 2 ^ k := magValue_scaled (by omega)
  have hv1 : magValue (k * 2 ^ 23 + t + 1) = (t + 1) * 2 ^ k := by
    rw [Nat.add_assoc]; exact magValue_scaled (by omega)
  have hR : roundMag n d = k * 2 ^ 23 + t + (if q < 2 * r ∨ (q = 2 * r ∧ t % 2 = 1) then 1 else 0) := rfl
  set M := k * 2 ^ 23 + t with hM
  have hd0 : d * (t * 2 ^ k) = t * q := by rw [hq]; ring
  have hd1 : d * ((t + 1) * 2 ^ k) = t * q + q := by rw [hq]; ring
  rw [hR]
  rcases Nat.lt_trichotomy m M with hlt | heq | hgt
  · have h1 : magValue m < magValue M := magValue_lt_iff.2 hlt
    have h2 : magValue (m + 1) ≤ magValue M := magValue_le_iff.2 hlt
    have h3 : d * (magValue m + magValue (m + 1)) < d * (2 * magValue M) :=
      Nat.mul_lt_mul_of_pos_left (by omega) hd
    rw [hv0, show d * (2 * (t * 2 ^ k)) = 2 * (t * q) by rw [hq]; ring] at h3
    constructor
    · intro h; split at h <;> omega
    · intro h; omega
  · subst heq
    have h1 : d * (magValue M + magValue (M + 1)) = 2 * (t * q) + q := by
      rw [hv0, hv1, Nat.mul_add, hd0, hd1]; ring
    rw [h1]
    have hpar : M % 2 = t % 2 := by omega
    split <;> constructor <;> intro h <;> omega
  · have h1 : magValue (M + 1) ≤ magValue m := magValue_le_iff.2 hgt
    have h2 : magValue m < magValue (m + 1) := magValue_lt_succ m
    have h3 : d * (2 * magValue (M + 1)) < d * (magValue m + magValue (m + 1)) :=
      Nat.mul_lt_mul_of_pos_left (by omega) hd
    rw [hv1, show d * (2 * ((t + 1) * 2 ^ k)) = 2 * (t * q + q) by rw [hq]; ring] at h3
    constructor
    · intro _; left; omega
    · intro _; split <;> omega

/-- A value that a magnitude bounds from above rounds to no more than it. -/
theorem roundMag_le {n d m : Nat} (hd : 0 < d) (h : n ≤ d * magValue m) : roundMag n d ≤ m := by
  rw [roundMag_le_iff hd]
  left
  have := Nat.mul_lt_mul_of_pos_left (magValue_lt_succ m) hd
  rw [Nat.mul_add]; omega

/-- A value that a magnitude bounds from below rounds to no less than it. -/
theorem le_roundMag {n d m : Nat} (hd : 0 < d) (h : d * magValue m ≤ n) : m ≤ roundMag n d := by
  by_contra hlt
  obtain ⟨m', rfl⟩ : ∃ m', m = m' + 1 := ⟨m - 1, by omega⟩
  have h1 := (roundMag_le_iff (n := n) (m := m') hd).1 (by omega)
  have := Nat.mul_lt_mul_of_pos_left (magValue_lt_succ m') hd
  rw [Nat.mul_add] at h1; omega

/-- Values of the format are not rounded. -/
theorem roundMag_exact {n d m : Nat} (hd : 0 < d) (h : n = d * magValue m) : roundMag n d = m :=
  Nat.le_antisymm (roundMag_le hd (Nat.le_of_eq h)) (le_roundMag hd (Nat.le_of_eq h.symm))

/-- Rounding is monotone. -/
theorem roundMag_mono {n d n' d' : Nat} (hd : 0 < d) (hd' : 0 < d') (h : n * d' ≤ n' * d) :
    roundMag n d ≤ roundMag n' d' := by
  rw [roundMag_le_iff hd]
  set m := roundMag n' d'
  have hm := (roundMag_le_iff (n := n') (m := m) hd').1 (Nat.le_refl _)
  set w := magValue m + magValue (m + 1)
  have e1 : d' * (2 * n) ≤ d * (2 * n') := by nlinarith
  rcases hm with hm | ⟨hm, he⟩
  · left
    have : d * (2 * n') < d * (d' * w) := Nat.mul_lt_mul_of_pos_left hm hd
    have h2 : d' * (2 * n) < d' * (d * w) := by
      calc d' * (2 * n) ≤ d * (2 * n') := e1
        _ < d * (d' * w) := this
        _ = d' * (d * w) := by ring
    exact Nat.lt_of_mul_lt_mul_left h2
  · have h2 : d' * (2 * n) ≤ d' * (d * w) := by
      calc d' * (2 * n) ≤ d * (2 * n') := e1
        _ = d * (d' * w) := by rw [hm]
        _ = d' * (d * w) := by ring
    rcases Nat.lt_or_eq_of_le (Nat.le_of_mul_le_mul_left h2 hd') with h3 | h3
    · exact Or.inl h3
    · exact Or.inr ⟨h3, he⟩

@[simp] theorem roundMag_zero (d : Nat) : roundMag 0 d = 0 := by
  simp [roundMag]

/-! ## Values -/

theorem Quantity.ofMag_lt {neg : Bool} {m : Nat} (h : m < 2139095040) : Quantity.ofMag neg m = .fin neg ⟨m, h⟩ := by
  simp [Quantity.ofMag, h]

/-- Integers below 2^24 are exact (00_scope.md R10). -/
theorem Quantity.ofNat_exact {n : Nat} (h : n < 2 ^ 24) : ∃ m : Mag, Quantity.ofNat n = .fin false m ∧ magValue m.val = n * unit := by
  have key : ∃ m, magValue m = n * unit := by
    by_cases h0 : n = 0
    · exact ⟨0, by simp [h0]⟩
    · have hl : Nat.log2 n ≤ 23 := by
        by_contra hc
        have := Nat.log2_self_le h0
        have h2 : 2 ^ 24 ≤ 2 ^ Nat.log2 n := Nat.pow_le_pow_right (by decide) (by omega)
        omega
      have hlo := Nat.log2_self_le h0
      have hhi : n < 2 ^ (Nat.log2 n + 1) := Nat.lt_log2_self
      set j := 23 - Nat.log2 n with hj
      refine ⟨(149 - j) * 2 ^ 23 + n * 2 ^ j, ?_⟩
      have e1 : 2 ^ 23 ≤ n * 2 ^ j := by
        calc 2 ^ 23 = 2 ^ Nat.log2 n * 2 ^ j := by rw [← Nat.pow_add]; congr 1; omega
          _ ≤ n * 2 ^ j := Nat.mul_le_mul_right _ hlo
      have e2 : n * 2 ^ j ≤ 2 ^ 24 := by
        calc n * 2 ^ j ≤ 2 ^ (Nat.log2 n + 1) * 2 ^ j := Nat.mul_le_mul_right _ (Nat.le_of_lt hhi)
          _ = 2 ^ 24 := by rw [← Nat.pow_add]; congr 1; omega
      rw [magValue_scaled (Or.inr ⟨e1, e2⟩), unit, Nat.mul_assoc, ← Nat.pow_add]
      congr 2; omega
  obtain ⟨m, hm⟩ := key
  have hlt : m < 2139095040 := by
    rw [← magValue_lt_iff, hm]
    calc n * unit < 2 ^ 24 * unit := Nat.mul_lt_mul_of_pos_right h unit_pos
      _ ≤ magValue 2139095040 := by decide
  refine ⟨⟨m, hlt⟩, ?_, hm⟩
  rw [Quantity.ofNat, Quantity.round, roundMag_exact (m := m) Nat.one_pos (by rw [Nat.one_mul, hm]), Quantity.ofMag_lt hlt]

/-! ## The rational a value is -/

theorem toRat_fin (s : Bool) (m : Mag) : (Quantity.fin s m).toRat = (signedValue s m : ℚ) / unit := Rat.mkRat_eq_div _ _

@[simp] theorem toRat_exact (q : ℚ) : (Quantity.exact q).toRat = q := rfl

theorem unit_pos_rat : (0 : ℚ) < (unit : ℚ) := by exact_mod_cast unit_pos

theorem toRat_fin_zero (s : Bool) : (Quantity.fin s ⟨0, by decide⟩).toRat = 0 := by
  cases s <;> simp [toRat_fin, signedValue]

theorem signedValue_lt_iff {a b : Bool} {x y : Mag} : signedValue a x < signedValue b y ↔ magKey a x < magKey b y := by
  have h := @magValue_lt_iff x.val y.val
  have h' := @magValue_lt_iff y.val x.val
  have hx := @magValue_le_iff x.val 0
  have hy := @magValue_le_iff y.val 0
  rw [magValue_zero] at hx hy
  cases a <;> cases b <;> simp [signedValue, magKey] <;> omega

theorem toRat_fin_lt_iff {a b : Bool} {x y : Mag} :
    (Quantity.fin a x).toRat < (Quantity.fin b y).toRat ↔ magKey a x < magKey b y := by
  rw [toRat_fin, toRat_fin, div_lt_div_iff_of_pos_right unit_pos_rat, Int.cast_lt, signedValue_lt_iff]

/-! ## Comparisons and clamps -/

/-- The place of a value other than NaN in the order: below, among or above the rationals. -/
def Quantity.order : Quantity → WithBot (WithTop ℚ)
  | .nan => ⊥
  | .inf true => ⊥
  | .inf false => ((⊤ : WithTop ℚ) : WithBot (WithTop ℚ))
  | .fin s m => (((Quantity.fin s m).toRat : WithTop ℚ) : WithBot (WithTop ℚ))
  | .exact q => ((q : WithTop ℚ) : WithBot (WithTop ℚ))

theorem Quantity.order_of_finite {a : Quantity} (h : a.finite = true) :
    a.order = ((a.toRat : WithTop ℚ) : WithBot (WithTop ℚ)) := by
  cases a with
  | fin _ _ => rfl
  | exact _ => rfl
  | inf _ => cases h
  | nan => cases h

theorem Quantity.isNaN_of_finite {a : Quantity} (h : a.finite = true) : a.isNaN = false := by
  cases a <;> first | rfl | cases h

theorem order_lt_top (q : ℚ) : ((q : WithTop ℚ) : WithBot (WithTop ℚ)) < ((⊤ : WithTop ℚ) : WithBot (WithTop ℚ)) :=
  WithBot.coe_lt_coe.2 (WithTop.coe_lt_top q)

theorem Quantity.lt_iff {a b : Quantity} :
    a.lt b = true ↔ a.isNaN = false ∧ b.isNaN = false ∧ a.order < b.order := by
  cases a with
  | nan => simp [Quantity.lt, Quantity.isNaN]
  | inf s =>
    cases b with
    | inf t => cases s <;> cases t <;> simp [Quantity.lt, Quantity.isNaN, Quantity.order]
    | _ => cases s <;> simp [Quantity.lt, Quantity.isNaN, Quantity.order]
  | fin s m =>
    cases b with
    | nan => simp [Quantity.lt, Quantity.isNaN]
    | inf t =>
      cases t
      · simp [Quantity.lt, Quantity.isNaN, Quantity.order]; exact order_lt_top _
      · simp [Quantity.lt, Quantity.isNaN, Quantity.order]
    | fin t n => simp [Quantity.lt, Quantity.isNaN, Quantity.order, toRat_fin_lt_iff]
    | exact q =>
      refine decide_eq_true_iff.trans ?_
      simp [Quantity.isNaN, Quantity.order]
  | exact p =>
    cases b with
    | nan => simp [Quantity.lt, Quantity.isNaN]
    | inf t =>
      cases t
      · simp [Quantity.lt, Quantity.isNaN, Quantity.order]; exact order_lt_top _
      · simp [Quantity.lt, Quantity.isNaN, Quantity.order]
    | fin t n =>
      refine decide_eq_true_iff.trans ?_
      simp [Quantity.isNaN, Quantity.order]
    | exact q =>
      refine decide_eq_true_iff.trans ?_
      simp [Quantity.isNaN, Quantity.order]

theorem Quantity.le_iff {a b : Quantity} :
    a.le b = true ↔ a.isNaN = false ∧ b.isNaN = false ∧ a.order ≤ b.order := by
  have h := @Quantity.lt_iff b a
  unfold Quantity.le
  cases ha : a.isNaN <;> cases hb : b.isNaN <;> simp [ha, hb] at h ⊢
  rw [← not_lt, ← h]
  simp

/-- Finite values compare as the rationals they are. -/
theorem Quantity.le_iff_toRat {a b : Quantity} (ha : a.finite = true) (hb : b.finite = true) :
    a.le b = true ↔ a.toRat ≤ b.toRat := by
  rw [Quantity.le_iff, order_of_finite ha, order_of_finite hb]
  simp [isNaN_of_finite ha, isNaN_of_finite hb]

theorem Quantity.le_trans {a b c : Quantity} (h : a.le b = true) (h' : b.le c = true) : a.le c = true := by
  rw [Quantity.le_iff] at *
  exact ⟨h.1, h'.2.1, h.2.2.trans h'.2.2⟩

theorem Quantity.le_of_lt {a b : Quantity} (h : a.lt b = true) : a.le b = true := by
  rw [Quantity.lt_iff] at h; rw [Quantity.le_iff]
  exact ⟨h.1, h.2.1, h.2.2.le⟩

theorem Quantity.le_refl {a : Quantity} (h : a.isNaN = false) : a.le a = true := by simp [Quantity.le_iff, h]

/-- `clamp` lands in `[lo, hi]` whatever `x` is, NaN included (R11). -/
theorem clamp_within (x : Quantity) {lo hi : Quantity} (h : lo.le hi = true) :
    lo.le (clamp x lo hi) = true ∧ (clamp x lo hi).le hi = true := by
  have hn := Quantity.le_iff.1 h
  unfold clamp Quantity.min Quantity.max
  by_cases h1 : lo.lt x = true
  · have hx := Quantity.lt_iff.1 h1
    by_cases h2 : x.lt hi = true
    · simp [h1, h2, Quantity.le_of_lt]
    · simp [h1, h2, h, Quantity.le_refl hn.2.1]
  · by_cases h2 : lo.lt hi = true
    · simp [h1, h2, Quantity.le_refl hn.1, h]
    · simp [h1, h2, Quantity.le_refl hn.2.1, h]

/-- `clamp` gives `hi` where the bounds are the wrong way round (decision D45). -/
theorem clamp_crossed (x : Quantity) {lo hi : Quantity} (h : hi.lt lo = true) : clamp x lo hi = hi := by
  have hn := Quantity.lt_iff.1 h
  have key : (x.max lo).lt hi = false := by
    rw [← Bool.not_eq_true]
    intro hc
    rw [Quantity.lt_iff] at hc
    unfold Quantity.max at hc
    split at hc
    · rename_i h1
      rw [Quantity.lt_iff] at h1
      exact lt_asymm (lt_trans h1.2.2 hc.2.2) hn.2.2
    · exact lt_asymm hc.2.2 hn.2.2
  simp [clamp, Quantity.min, key]

/-! ## Integers as values (00_scope.md R10) -/

theorem num_zero (dom : NumDomain) : (dom.num 0).finite = true ∧ (dom.num 0).toRat = 0 := by
  cases dom
  · exact ⟨by decide, by decide +kernel⟩
  · exact ⟨rfl, by simp [NumDomain.num]⟩

theorem num_one (dom : NumDomain) : (dom.num 1).finite = true ∧ (dom.num 1).toRat = 1 := by
  cases dom
  · exact ⟨by decide, by decide +kernel⟩
  · exact ⟨rfl, by simp [NumDomain.num]⟩

theorem num_zero_le_one (dom : NumDomain) : (dom.num 0).le (dom.num 1) = true := by
  rw [Quantity.le_iff_toRat (num_zero dom).1 (num_one dom).1, (num_zero dom).2, (num_one dom).2]
  exact zero_le_one

/-- `num` holds an integer exactly: in the rationals always, in binary32 below 2^24. -/
theorem num_exact {dom : NumDomain} {n : Nat} (h : dom = .rational ∨ n < 2 ^ 24) :
    (dom.num n).finite = true ∧ (dom.num n).toRat = n := by
  cases dom with
  | rational => exact ⟨rfl, rfl⟩
  | binary32 =>
    obtain ⟨m, hm, hv⟩ := Quantity.ofNat_exact (n := n) (by simpa using h)
    have e : NumDomain.binary32.num n = .fin false m := hm
    rw [e]
    refine ⟨rfl, ?_⟩
    rw [toRat_fin, div_eq_iff (ne_of_gt unit_pos_rat)]
    simp only [signedValue, Bool.false_eq_true, if_false, hv]
    push_cast
    rfl

theorem toRat_ofNat_nonneg (n : Nat) : 0 ≤ (Quantity.ofNat n).toRat := by
  unfold Quantity.ofNat Quantity.round Quantity.ofMag
  split
  · rw [toRat_fin]
    exact div_nonneg (by simp [signedValue]) unit_pos_rat.le
  · exact le_rfl

theorem num_nonneg (dom : NumDomain) (n : Nat) : 0 ≤ (dom.num n).toRat := by
  cases dom
  · exact toRat_ofNat_nonneg n
  · show (0 : ℚ) ≤ (n : ℚ)
    exact Nat.cast_nonneg n

/-- `num` of a natural number is finite, or it is positive infinity. -/
theorem num_finite_or_inf (dom : NumDomain) (n : Nat) : (dom.num n).finite = true ∨ dom.num n = .inf false := by
  cases dom
  · show (Quantity.ofNat n).finite = true ∨ Quantity.ofNat n = .inf false
    unfold Quantity.ofNat Quantity.round Quantity.ofMag
    split
    · exact Or.inl rfl
    · exact Or.inr rfl
  · exact Or.inl rfl

/-! ## Rational arithmetic (decision D1) -/

@[simp] theorem add_exact (p q : ℚ) : (Quantity.exact p).add (.exact q) = .exact (p + q) := rfl

@[simp] theorem sub_exact (p q : ℚ) : (Quantity.exact p).sub (.exact q) = .exact (p - q) := by
  rw [sub_eq_add_neg]; rfl

@[simp] theorem mul_exact (p q : ℚ) : (Quantity.exact p).mul (.exact q) = .exact (p * q) := rfl

theorem div_exact {p q : ℚ} (h : q ≠ 0) : (Quantity.exact p).div (.exact q) = .exact (p / q) := if_neg h

theorem div_exact_zero (p : ℚ) : (Quantity.exact p).div (.exact 0) = Quantity.overZero p  := by
  simp [Quantity.div, Quantity.toRat]

theorem overZero_not_finite (q : ℚ) : (Quantity.overZero q).finite = false := by
  unfold Quantity.overZero; split <;> rfl

/-! ## Operations stay in the domain -/

@[simp] theorem has_nan (d : NumDomain) : d.has .nan = true := rfl
@[simp] theorem has_inf (d : NumDomain) (s : Bool) : d.has (.inf s) = true := rfl
@[simp] theorem has_fin (d : NumDomain) (s : Bool) (m : Mag) : d.has (.fin s m) = decide (d = .binary32) := rfl
@[simp] theorem has_exact (d : NumDomain) (q : ℚ) : d.has (.exact q) = decide (d = .rational) := rfl

theorem has_of_not_finite {d : NumDomain} {x : Quantity} (h : x.finite = false) : d.has x = true := by
  cases x <;> first | rfl | cases h

@[simp] theorem has_round (neg : Bool) (n k : Nat) : NumDomain.binary32.has (Quantity.round neg n k) = true := by
  unfold Quantity.round Quantity.ofMag; split <;> rfl

theorem has_num (d : NumDomain) (n : Nat) : d.has (d.num n) = true := by
  cases d
  · exact has_round _ _ _
  · rfl

theorem has_ofBits_binary32 (b : Word) : NumDomain.binary32.has (Quantity.ofBits b) = true := by
  unfold Quantity.ofBits
  dsimp only
  split
  · rfl
  · split <;> rfl

/-- An `f32` field is a value of the domain (30_encoding.md R62). -/
theorem has_ofBits (d : NumDomain) (b : Word) : d.has (d.ofBits b) = true := by
  have h := has_ofBits_binary32 b
  unfold NumDomain.ofBits
  generalize Quantity.ofBits b = x at h
  cases d <;> cases x <;> first | rfl | cases h

theorem has_neg {d : NumDomain} {a : Quantity} (h : d.has a = true) : d.has a.neg = true := by
  cases a <;> exact h

theorem has_add {d : NumDomain} {a b : Quantity} (ha : d.has a = true) (hb : d.has b = true) : d.has (a.add b) = true := by
  cases d <;> cases a <;> cases b <;> first
    | rfl
    | (cases ha; done)
    | (cases hb; done)
    | exact ha
    | exact hb
    | (simp only [Quantity.add]; split <;> first | rfl | exact has_round _ _ _)

theorem has_sub {d : NumDomain} {a b : Quantity} (ha : d.has a = true) (hb : d.has b = true) : d.has (a.sub b) = true :=
  has_add ha (has_neg hb)

theorem has_mul {d : NumDomain} {a b : Quantity} (ha : d.has a = true) (hb : d.has b = true) : d.has (a.mul b) = true := by
  cases d <;> cases a <;> cases b <;> first
    | rfl
    | (cases ha; done)
    | (cases hb; done)
    | exact has_round _ _ _
    | (simp only [Quantity.mul]; split <;> rfl)

theorem has_div {d : NumDomain} {a b : Quantity} (ha : d.has a = true) (hb : d.has b = true) : d.has (a.div b) = true := by
  have hz (q : ℚ) : d.has (Quantity.overZero q) = true := has_of_not_finite (overZero_not_finite q)
  cases d <;> cases a <;> cases b <;> first
    | rfl
    | (cases ha; done)
    | (cases hb; done)
    | (simp only [Quantity.div]; split <;> first | exact hz _ | exact has_round _ _ _ | rfl | (split <;> rfl))

theorem has_min {d : NumDomain} {a b : Quantity} (ha : d.has a = true) (hb : d.has b = true) : d.has (a.min b) = true := by
  unfold Quantity.min; split <;> assumption

theorem has_max {d : NumDomain} {a b : Quantity} (ha : d.has a = true) (hb : d.has b = true) : d.has (a.max b) = true := by
  unfold Quantity.max; split <;> assumption

theorem has_clamp {d : NumDomain} {x lo hi : Quantity} (hx : d.has x = true) (hl : d.has lo = true) (hh : d.has hi = true) :
    d.has (clamp x lo hi) = true := has_min (has_max hx hl) hh

/-! ## Duties and compare values (41_control_tick.md R93) -/

/-- A value in `[0, 1]` is finite and is a rational in `[0, 1]`. -/
theorem within_unit {dom : NumDomain} {x : Quantity} (h0 : (dom.num 0).le x = true) (h1 : x.le (dom.num 1) = true) :
    x.finite = true ∧ 0 ≤ x.toRat ∧ x.toRat ≤ 1 := by
  have hf : x.finite = true := by
    rw [Quantity.le_iff, Quantity.order_of_finite (num_zero dom).1] at h0
    rw [Quantity.le_iff, Quantity.order_of_finite (num_one dom).1] at h1
    cases x with
    | nan => simp [Quantity.isNaN] at h0
    | inf s => cases s <;> simp [Quantity.order] at h0 h1
    | fin s m => rfl
    | exact q => rfl
  rw [Quantity.le_iff_toRat (num_zero dom).1 hf, (num_zero dom).2] at h0
  rw [Quantity.le_iff_toRat hf (num_one dom).1, (num_one dom).2] at h1
  exact ⟨hf, h0, h1⟩

theorem roundI_exact (q : ℚ) : roundI (.exact q) = if q < 0 then -(-q + 1 / 2).floor else (q + 1 / 2).floor := rfl

/-- `roundI` of a finite value of at most `a` is at most `a`. -/
theorem roundI_le {x : Quantity} {a : Nat} (hf : x.finite = true) (h : x.toRat ≤ a) : roundI x ≤ a := by
  cases x with
  | nan => cases hf
  | inf s => cases hf
  | exact q =>
    have hq : q ≤ (a : ℚ) := h
    rw [roundI_exact]
    split
    · rename_i hneg
      have : (0 : Int) ≤ (-q + 1 / 2).floor := by
        rw [Rat.le_floor_iff]; push_cast; linarith
      omega
    · rw [← Int.lt_add_one_iff, Rat.floor_lt_iff]
      push_cast
      linarith
  | fin s m =>
    rw [toRat_fin, div_le_iff₀ unit_pos_rat] at h
    have h' : signedValue s m ≤ (a : Int) * unit := by exact_mod_cast h
    cases s
    · have h2 : magValue m.val ≤ a * unit := by
        simp only [signedValue, Bool.false_eq_true, if_false] at h'
        exact_mod_cast h'
      have key : (2 * magValue m.val + unit) / (2 * unit) ≤ a := by
        have hu := unit_pos
        rw [← Nat.lt_succ_iff, Nat.div_lt_iff_lt_mul (by omega),
          show a.succ * (2 * unit) = 2 * (a * unit) + 2 * unit by rw [Nat.succ_eq_add_one]; ring]
        omega
      rw [show roundI (.fin false m) = (((2 * magValue m.val + unit) / (2 * unit) : Nat) : Int) from rfl]
      exact Int.ofNat_le.2 key
    · rw [show roundI (.fin true m) = -(((2 * magValue m.val + unit) / (2 * unit) : Nat) : Int) from rfl]
      generalize (2 * magValue m.val + unit) / (2 * unit) = k
      omega

/-- `roundI` of a finite value that is not negative is not negative. -/
theorem roundI_nonneg {x : Quantity} (hf : x.finite = true) (h : 0 ≤ x.toRat) : 0 ≤ roundI x := by
  cases x with
  | nan => cases hf
  | inf s => cases hf
  | exact q =>
    have hq : (0 : ℚ) ≤ q := h
    rw [roundI_exact, if_neg (not_lt.2 hq), Rat.le_floor_iff]
    push_cast
    linarith
  | fin s m =>
    rw [toRat_fin, le_div_iff₀ unit_pos_rat, zero_mul] at h
    have h' : 0 ≤ signedValue s m := by exact_mod_cast h
    cases s
    · exact Int.natCast_nonneg _
    · have h0 : magValue m.val ≤ magValue 0 := by simp [signedValue] at h' ⊢; omega
      have : m = ⟨0, by decide⟩ := Fin.ext (Nat.le_zero.1 (magValue_le_iff.1 h0))
      subst this
      decide

/-- A finite value that is not negative times a duty: finite, not negative, and at most the value. -/
theorem mul_duty {a x : Quantity} (ha : a.finite = true) (h0 : 0 ≤ a.toRat) (hx : x.finite = true)
    (hx0 : 0 ≤ x.toRat) (hx1 : x.toRat ≤ 1) :
    (a.mul x).finite = true ∧ 0 ≤ (a.mul x).toRat ∧ (a.mul x).toRat ≤ a.toRat := by
  have exact_case : 0 ≤ a.toRat * x.toRat ∧ a.toRat * x.toRat ≤ a.toRat :=
    ⟨mul_nonneg h0 hx0, mul_le_of_le_one_right h0 hx1⟩
  cases a with
  | nan => cases ha
  | inf s => cases ha
  | exact p =>
    cases x with
    | nan => cases hx
    | inf s => cases hx
    | fin t n => exact ⟨rfl, exact_case⟩
    | exact q => exact ⟨rfl, exact_case⟩
  | fin s m =>
    cases x with
    | nan => cases hx
    | inf s => cases hx
    | exact q => exact ⟨rfl, exact_case⟩
    | fin t n =>
      rw [toRat_fin, le_div_iff₀ unit_pos_rat, zero_mul] at h0 hx0
      rw [toRat_fin, div_le_one unit_pos_rat] at hx1
      have hs0 : 0 ≤ signedValue s m := by exact_mod_cast h0
      have ht0 : 0 ≤ signedValue t n := by exact_mod_cast hx0
      have ht1 : signedValue t n ≤ unit := by exact_mod_cast hx1
      have hround : roundMag (magValue m.val * magValue n.val) unit ≤ m.val := by
        apply roundMag_le unit_pos
        rw [Nat.mul_comm]
        apply Nat.mul_le_mul_right
        cases t <;> simp [signedValue] at ht0 ht1
        · exact ht1
        · omega
      have hlt : roundMag (magValue m.val * magValue n.val) unit < 2139095040 := Nat.lt_of_le_of_lt hround m.isLt
      have e : (Quantity.fin s m).mul (.fin t n) = .fin (s ^^ t) ⟨_, hlt⟩ := Quantity.ofMag_lt hlt
      have hv := magValue_le_iff.2 hround
      have zero_of {b : Bool} {k : Mag} (h : 0 ≤ signedValue b k) (hb : b = true) : magValue k.val = 0 := by
        subst hb; simp [signedValue] at h; omega
      have hz : (s ^^ t) = true → magValue (roundMag (magValue m.val * magValue n.val) unit) = 0 := by
        intro hst
        have : magValue m.val * magValue n.val = 0 := by
          cases s <;> cases t <;> simp at hst
          · rw [zero_of ht0 rfl, Nat.mul_zero]
          · rw [zero_of hs0 rfl, Nat.zero_mul]
        rw [this, roundMag_zero, magValue_zero]
      have hsm : signedValue s m = magValue m.val := by
        cases s
        · rfl
        · simp [signedValue, zero_of hs0 rfl]
      rw [e]
      have hp : signedValue (s ^^ t) ⟨_, hlt⟩ = magValue (roundMag (magValue m.val * magValue n.val) unit) := by
        unfold signedValue
        split
        · rename_i h; simp [hz h]
        · rfl
      refine ⟨rfl, ?_, ?_⟩
      · rw [toRat_fin, hp]
        exact div_nonneg (by exact_mod_cast Nat.zero_le _) unit_pos_rat.le
      · rw [toRat_fin, toRat_fin, hp, hsm, div_le_div_iff_of_pos_right unit_pos_rat]
        exact_mod_cast hv

/-- A value that is not negative divided by a larger finite one is a duty. -/
theorem div_ratio {x a : Quantity} (hx : x.finite = true) (ha : a.finite = true) (h0 : 0 ≤ x.toRat)
    (hlt : x.toRat < a.toRat) : (x.div a).finite = true ∧ 0 ≤ (x.div a).toRat ∧ (x.div a).toRat ≤ 1 := by
  have hpos : 0 < a.toRat := lt_of_le_of_lt h0 hlt
  have exact_case : (if a.toRat = 0 then Quantity.overZero x.toRat else .exact (x.toRat / a.toRat)) =
      .exact (x.toRat / a.toRat) := if_neg (ne_of_gt hpos)
  have bounds : 0 ≤ x.toRat / a.toRat ∧ x.toRat / a.toRat ≤ 1 :=
    ⟨div_nonneg h0 hpos.le, (div_le_one hpos).2 hlt.le⟩
  cases x with
  | nan => cases hx
  | inf s => cases hx
  | exact p =>
    have e : (Quantity.exact p).div a = .exact ((Quantity.exact p).toRat / a.toRat) := by
      cases a with
      | nan => cases ha
      | inf s => cases ha
      | fin t n => exact exact_case
      | exact q => exact exact_case
    rw [e]; exact ⟨rfl, bounds⟩
  | fin s m =>
    cases a with
    | nan => cases ha
    | inf s => cases ha
    | exact q => rw [show (Quantity.fin s m).div (.exact q) = _ from exact_case]; exact ⟨rfl, bounds⟩
    | fin t n =>
      rw [toRat_fin, le_div_iff₀ unit_pos_rat, zero_mul] at h0
      rw [toRat_fin, lt_div_iff₀ unit_pos_rat, zero_mul] at hpos
      rw [toRat_fin, toRat_fin, div_lt_div_iff_of_pos_right unit_pos_rat] at hlt
      have hs : 0 ≤ signedValue s m := by exact_mod_cast h0
      have ht : 0 < signedValue t n := by exact_mod_cast hpos
      have hst : signedValue s m < signedValue t n := by exact_mod_cast hlt
      have ht' : t = false := by
        cases t
        · rfl
        · simp [signedValue] at ht; omega
      subst ht'
      have hn : 0 < magValue n.val := by simpa [signedValue] using ht
      have hmn : magValue m.val ≤ magValue n.val := by
        cases s <;> simp [signedValue] at hs hst <;> omega
      have hn0 : n.val ≠ 0 := by intro h; rw [h] at hn; simp at hn
      have hround : roundMag (magValue m.val * unit) (magValue n.val) ≤ 0x3F800000 := by
        apply roundMag_le hn
        rw [magValue_one]
        exact Nat.mul_le_mul_right _ hmn
      have hlt' : roundMag (magValue m.val * unit) (magValue n.val) < 2139095040 := by omega
      have e : (Quantity.fin s m).div (.fin false n) = .fin s ⟨_, hlt'⟩ := by
        simp only [Quantity.div, if_neg hn0, Bool.xor_false]
        exact Quantity.ofMag_lt hlt'
      have hz : s = true → roundMag (magValue m.val * unit) (magValue n.val) = 0 := by
        intro h; subst h
        have : magValue m.val = 0 := by simp [signedValue] at hs; omega
        rw [this, Nat.zero_mul, roundMag_zero]
      have hp : signedValue s ⟨_, hlt'⟩ = magValue (roundMag (magValue m.val * unit) (magValue n.val)) := by
        unfold signedValue
        split
        · rename_i h; simp [hz h]
        · rfl
      rw [e]
      refine ⟨rfl, ?_, ?_⟩
      · rw [toRat_fin, hp]
        exact div_nonneg (by exact_mod_cast Nat.zero_le _) unit_pos_rat.le
      · rw [toRat_fin, hp, div_le_one unit_pos_rat, ← magValue_one]
        exact_mod_cast magValue_le_iff.2 hround

/-- `DUTYCCR(d)` is in `[0, HW.PWM_ARR]` for a duty and a reload that `num` holds exactly (41_control_tick.md R93). -/
theorem dutyCcr_range {dom : NumDomain} {arr : Nat} {d : Quantity} (ha : dom = .rational ∨ arr < 2 ^ 24)
    (h0 : (dom.num 0).le d = true) (h1 : d.le (dom.num 1) = true) :
    0 ≤ dutyCcr dom arr d ∧ dutyCcr dom arr d ≤ arr := by
  obtain ⟨hf, hv⟩ := num_exact ha
  obtain ⟨hd, hd0, hd1⟩ := within_unit h0 h1
  obtain ⟨hm, hm0, hm1⟩ := mul_duty hf (num_nonneg dom arr) hd hd0 hd1
  exact ⟨roundI_nonneg hm hm0, roundI_le hm (hv ▸ hm1)⟩

/-- A limit that `DUTYCCR` passes is below the reload's `num`. -/
theorem limit_lt_of_lt_dutyCcr {dom : NumDomain} {arr limit : Nat} {d : Quantity} (ha : (dom.num arr).finite = true)
    (h0 : (dom.num 0).le d = true) (h1 : d.le (dom.num 1) = true) (h : (limit : Int) < dutyCcr dom arr d) :
    (limit : ℚ) < (dom.num arr).toRat := by
  obtain ⟨hd, hd0, hd1⟩ := within_unit h0 h1
  obtain ⟨hm, -, hm1⟩ := mul_duty ha (num_nonneg dom arr) hd hd0 hd1
  by_contra hle
  have := roundI_le hm (hm1.trans (not_lt.1 hle))
  unfold dutyCcr at h
  omega

/-! ## PWM timer registers (10_state.md R26) -/

theorem registerValue_of_fits {p : Params} {n : Int} (h0 : 0 ≤ n) (h : n ≤ p.tmax) : registerValue p n = n.toNat :=
  if_pos ⟨h0, h⟩

/-- A register holds a value of its width. -/
theorem registerValue_le_tmax (p : Params) (n : Int) : registerValue p n ≤ p.tmax := by
  unfold registerValue
  split
  · omega
  · have := Nat.mod_lt (Config.freeRegister p.timerBits n) (Nat.two_pow_pos p.timerBits)
    unfold Params.tmax
    omega

/-- `num` of a register value is exact (00_scope.md R10). -/
theorem Params.exact_of_le_tmax {p : Params} {n : Nat} (h : p.num = .rational ∨ p.timerBits ≤ 24) (hn : n ≤ p.tmax) :
    p.num = .rational ∨ n < 2 ^ 24 := by
  refine h.imp_right fun h => ?_
  have h2 : 2 ^ p.timerBits ≤ 2 ^ 24 := Nat.pow_le_pow_right (by decide) h
  have := Nat.two_pow_pos p.timerBits
  unfold Params.tmax at hn; omega

/-- A compare value of a duty is stored as it is, and is within the reload, where `num` is exact. -/
theorem registerValue_dutyCcr {p : Params} {arr : Nat} {d : Quantity} (hp : p.num = .rational ∨ p.timerBits ≤ 24)
    (ha : arr ≤ p.tmax) (h0 : (p.num.num 0).le d = true) (h1 : d.le (p.num.num 1) = true) :
    (registerValue p (dutyCcr p.num arr d) : Int) = dutyCcr p.num arr d ∧ registerValue p (dutyCcr p.num arr d) ≤ arr := by
  obtain ⟨hl, hu⟩ := dutyCcr_range (Params.exact_of_le_tmax hp ha) h0 h1
  rw [registerValue_of_fits hl (by omega)]
  omega

/-! ## Model instances -/

theorem Params.wf_iff {p : Params} :
    p.wf = true ↔
      p.clockOk = true ∧ p.channelsOk = true ∧ p.ringOk = true ∧ p.skipOk = true ∧ p.disc.wf = true ∧
        p.numbersOk = true := by
  simp [Params.wf, and_assoc]

theorem Params.ringCap_pos {p : Params} (h : p.wf = true) : 0 < p.ringCap := by
  obtain ⟨-, -, hr, -⟩ := Params.wf_iff.1 h
  simp [Params.ringOk] at hr
  by_contra h0
  rw [Nat.eq_zero_of_not_pos h0] at hr
  simp at hr
  omega

/-! ## FREQCALC (41_control_tick.md R92) -/

/-- When FREQCALC gives a triple, its operands were in the domain of decision D11. -/
theorem freqCalc_domain {p : Params} {f d : Quantity} {r : PwmRegs} (h : freqCalc p f d = some r) :
    f.finite = true ∧ (p.num.num 0).lt f = true ∧ d.isNaN = false := by
  unfold freqCalc at h
  split at h
  · cases h
  · rename_i hc
    simp [and_assoc] at hc
    exact hc

/-- The triple is of register values, and "`compare ≤ reload`" where `num` is exact (R92, decisions D11, D12). -/
theorem freqCalc_range {p : Params} {f d : Quantity} {r : PwmRegs} (h : freqCalc p f d = some r) :
    r.psc ≤ p.tmax ∧ r.arr ≤ p.tmax ∧ r.ccr ≤ p.tmax ∧ ((p.num = .rational ∨ p.timerBits ≤ 24) → r.ccr ≤ r.arr) := by
  unfold freqCalc at h
  dsimp only at h
  split at h
  · cases h
  · split at h
    · cases h
    · split at h
      · cases h
      · rename_i hpsc
        have hd := clamp_within d (num_zero_le_one p.num)
        generalize roundI _ = n at h
        have ha := Nat.min_le_right n.toNat p.tmax
        generalize Min.min n.toNat p.tmax = arr at h ha
        simp only [Option.some.injEq] at h
        subst h
        exact ⟨Nat.not_lt.1 hpsc, ha, registerValue_le_tmax _ _,
          fun hp => (registerValue_dutyCcr hp ha hd.1 hd.2).2⟩

/-- The idle default is of register values (40_mode_controller.md R81). -/
theorem idleRegs_range (p : Params) :
    (idleRegs p).psc ≤ p.tmax ∧ (idleRegs p).arr ≤ p.tmax ∧ (idleRegs p).ccr ≤ p.tmax ∧
      ((p.num = .rational ∨ p.timerBits ≤ 24) → (idleRegs p).ccr ≤ (idleRegs p).arr) := by
  unfold idleRegs
  split
  · exact freqCalc_range ‹_›
  · exact ⟨Nat.le_refl _, Nat.le_refl _, registerValue_le_tmax _ _, fun _ => registerValue_le_tmax _ _⟩

end Sys2Proof
end

