-- ==== Sys2Proof/Laws/State.lean ====
section
/-! SUPPORT. One lemma per part of the state per update, so that no proof unfolds a record update. -/

namespace Sys2Proof.Machine

variable (s : State)

@[simp] theorem setArmed_params (b : Bool) : (setArmed b s).params = s.params := rfl
@[simp] theorem setArmed_blk (b : Bool) : (setArmed b s).blk = { s.blk with cap := { s.blk.cap with armed := b } } := rfl
@[simp] theorem setArmed_hw (b : Bool) : (setArmed b s).hw = s.hw := rfl
@[simp] theorem setArmed_ring (b : Bool) : (setArmed b s).ring = s.ring := rfl
@[simp] theorem setArmed_env (b : Bool) : (setArmed b s).env = s.env := rfl

@[simp] theorem setFull_params (b : Bool) : (setFull b s).params = s.params := rfl
@[simp] theorem setFull_blk (b : Bool) : (setFull b s).blk = { s.blk with cap := { s.blk.cap with full := b } } := rfl
@[simp] theorem setFull_hw (b : Bool) : (setFull b s).hw = s.hw := rfl
@[simp] theorem setFull_ring (b : Bool) : (setFull b s).ring = s.ring := rfl
@[simp] theorem setFull_env (b : Bool) : (setFull b s).env = s.env := rfl

@[simp] theorem setRunning_params (b : Bool) : (setRunning b s).params = s.params := rfl
@[simp] theorem setRunning_blk (b : Bool) : (setRunning b s).blk = { s.blk with running := b } := rfl
@[simp] theorem setRunning_hw (b : Bool) : (setRunning b s).hw = s.hw := rfl
@[simp] theorem setRunning_ring (b : Bool) : (setRunning b s).ring = s.ring := rfl
@[simp] theorem setRunning_env (b : Bool) : (setRunning b s).env = s.env := rfl

@[simp] theorem setTickPending_params (b : Bool) : (setTickPending b s).params = s.params := rfl
@[simp] theorem setTickPending_blk (b : Bool) : (setTickPending b s).blk = { s.blk with tickPending := b } := rfl
@[simp] theorem setTickPending_hw (b : Bool) : (setTickPending b s).hw = s.hw := rfl
@[simp] theorem setTickPending_ring (b : Bool) : (setTickPending b s).ring = s.ring := rfl
@[simp] theorem setTickPending_env (b : Bool) : (setTickPending b s).env = s.env := rfl

@[simp] theorem setReg_params (r : Regulator) : (setReg r s).params = s.params := rfl
@[simp] theorem setReg_blk (r : Regulator) : (setReg r s).blk = { s.blk with reg := r } := rfl
@[simp] theorem setReg_hw (r : Regulator) : (setReg r s).hw = s.hw := rfl
@[simp] theorem setReg_ring (r : Regulator) : (setReg r s).ring = s.ring := rfl
@[simp] theorem setReg_env (r : Regulator) : (setReg r s).env = s.env := rfl

@[simp] theorem setPwmRun_params (b : Bool) : (setPwmRun b s).params = s.params := rfl
@[simp] theorem setPwmRun_blk (b : Bool) : (setPwmRun b s).blk = s.blk := rfl
@[simp] theorem setPwmRun_hw (b : Bool) : (setPwmRun b s).hw = { s.hw with pwmRun := b } := rfl
@[simp] theorem setPwmRun_ring (b : Bool) : (setPwmRun b s).ring = s.ring := rfl
@[simp] theorem setPwmRun_env (b : Bool) : (setPwmRun b s).env = s.env := rfl

@[simp] theorem setPwmOe_params (b : Bool) : (setPwmOe b s).params = s.params := rfl
@[simp] theorem setPwmOe_blk (b : Bool) : (setPwmOe b s).blk = s.blk := rfl
@[simp] theorem setPwmOe_hw (b : Bool) : (setPwmOe b s).hw = { s.hw with pwmOe := b } := rfl
@[simp] theorem setPwmOe_ring (b : Bool) : (setPwmOe b s).ring = s.ring := rfl
@[simp] theorem setPwmOe_env (b : Bool) : (setPwmOe b s).env = s.env := rfl

@[simp] theorem setCtrlRun_params (b : Bool) : (setCtrlRun b s).params = s.params := rfl
@[simp] theorem setCtrlRun_blk (b : Bool) : (setCtrlRun b s).blk = s.blk := rfl
@[simp] theorem setCtrlRun_hw (b : Bool) : (setCtrlRun b s).hw = { s.hw with ctrlRun := b } := rfl
@[simp] theorem setCtrlRun_ring (b : Bool) : (setCtrlRun b s).ring = s.ring := rfl
@[simp] theorem setCtrlRun_env (b : Bool) : (setCtrlRun b s).env = s.env := rfl

@[simp] theorem setAdcRun_params (b : Bool) : (setAdcRun b s).params = s.params := rfl
@[simp] theorem setAdcRun_blk (b : Bool) : (setAdcRun b s).blk = s.blk := rfl
@[simp] theorem setAdcRun_hw (b : Bool) : (setAdcRun b s).hw = { s.hw with adcRun := b } := rfl
@[simp] theorem setAdcRun_ring (b : Bool) : (setAdcRun b s).ring = s.ring := rfl
@[simp] theorem setAdcRun_env (b : Bool) : (setAdcRun b s).env = s.env := rfl

@[simp] theorem setPwmRegs_params (r : PwmRegs) : (setPwmRegs r s).params = s.params := rfl
@[simp] theorem setPwmRegs_blk (r : PwmRegs) : (setPwmRegs r s).blk = s.blk := rfl
@[simp] theorem setPwmRegs_hw (r : PwmRegs) : (setPwmRegs r s).hw = { s.hw with pwmPsc := r.psc, pwmArr := r.arr, pwmCcr := r.ccr } := rfl
@[simp] theorem setPwmRegs_ring (r : PwmRegs) : (setPwmRegs r s).ring = s.ring := rfl
@[simp] theorem setPwmRegs_env (r : PwmRegs) : (setPwmRegs r s).env = s.env := rfl

@[simp] theorem setPwmCcr_params (c : Int) : (setPwmCcr c s).params = s.params := rfl
@[simp] theorem setPwmCcr_blk (c : Int) : (setPwmCcr c s).blk = s.blk := rfl
@[simp] theorem setPwmCcr_hw (c : Int) : (setPwmCcr c s).hw = { s.hw with pwmCcr := registerValue s.params c } := rfl
@[simp] theorem setPwmCcr_ring (c : Int) : (setPwmCcr c s).ring = s.ring := rfl
@[simp] theorem setPwmCcr_env (c : Int) : (setPwmCcr c s).env = s.env := rfl

@[simp] theorem setOutcome_params (o : OpOutcome) : (setOutcome o s).params = s.params := rfl
@[simp] theorem setOutcome_blk (o : OpOutcome) : (setOutcome o s).blk = s.blk := rfl
@[simp] theorem setOutcome_hw (o : OpOutcome) : (setOutcome o s).hw = s.hw := rfl
@[simp] theorem setOutcome_ring (o : OpOutcome) : (setOutcome o s).ring = s.ring := rfl
@[simp] theorem setOutcome_env (o : OpOutcome) : (setOutcome o s).env = { s.env with outcome := o } := rfl

@[simp] theorem tickEntry_params : (tickEntry s).params = s.params := rfl
@[simp] theorem tickEntry_blk : (tickEntry s).blk = { s.blk with tickPending := false } := rfl
@[simp] theorem tickEntry_hw : (tickEntry s).hw = s.hw := rfl
@[simp] theorem tickEntry_ring : (tickEntry s).ring = s.ring := rfl
@[simp] theorem tickEntry_env : (tickEntry s).env = s.env := rfl

@[simp] theorem tickReturn_params (o : OpOutcome) : (tickReturn o s).params = s.params := rfl
@[simp] theorem tickReturn_blk (o : OpOutcome) : (tickReturn o s).blk = s.blk := rfl
@[simp] theorem tickReturn_hw (o : OpOutcome) : (tickReturn o s).hw = s.hw := rfl
@[simp] theorem tickReturn_ring (o : OpOutcome) : (tickReturn o s).ring = s.ring := rfl
@[simp] theorem tickReturn_env (o : OpOutcome) : (tickReturn o s).env = { s.env with outcome := o } := rfl

@[simp] theorem startSend_params (k : SendKind) (m : List Byte) : (startSend k m s).params = s.params := rfl
@[simp] theorem startSend_blk (k : SendKind) (m : List Byte) : (startSend k m s).blk = { s.blk with hk := { s.blk.hk with outbox := some ⟨k, m⟩ } } := rfl
@[simp] theorem startSend_hw (k : SendKind) (m : List Byte) : (startSend k m s).hw = s.hw := rfl
@[simp] theorem startSend_ring (k : SendKind) (m : List Byte) : (startSend k m s).ring = s.ring := rfl
@[simp] theorem startSend_env (k : SendKind) (m : List Byte) : (startSend k m s).env = s.env := rfl

@[simp] theorem emit_params (o : Output) : (emit o s).params = s.params := rfl
@[simp] theorem emit_blk (o : Output) : (emit o s).blk = s.blk := rfl
@[simp] theorem emit_hw (o : Output) : (emit o s).hw = s.hw := rfl
@[simp] theorem emit_ring (o : Output) : (emit o s).ring = s.ring := rfl
@[simp] theorem emit_env (o : Output) : (emit o s).env = { s.env with outputs := s.env.outputs ++ [o] } := rfl

@[simp] theorem setBackground_params (b : Background) : (setBackground b s).params = s.params := rfl
@[simp] theorem setBackground_blk (b : Background) : (setBackground b s).blk = s.blk := rfl
@[simp] theorem setBackground_hw (b : Background) : (setBackground b s).hw = s.hw := rfl
@[simp] theorem setBackground_ring (b : Background) : (setBackground b s).ring = s.ring := rfl
@[simp] theorem setBackground_env (b : Background) : (setBackground b s).env = { s.env with background := b } := rfl

@[simp] theorem startSubmit_params (c : List Byte) : (startSubmit c s).params = s.params := rfl
@[simp] theorem startSubmit_blk (c : List Byte) : (startSubmit c s).blk = s.blk := rfl
@[simp] theorem startSubmit_hw (c : List Byte) : (startSubmit c s).hw = s.hw := rfl
@[simp] theorem startSubmit_ring (c : List Byte) : (startSubmit c s).ring = s.ring := rfl
@[simp] theorem startSubmit_env (c : List Byte) : (startSubmit c s).env = { s.env with background := .submitting c } := rfl

@[simp] theorem setInputs_params (l : List Input) : (setInputs l s).params = s.params := rfl
@[simp] theorem setInputs_blk (l : List Input) : (setInputs l s).blk = s.blk := rfl
@[simp] theorem setInputs_hw (l : List Input) : (setInputs l s).hw = s.hw := rfl
@[simp] theorem setInputs_ring (l : List Input) : (setInputs l s).ring = s.ring := rfl
@[simp] theorem setInputs_env (l : List Input) : (setInputs l s).env = { s.env with inputs := l } := rfl

@[simp] theorem timerCount_params (v : Nat) : (timerCount v s).params = s.params := rfl
@[simp] theorem timerCount_blk (v : Nat) : (timerCount v s).blk = s.blk := rfl
@[simp] theorem timerCount_hw (v : Nat) : (timerCount v s).hw = { s.hw with ctrlCnt := v % 2 ^ s.params.ctrlCntBits } := rfl
@[simp] theorem timerCount_ring (v : Nat) : (timerCount v s).ring = s.ring := rfl
@[simp] theorem timerCount_env (v : Nat) : (timerCount v s).env = s.env := rfl

@[simp] theorem requestTick_params (b : Bool) : (requestTick b s).params = s.params := by
  unfold requestTick; split <;> rfl
@[simp] theorem requestTick_hw (b : Bool) : (requestTick b s).hw = s.hw := by
  unfold requestTick; split <;> rfl
@[simp] theorem requestTick_ring (b : Bool) : (requestTick b s).ring = s.ring := by
  unfold requestTick; split <;> rfl
@[simp] theorem requestTick_env (b : Bool) : (requestTick b s).env = s.env := by
  unfold requestTick; split <;> rfl
@[simp] theorem requestTick_blk (b : Bool) :
    (requestTick b s).blk = { s.blk with tickPending := s.blk.tickPending || (b && s.hw.ctrlRun) } := by
  unfold requestTick
  by_cases h : (b && s.hw.ctrlRun) = true
  · simp [h, setTickPending]
  · simp [h]

@[simp] theorem setPwmRegsIf_params (r : Option PwmRegs) : (setPwmRegsIf r s).params = s.params := by
  cases r <;> rfl
@[simp] theorem setPwmRegsIf_blk (r : Option PwmRegs) : (setPwmRegsIf r s).blk = s.blk := by
  cases r <;> rfl
@[simp] theorem setPwmRegsIf_ring (r : Option PwmRegs) : (setPwmRegsIf r s).ring = s.ring := by
  cases r <;> rfl
@[simp] theorem setPwmRegsIf_env (r : Option PwmRegs) : (setPwmRegsIf r s).env = s.env := by
  cases r <;> rfl
@[simp] theorem setPwmRegsIf_none : setPwmRegsIf none s = s := rfl
@[simp] theorem setPwmRegsIf_some (r : PwmRegs) : setPwmRegsIf (some r) s = setPwmRegs r s := rfl

@[simp] theorem engineSample_params (v : Half) : (engineSample v s).params = s.params := by
  unfold engineSample; split <;> rfl
@[simp] theorem engineSample_blk (v : Half) : (engineSample v s).blk = s.blk := by
  unfold engineSample; split <;> rfl
@[simp] theorem engineSample_env (v : Half) : (engineSample v s).env = s.env := by
  unfold engineSample; split <;> rfl

/-- `S.mode` is the tag of the installed record. -/
@[simp] theorem mode_eq : s.mode = s.blk.reg.mode := rfl

end Sys2Proof.Machine
end

