-- ==== Sys2Proof/Laws/Ops.lean ====
section
/-! SUPPORT. What each shared operation can do: append and log, transition, housekeeping steps, send attempts. -/

namespace Sys2Proof.Machine

/-! ## Append and log (41_control_tick.md R89, R95) -/

theorem appendRecord_full {rec : List Byte} {s : State} (h : s.params.capCapacity < s.blk.cap.cursor + rec.length) :
    appendRecord rec s = .next (setFull true s) := if_pos h

theorem appendRecord_fits {rec : List Byte} {s : State} (h : s.blk.cap.cursor + rec.length ≤ s.params.capCapacity) :
    appendRecord rec s =
      .next
        { s with
          blk :=
            { s.blk with
              cap :=
                { s.blk.cap with
                  buf := s.blk.cap.buf.writeRange s.blk.cap.cursor rec
                  cursor := s.blk.cap.cursor + rec.length } } } := by
  rw [appendRecord, if_neg (Nat.not_lt.2 h), capWrite, if_pos h]

/-- The capture after a log of `rec`. -/
def loggedCapture (capacity : Nat) (rec : List Byte) (c : Capture) : Capture :=
  if c.armed && !c.full then
    if capacity < c.cursor + rec.length then { c with full := true }
    else { c with buf := c.buf.writeRange c.cursor rec, cursor := c.cursor + rec.length }
  else c

/-- A conditional append never stops, and touches the capture only. -/
theorem append_if_capturing (rec : List Byte) (s : State) :
    (if capturing s then appendRecord rec s else .next s) =
      .next { s with blk := { s.blk with cap := loggedCapture s.params.capCapacity rec s.blk.cap } } := by
  unfold loggedCapture
  by_cases hc : capturing s = true
  · rw [if_pos hc, if_pos (by simpa [capturing] using hc)]
    by_cases h : s.params.capCapacity < s.blk.cap.cursor + rec.length
    · rw [appendRecord_full h, if_pos h]; rfl
    · rw [appendRecord_fits (Nat.not_lt.1 h), if_neg h]
  · rw [if_neg hc, if_neg (by simpa [capturing] using hc)]

theorem logRecord6_eq (a0 : Quantity) (s : State) :
    logRecord6 a0 s =
      .next
        { s with blk := { s.blk with cap := loggedCapture s.params.capCapacity (record6 a0 s.hw.pwmCcr) s.blk.cap } } :=
  append_if_capturing _ s

theorem loggedCapture_logged {capacity : Nat} {rec : List Byte} {c : Capture} (h : c.buf.wf = true) :
    Logged capacity c rec (loggedCapture capacity rec c) := by
  unfold Logged loggedCapture
  by_cases hc : c.armed = true ∧ c.full = false
  · have hb : (c.armed && !c.full) = true := by simp [hc]
    rw [if_pos hc, if_pos hb]
    split
    · rfl
    · refine ⟨rfl, hc.1, hc.2, Memory.wf_writeRange _ _ h, fun k hk => ?_, fun a ha => ?_⟩
      · simp only
        rw [Memory.read_writeRange h, dif_pos (by omega)]
        simp
      · exact Memory.read_writeRange_outside h _ ha
  · have hb : ¬(c.armed && !c.full) = true := by simpa using hc
    rw [if_neg hc, if_neg hb]

@[simp] theorem loggedCapture_armed (capacity : Nat) (rec : List Byte) (c : Capture) :
    (loggedCapture capacity rec c).armed = c.armed := by
  unfold loggedCapture; split <;> try split
  all_goals rfl

theorem loggedCapture_of_full {capacity : Nat} {rec : List Byte} {c : Capture} (h : c.full = true) :
    loggedCapture capacity rec c = c := by simp [loggedCapture, h]

theorem loggedCapture_cursor_le {capacity : Nat} {rec : List Byte} {c : Capture} (h : c.cursor ≤ capacity) :
    (loggedCapture capacity rec c).cursor ≤ capacity := by
  unfold loggedCapture; split <;> try split
  · exact h
  · simp only; omega
  · exact h

theorem loggedCapture_wf {capacity : Nat} {rec : List Byte} {c : Capture} (h : c.buf.wf = true) :
    (loggedCapture capacity rec c).buf.wf = true := by
  unfold loggedCapture; split <;> try split
  · exact h
  · exact Memory.wf_writeRange _ _ h
  · exact h

/-! ## Feedback -/

/-- The feedback reads the parameters, the write position and the ring. -/
theorem feedback_congr {s t : State} (hp : s.params = t.params) (hd : s.hw.dmaPos = t.hw.dmaPos) (hr : s.ring = t.ring) :
    feedback s = feedback t := by
  have hs : ∀ base c n, windowSum s base c n = windowSum t base c n := by
    intro base c n
    induction n with
    | zero => rfl
    | succ n ih => simp only [windowSum, ringRead, ih, hp, hr]
  simp only [feedback, channelAvg, scale, frameBase, hs, hp, hd]

/-! ## Transition (40_mode_controller.md R79 to R82) -/

/-- What a transition leaves. -/
theorem transition_eq (reg : Regulator) (regs : Option PwmRegs) (running : Bool) (s : State) :
    transition reg regs running s =
      { params := s.params
        blk := { s.blk with reg := reg, running := running, cap := { s.blk.cap with armed := false }, tickPending := false }
        hw :=
          { pwmPsc := (regs.getD (idleRegs s.params)).psc
            pwmArr := (regs.getD (idleRegs s.params)).arr
            pwmCcr := (regs.getD (idleRegs s.params)).ccr
            pwmRun := true
            pwmOe := running
            ctrlRun := true
            ctrlCnt := s.hw.ctrlCnt
            adcRun := true
            dmaPos := Config.freeDmaPos s.env.draws % s.params.ringCap
            adcSmpr := s.params.smprDefault }
        ring := s.ring
        env := { s.env with draws := s.env.draws + 1 } } := by
  cases regs <;> rfl

theorem whenBackgroundFree_none {s : State} {op : State → Result} (h : s.blk.hk.outbox = none) :
    whenBackgroundFree s op = op s := by simp [whenBackgroundFree, h]

theorem whenBackgroundFree_eq_next {s t : State} {op : State → Result} (h : whenBackgroundFree s op = .next t) :
    s.blk.hk.outbox = none ∧ op s = .next t := by
  unfold whenBackgroundFree at h
  split at h
  · cases h
  · rename_i ho
    exact ⟨by simpa using ho, h⟩

theorem configure_none {s : State} (h : s.blk.hk.outbox = none) (reg : Regulator) (regs : Option PwmRegs)
    (running : Bool) : configure reg regs running s = .next (setOutcome .ok (transition reg regs running s)) :=
  whenBackgroundFree_none h

/-- A config operation's next state, and when it has one. -/
theorem configure_eq_next {s t : State} {reg : Regulator} {regs : Option PwmRegs} {running : Bool}
    (h : configure reg regs running s = .next t) :
    s.blk.hk.outbox = none ∧ t = setOutcome .ok (transition reg regs running s) := by
  obtain ⟨ho, h⟩ := whenBackgroundFree_eq_next h
  exact ⟨ho, (Host.Outcome.next.inj h).symm⟩

/-- A transition leaves a configured state. -/
theorem transition_configured {s : State} (hp : 0 < s.params.ringCap) (reg : Regulator) (regs : Option PwmRegs)
    (running : Bool) :
    Configured s (setOutcome .ok (transition reg regs running s)) reg (regs.getD (idleRegs s.params)) running :=
  ⟨_, Nat.mod_lt (Config.freeDmaPos s.env.draws) hp, by rw [transition_eq]; rfl⟩

/-! ## The arm command -/

theorem execCmdArm_eq_next {s t : State} (h : execCmdArm s = .next t) :
    s.blk.hk.outbox = none ∧
      t =
        { s with
          blk := { s.blk with cap := { buf := s.blk.cap.buf, cursor := 0, armed := true, full := false } }
          env := { s.env with outcome := .ok } } := by
  obtain ⟨ho, h⟩ := whenBackgroundFree_eq_next h
  exact ⟨ho, (Host.Outcome.next.inj h).symm⟩

/-! ## Housekeeping -/

/-- The telemetry step starts a send outside Idle, or does nothing. -/
theorem telemetryStep_cases (now : Quantity) (s : State) :
    telemetryStep now s = s ∨
      (s.mode ≠ .idle ∧
        telemetryStep now s =
          { s with
            blk :=
              { s.blk with
                hk :=
                  { lastTelemetry := some now
                    outbox := some ⟨.telemetry, s.params.disc.telemetry :: Config.telemetry s.blk s.hw⟩ } } }) := by
  unfold telemetryStep
  split
  · exact Or.inr ⟨(by assumption : _ ∧ _).1, rfl⟩
  · exact Or.inl rfl

/-- The rest of an HK that has flushed starts a telemetry send outside Idle, or ends. -/
theorem resumeHk_cases (now : Quantity) (s : State) :
    resumeHk now s = setOutcome .ok (setBackground .idle s) ∨
      (s.mode ≠ .idle ∧
        resumeHk now s =
          setOutcome .ok
            (setBackground .idle
              { s with
                blk :=
                  { s.blk with
                    hk :=
                      { lastTelemetry := some now
                        outbox := some ⟨.telemetry, s.params.disc.telemetry :: Config.telemetry s.blk s.hw⟩ } } })) := by
  unfold resumeHk
  obtain h | ⟨hm, h⟩ := telemetryStep_cases now (setBackground .idle s)
  · exact Or.inl (by rw [h])
  · exact Or.inr ⟨hm, by rw [h]; rfl⟩

theorem capRead_whole (s : State) :
    capRead s 0 s.params.capCapacity = some (s.blk.cap.buf.readRange 0 s.params.capCapacity) := by
  rw [capRead, if_pos (by omega)]

/-- HK flushes a full armed capture, else runs the telemetry step. -/
theorem flushOrTelemetry_eq (now : Quantity) (s : State) :
    flushOrTelemetry now s =
      .next
        (if s.blk.cap.armed && s.blk.cap.full then
          startSend .blob (s.params.disc.captureBlob :: s.blk.cap.buf.readRange 0 s.params.capCapacity) s
        else telemetryStep now s) := by
  unfold flushOrTelemetry
  rw [capRead_whole]
  split <;> rfl

theorem execHk_eq_next {s t : State} {now : Word} (h : execHk now s = .next t) :
    s.blk.hk.outbox = none ∧ clockBehind s (s.params.num.ofBits now) = false ∧
      flushOrTelemetry (s.params.num.ofBits now)
          (setOutcome .ok { s with env := { s.env with lastNow := some (s.params.num.ofBits now) } }) = .next t := by
  unfold execHk at h
  obtain ⟨ho, h⟩ := whenBackgroundFree_eq_next h
  split at h
  · cases h
  · rename_i hc
    exact ⟨ho, by simpa using hc, h⟩

/-- An attempt that goes on: busy, or the message accepted; after a blob the capture is disarmed and the telemetry step
of the same HK is next. -/
theorem sendAttempt_eq_next {s t : State} {a : Answer} (h : sendAttempt a s = .next t) :
    ∃ o, s.blk.hk.outbox = some o ∧
      let u : State :=
        { s with
          blk := { s.blk with hk := { s.blk.hk with outbox := none } }
          env := { s.env with outcome := .ok, outputs := s.env.outputs ++ [.message o.bytes] } }
      (a = .busy ∧ t = setOutcome .hardwareBusy s) ∨
        (a = .sent ∧ o.kind = .telemetry ∧ t = u) ∨
        (a = .sent ∧ o.kind = .blob ∧ ∃ now, s.env.lastNow = some now ∧ t = setBackground (.housekeeping now) (setArmed false u)) := by
  unfold sendAttempt at h
  split at h
  · cases h
  · rename_i o ho
    refine ⟨o, ho, ?_⟩
    cases a with
    | busy => exact Or.inl ⟨rfl, (Host.Outcome.next.inj h).symm⟩
    | sent =>
      refine Or.inr ?_
      simp only [sendAccepted] at h
      split at h
      · rename_i hk
        exact Or.inl ⟨rfl, hk, (Host.Outcome.next.inj h).symm⟩
      · rename_i hk
        split at h
        · rename_i now hn
          exact Or.inr ⟨rfl, hk, now, hn, (Host.Outcome.next.inj h).symm⟩
        · cases h

end Sys2Proof.Machine
end

