-- ==== Sys2Proof/Laws/PerInstr.lean ====
section
/-! SUPPORT. Statements made of every instruction as syntax, one lemma per constructor. -/

namespace Sys2Proof.Laws.EncodeLength

/-- How many bytes the event has: two of the code and the payload of 30_encoding.md R61, HK's `now` being 4. -/
def eventLength : Instr → Nat
  | .cfgPwm _ _ _ => 2 + 9
  | .cfgHyst _ _ _ _ _ => 2 + 15
  | .cfgPid _ _ _ _ _ _ _ _ => 2 + 29
  | .cfgCot _ _ _ _ _ _ _ _ _ _ _ => 2 + 41
  | .cmdArm => 2
  | .tick => 2
  | .hk _ => 2 + 4

/-- The encoding has the length the table gives, and fits the longest event. -/
def Statement (i : Instr) : Prop :=
  ∀ t : DiscTable, (encode t i).length = eventLength i ∧ (encode t i).length ≤ maxEventBytes

theorem cfgPwm (freq duty : Word) (running : Byte) : Statement (.cfgPwm freq duty running) := by
  intro t; constructor <;> simp [encode, operandBytes, eventLength, maxEventBytes]

theorem cfgHyst (freq target step : Word) (maxCompare : Half) (running : Byte) :
    Statement (.cfgHyst freq target step maxCompare running) := by
  intro t; constructor <;> simp [encode, operandBytes, eventLength, maxEventBytes]

theorem cfgPid (freq target kP kI kD maxIntegral maxDuty : Word) (running : Byte) :
    Statement (.cfgPid freq target kP kI kD maxIntegral maxDuty running) := by
  intro t; constructor <;> simp [encode, operandBytes, eventLength, maxEventBytes]

theorem cfgCot (target l iPeak startupFactor kP kI maxIntegral minCurrent csPeriod averageAge : Word)
    (running : Byte) :
    Statement (.cfgCot target l iPeak startupFactor kP kI maxIntegral minCurrent csPeriod averageAge running) := by
  intro t; constructor <;> simp [encode, operandBytes, eventLength, maxEventBytes]

theorem cmdArm : Statement .cmdArm := by
  intro t; constructor <;> simp [encode, operandBytes, eventLength, maxEventBytes]

theorem tick : Statement .tick := by
  intro t; constructor <;> simp [encode, operandBytes, eventLength, maxEventBytes]

theorem hk (now : Word) : Statement (.hk now) := by
  intro t; constructor <;> simp [encode, operandBytes, eventLength, maxEventBytes]

end Sys2Proof.Laws.EncodeLength
end

