-- ==== Sys2Proof/Laws/Ticks.lean ====
section
/-! SUPPORT. What a TICK can do: its next state in each mode, and the ranges of what the three control laws commit. -/

namespace Sys2Proof.Machine

/-! ## The next state of a TICK -/

/-- The state a TICK leaves, for the record, registers, outcome and capture record given. -/
def tickedState (s : State) (reg : Regulator) (hw : Hw) (outcome : OpOutcome) (rec : List Byte) : State :=
  { s with
    blk := { s.blk with reg := reg, cap := loggedCapture s.params.capCapacity rec s.blk.cap, tickPending := false }
    hw := hw
    env := { s.env with outcome := outcome } }

theorem tickedState_ticked {s : State} (h : s.blk.cap.buf.wf = true) (reg : Regulator) (hw : Hw) (o : OpOutcome)
    (rec : List Byte) : Ticked s (tickedState s reg hw o rec) reg hw o rec :=
  ⟨loggedCapture_logged h, rfl⟩

theorem execTick_stopped {s : State} (h : s.hw.ctrlRun = false) : execTick s = .refused .tickWhileStopped := by
  simp [execTick, h]

theorem execTick_running {s : State} (h : s.hw.ctrlRun = true) : execTick s = tickDispatch (tickEntry s) := by
  simp [execTick, h]

theorem feedback_tickEntry (s : State) : feedback (tickEntry s) = feedback s := feedback_congr rfl rfl rfl

theorem execTick_idle {s : State} (hc : s.hw.ctrlRun = true) (hr : s.blk.reg = .idle) :
    execTick s =
      .next { s with blk := { s.blk with tickPending := false }, env := { s.env with outcome := .ok } } := by
  obtain ⟨p, ⟨reg, running, cap, agg, pending, hk⟩, hw, ring, env⟩ := s
  cases hr
  rw [execTick_running hc]
  rfl

theorem execTick_pwm {s : State} {r : PwmRec} (hc : s.hw.ctrlRun = true) (hr : s.blk.reg = .pwm r) :
    execTick s = .next (tickedState s (.pwm r) s.hw .ok (record2 (feedback s).a0)) := by
  rw [execTick_running hc, tickDispatch]
  simp only [tickEntry_blk, hr]
  have hf : feedback (tickReturn .ok (tickEntry s)) = feedback s := feedback_congr rfl rfl rfl
  rw [tickPwm, hf, append_if_capturing]
  simp [tickedState, hr]

/-- The state `finishHyst` leaves of the state before the tick. -/
def hystTicked (s : State) (r : HystRec) : Option (HystRec × Int) → State
  | some (r', c) =>
    tickedState s (.hyst r') { s.hw with pwmCcr := registerValue s.params c } .ok
      (record6 (feedback s).a0 (registerValue s.params c))
  | none => tickedState s (.hyst r) s.hw .tickNoop (record6 (feedback s).a0 s.hw.pwmCcr)

theorem execTick_hyst {s : State} {r : HystRec} (hc : s.hw.ctrlRun = true) (hr : s.blk.reg = .hyst r) :
    execTick s = .next (hystTicked s r (hystNext s.params.num r s.hw.pwmArr (feedback s).vout)) := by
  rw [execTick_running hc, tickDispatch]
  simp only [tickEntry_blk, hr]
  rw [tickHyst, feedback_tickEntry, tickEntry_hw, tickEntry_params]
  generalize hystNext s.params.num r s.hw.pwmArr (feedback s).vout = next
  match next with
  | some (r', c) => simp only [finishHyst, hystTicked, logRecord6_eq]; simp [tickedState]
  | none => simp only [finishHyst, hystTicked, logRecord6_eq]; simp [tickedState, hr]

/-- The state `finishPid` leaves of the state before the tick. -/
def pidTicked (s : State) (r : PidRec) : Option (PidRec × Int) → State
  | some (r', c) =>
    tickedState s (.pid r') { s.hw with pwmCcr := registerValue s.params c } .ok
      (record6 (feedback s).a0 (registerValue s.params c))
  | none => tickedState s (.pid r) s.hw .tickNoop (record6 (feedback s).a0 s.hw.pwmCcr)

theorem execTick_pid {s : State} {r : PidRec} (hc : s.hw.ctrlRun = true) (hr : s.blk.reg = .pid r) :
    execTick s = .next (pidTicked s r (pidNext s.params.num r s.hw.pwmArr (feedback s).vout)) := by
  rw [execTick_running hc, tickDispatch]
  simp only [tickEntry_blk, hr]
  rw [tickPid, feedback_tickEntry, tickEntry_hw, tickEntry_params]
  generalize pidNext s.params.num r s.hw.pwmArr (feedback s).vout = next
  match next with
  | some (r', c) => simp only [finishPid, pidTicked, logRecord6_eq]; simp [tickedState]
  | none => simp only [finishPid, pidTicked, logRecord6_eq]; simp [tickedState, hr]

/-- The registers after a ConstantOnTime tick that commits `w`. -/
def cotHw (hw : Hw) (w : CotWrite) : Hw :=
  match w.regs with
  | some g => { hw with pwmPsc := g.psc, pwmArr := g.arr, pwmCcr := g.ccr, pwmOe := w.oe }
  | none => { hw with pwmOe := w.oe }

/-- The state `finishCot` leaves of the state before the tick. -/
def cotTicked (s : State) (r : CotRec) : Option CotWrite → State
  | some w => tickedState s (.cot w.record) (cotHw s.hw w) .ok (record6 (feedback s).a0 (cotHw s.hw w).pwmCcr)
  | none => tickedState s (.cot r) s.hw .tickNoop (record6 (feedback s).a0 s.hw.pwmCcr)

theorem execTick_cot {s : State} {r : CotRec} (hc : s.hw.ctrlRun = true) (hr : s.blk.reg = .cot r) :
    execTick s =
      .next (cotTicked s r (cotNext s.params s.blk.running r (feedback s).vout (feedback s).vin)) := by
  rw [execTick_running hc, tickDispatch]
  simp only [tickEntry_blk, hr]
  rw [tickCot, feedback_tickEntry, tickEntry_params, tickEntry_blk]
  generalize cotNext s.params s.blk.running r (feedback s).vout (feedback s).vin = next
  match next with
  | some ⟨record, some g, oe⟩ => simp only [finishCot, cotTicked, logRecord6_eq]; simp [tickedState, cotHw]
  | some ⟨record, none, oe⟩ => simp only [finishCot, cotTicked, logRecord6_eq]; simp [tickedState, cotHw]
  | none => simp only [finishCot, cotTicked, logRecord6_eq]; simp [tickedState, hr]

/-- All a TICK can do. -/
theorem execTick_cases {s t : State} (h : execTick s = .next t) :
    s.hw.ctrlRun = true ∧
      ((s.blk.reg = .idle ∧
          t = { s with blk := { s.blk with tickPending := false }, env := { s.env with outcome := .ok } }) ∨
        (∃ r, s.blk.reg = .pwm r ∧ t = tickedState s (.pwm r) s.hw .ok (record2 (feedback s).a0)) ∨
        (∃ r, s.blk.reg = .hyst r ∧ t = hystTicked s r (hystNext s.params.num r s.hw.pwmArr (feedback s).vout)) ∨
        (∃ r, s.blk.reg = .pid r ∧ t = pidTicked s r (pidNext s.params.num r s.hw.pwmArr (feedback s).vout)) ∨
        ∃ r, s.blk.reg = .cot r ∧
          t = cotTicked s r (cotNext s.params s.blk.running r (feedback s).vout (feedback s).vin)) := by
  by_cases hc : s.hw.ctrlRun = true
  · refine ⟨hc, ?_⟩
    cases hr : s.blk.reg with
    | idle => rw [execTick_idle hc hr] at h; exact Or.inl ⟨rfl, (Host.Outcome.next.inj h).symm⟩
    | pwm r => rw [execTick_pwm hc hr] at h; exact Or.inr (Or.inl ⟨r, rfl, (Host.Outcome.next.inj h).symm⟩)
    | hyst r =>
      rw [execTick_hyst hc hr] at h
      exact Or.inr (Or.inr (Or.inl ⟨r, rfl, (Host.Outcome.next.inj h).symm⟩))
    | pid r =>
      rw [execTick_pid hc hr] at h
      exact Or.inr (Or.inr (Or.inr (Or.inl ⟨r, rfl, (Host.Outcome.next.inj h).symm⟩)))
    | cot r =>
      rw [execTick_cot hc hr] at h
      exact Or.inr (Or.inr (Or.inr (Or.inr ⟨r, rfl, (Host.Outcome.next.inj h).symm⟩)))
  · rw [execTick_stopped (by simpa using hc)] at h
    cases h

/-! ## What the control laws commit -/

theorem allFinite_iff {xs : List Quantity} : allFinite xs = true ↔ ∀ x ∈ xs, x.finite = true := by
  induction xs with
  | nil => simp [allFinite]
  | cons x xs ih => simp [allFinite, ih]

/-- The duty a maximum compare value is rescaled to is a duty (42_hysteretic.md R97). -/
theorem rescaled_within {dom : NumDomain} {limit : Half} {arr : Nat} {d : Quantity}
    (hd : Within (dom.num 0) d (dom.num 1)) (h : (limit.toNat : Int) < dutyCcr dom arr d) :
    Within (dom.num 0) ((dom.num limit.toNat).div (dom.num arr)) (dom.num 1) := by
  have hl : limit.toNat < 2 ^ 24 := Nat.lt_of_lt_of_le limit.isLt (by decide)
  obtain ⟨hlf, hlv⟩ := num_exact (dom := dom) (Or.inr hl)
  have zero_within {x : Quantity} (hf : x.finite = true) (h0 : 0 ≤ x.toRat) (h1 : x.toRat ≤ 1) :
      Within (dom.num 0) x (dom.num 1) :=
    ⟨by rwa [Quantity.le_iff_toRat (num_zero dom).1 hf, (num_zero dom).2],
      by rwa [Quantity.le_iff_toRat hf (num_one dom).1, (num_one dom).2]⟩
  obtain ha | ha := num_finite_or_inf dom arr
  · have hlt := limit_lt_of_lt_dutyCcr ha hd.1 hd.2 h
    obtain ⟨hf, h0, h1⟩ := div_ratio hlf ha (num_nonneg dom _) (by rw [hlv]; exact hlt)
    exact zero_within hf h0 h1
  · rw [ha]
    cases hx : dom.num limit.toNat with
    | nan => rw [hx] at hlf; cases hlf
    | inf s => rw [hx] at hlf; cases hlf
    | fin s m => exact zero_within rfl (toRat_fin_zero _).ge ((toRat_fin_zero _).le.trans zero_le_one)
    | exact q => exact zero_within rfl (le_rfl) zero_le_one

/-- What a hysteretic tick commits (42_hysteretic.md R97): only the duty changes, it is a duty, and the compare value is
within the maximum, and within the reload where `num` is exact. -/
theorem hystNext_spec {dom : NumDomain} {r r' : HystRec} {arr : Nat} {c : Int} {vout : Quantity}
    (h : hystNext dom r arr vout = some (r', c)) :
    r' = { r with duty := r'.duty } ∧ Within (dom.num 0) r'.duty (dom.num 1) ∧ c ≤ r.maxCompare.toNat ∧
      (dom = .rational ∨ arr < 2 ^ 24 → 0 ≤ c ∧ c ≤ arr) := by
  unfold hystNext at h
  dsimp only at h
  have hw := clamp_within (hystStep r vout) (num_zero_le_one dom)
  have hc : dom = .rational ∨ arr < 2 ^ 24 → _ := fun ha => dutyCcr_range ha hw.1 hw.2
  have hl := rescaled_within (limit := r.maxCompare) (arr := arr) hw
  generalize dutyCcr dom arr (clamp (hystStep r vout) (dom.num 0) (dom.num 1)) = k at h hc hl
  by_cases hk : (r.maxCompare.toNat : Int) < k
  · simp only [if_pos hk] at h
    split at h
    · simp only [Option.some.injEq, Prod.mk.injEq] at h
      obtain ⟨rfl, rfl⟩ := h
      exact ⟨rfl, hl hk, Int.le_refl _, fun ha => ⟨Int.natCast_nonneg _, by have := hc ha; omega⟩⟩
    · cases h
  · simp only [if_neg hk] at h
    split at h
    · simp only [Option.some.injEq, Prod.mk.injEq] at h
      obtain ⟨rfl, rfl⟩ := h
      exact ⟨rfl, hw, Int.not_lt.1 hk, hc⟩
    · cases h

/-- What a PID tick commits (43_pid.md R99): integral, previous error and duty, the duty a duty, the compare value that of
the duty, the integral clamped. -/
theorem pidNext_spec {dom : NumDomain} {r r' : PidRec} {arr : Nat} {c : Int} {vout : Quantity}
    (h : pidNext dom r arr vout = some (r', c)) :
    r' = { r with integral := r'.integral, prevError := r'.prevError, duty := r'.duty } ∧
      Within (dom.num 0) r'.duty (clamp r.maxDuty (dom.num 0) (dom.num 1)) ∧
      Within (dom.num 0) r'.duty (dom.num 1) ∧ c = dutyCcr dom arr r'.duty ∧
      r'.integral = clamp (r.integral.add (r.target.sub vout)) r.maxIntegral.neg r.maxIntegral := by
  unfold pidNext at h
  dsimp only at h
  split at h
  · simp only [Option.some.injEq, Prod.mk.injEq] at h
    obtain ⟨rfl, rfl⟩ := h
    have hh := clamp_within r.maxDuty (num_zero_le_one dom)
    have hw := clamp_within
      ((((r.target.sub vout).mul r.kP).add
          ((clamp (r.integral.add (r.target.sub vout)) r.maxIntegral.neg r.maxIntegral).mul r.kI)).add
        (((r.target.sub vout).sub r.prevError).mul r.kD)) hh.1
    have h1 := Quantity.le_trans hw.2 hh.2
    exact ⟨rfl, hw, ⟨hw.1, h1⟩, rfl, rfl⟩
  · cases h

/-- `COT_STEP` with the helpers of 44_cot.md R103 written out. -/
theorem cotStep_unfolded (p : Params) (running : Bool) (r : CotRec) (vout vin e : Quantity) (m : Ema) :
    cotStep p running r vout vin e m =
      (let i1 := clamp (r.integral.add (r.kI.mul e)) r.maxIntegral.neg r.maxIntegral
       let current := (r.kP.mul e).add i1
       let b1 := if current.lt r.minCurrent then r.belowCount + 1 else 0
       let li := r.l.mul r.iPeak
       let tOn := li.div vin
       let vhi := vout.max (vin.mul r.startupFactor)
       let tFall := li.div (vhi.sub vin)
       let ieff := current.max r.minCurrent
       let f0 := ((p.num.num 2).mul ieff).div (r.iPeak.mul tFall)
       let fMax := (p.num.num 1).div (tOn.add tFall)
       let f := f0.min fMax
       let dty := tOn.mul f
       if p.skipTicks ≤ b1 then
         if allFinite [e, i1, current, m.avg, m.var] then
           some
             { record := { r with sub := .cs, integral := i1, belowCount := 0, pwmOnTicks := 0, cycleEnable := false, ema := m }
               regs := none
               oe := false }
         else none
       else
         match freqCalc p f dty with
         | none => none
         | some regs =>
           if allFinite [e, i1, current, m.avg, m.var, li, tOn, vhi, tFall, ieff, f0, fMax, f, dty] then
             some
               { record := { r with integral := i1, belowCount := b1, cycleEnable := true, ema := m }
                 regs := some regs
                 oe := running }
           else none) := by
  unfold cotStep
  delta freqForCurrent freqMax fallTime onTime vHigh voltSeconds
  rfl

/-- `CS_STEP` with the helpers of 44_cot.md R103 written out. -/
theorem csStep_unfolded (p : Params) (running : Bool) (r : CotRec) (vout vin e : Quantity) (m : Ema) :
    csStep p running r vout vin e m =
      (let en := vout.lt r.target
       let p1 := if en then min (r.pwmOnTicks + 1) (2 ^ 32 - 1) else r.pwmOnTicks
       let li := r.l.mul r.iPeak
       let tOn := li.div vin
       let fcs := (p.num.num 1).div r.csPeriod
       let dcs := tOn.div r.csPeriod
       let ee := e.mul e
       let thr := p.csVarFactor.mul r.ema.var
       let vhi := vout.max (vin.mul r.startupFactor)
       let tFall := li.div (vhi.sub vin)
       let i0 := (r.iPeak.mul tFall).div ((p.num.num 2).mul r.csPeriod)
       match freqCalc p fcs dcs with
       | none => none
       | some regs =>
         if allFinite [e, li, tOn, fcs, dcs, ee, thr, m.avg, m.var] then
           if decide (p.csMinOn ≤ p1) && thr.lt ee then
             if allFinite [vhi, tFall, i0] then
               some
                 { record := { r with pwmOnTicks := p1, cycleEnable := en, ema := m, sub := .cot, integral := i0, belowCount := 0 }
                   regs := some regs
                   oe := running && en }
             else none
           else
             some
               { record := { r with pwmOnTicks := p1, cycleEnable := en, ema := m }
                 regs := some regs
                 oe := running && en }
         else none) := by
  unfold csStep
  delta fallTime onTime vHigh voltSeconds countOnTick csReturns calculateCurrent
  rfl

/-- What a commit of either sub-state's step keeps. -/
structure CotCommit (p : Params) (running : Bool) (r : CotRec) (w : CotWrite) : Prop where
  fromCalc : ∀ g, w.regs = some g → ∃ f d, freqCalc p f d = some g
  onlyRunning : w.oe = true → running = true
  below : 0 < p.skipTicks → r.belowCount < p.skipTicks → w.record.belowCount < p.skipTicks
  onTicks : r.pwmOnTicks ≤ 2 ^ 32 - 1 → w.record.pwmOnTicks ≤ 2 ^ 32 - 1

theorem countOnTick_le {en : Bool} {n : Nat} (h : n ≤ 2 ^ 32 - 1) : countOnTick en n ≤ 2 ^ 32 - 1 := by
  unfold countOnTick; split <;> omega

theorem cotStep_commit {p : Params} {running : Bool} {r : CotRec} {vout vin e : Quantity} {m : Ema} {w : CotWrite}
    (h : cotStep p running r vout vin e m = some w) : CotCommit p running r w := by
  unfold cotStep at h
  dsimp only at h
  generalize (if Quantity.lt _ _ then r.belowCount + 1 else 0) = b1 at h
  by_cases hb : p.skipTicks ≤ b1
  · rw [if_pos hb] at h
    split at h
    · cases h
      exact ⟨nofun, nofun, fun h _ => h, fun _ => Nat.zero_le _⟩
    · cases h
  · rw [if_neg hb] at h
    split at h
    · cases h
    · rename_i g hg
      split at h
      · cases h
        exact ⟨fun _ hg' => ⟨_, _, hg.trans hg'⟩, id, fun _ _ => Nat.not_le.1 hb, id⟩
      · cases h

theorem csStep_commit {p : Params} {running : Bool} {r : CotRec} {vout vin e : Quantity} {m : Ema} {w : CotWrite}
    (h : csStep p running r vout vin e m = some w) : CotCommit p running r w := by
  unfold csStep at h
  dsimp only at h
  generalize csReturns p r _ e = ret at h
  split at h
  · cases h
  · rename_i g hg
    split at h
    · cases ret with
      | true =>
        simp only [if_true] at h
        split at h
        · cases h
          exact ⟨fun _ hg' => ⟨_, _, hg.trans hg'⟩, fun h => (Bool.and_eq_true_iff.1 h).1, fun h _ => h,
            countOnTick_le⟩
        · cases h
      | false =>
        cases h
        exact ⟨fun _ hg' => ⟨_, _, hg.trans hg'⟩, fun h => (Bool.and_eq_true_iff.1 h).1, fun _ h => h,
          countOnTick_le⟩
    · cases h

/-- What a ConstantOnTime tick commits (44_cot.md R106, R107): a triple only from FREQCALC, the output on only if the
last config said `running`, and the counters in range. -/
theorem cotNext_commit {p : Params} {running : Bool} {r : CotRec} {vout vin : Quantity} {w : CotWrite}
    (h : cotNext p running r vout vin = some w) : CotCommit p running r w := by
  unfold cotNext at h
  dsimp only at h
  cases hs : r.sub with
  | cot => rw [hs] at h; exact cotStep_commit h
  | cs => rw [hs] at h; exact csStep_commit h

end Sys2Proof.Machine
end

