-- ==== Sys2Proof/Laws/Step.lean ====
section
/-! SUPPORT. What one step can do: the framer's steps, and the rule that a property kept by each agent's action is kept
by every step. -/

namespace Sys2Proof.Machine

/-! ## The aggregation buffer -/

/-- The buffer with its first `n` bytes taken out (40_mode_controller.md R75). -/
def Agg.compacted (n : Nat) (g : Agg) : Agg :=
  { bytes := g.bytes.writeRange 0 (g.bytes.readRange n (g.length - n)), length := g.length - n }

/-- The buffer with bytes added at its end (R73). -/
def Agg.appended (v : List Byte) (g : Agg) : Agg :=
  { bytes := g.bytes.writeRange g.length v, length := g.length + v.length }

@[simp] theorem Agg.contents_length (g : Agg) : g.contents.length = g.length := Memory.readRange_length _ _ _

theorem Agg.contents_compacted {g : Agg} {n : Nat} (h : g.bytes.wf = true) (hn : n ≤ g.length) :
    (g.compacted n).contents = g.contents.drop n := by
  have h1 := Memory.readRange_writeRange h 0 (g.bytes.readRange n (g.length - n))
  rw [Memory.readRange_length] at h1
  have h2 := Memory.readRange_append g.bytes 0 n (g.length - n)
  rw [Nat.zero_add, Nat.add_sub_cancel' hn] at h2
  rw [Agg.contents, Agg.contents, h2, List.drop_left' (Memory.readRange_length _ _ _)]
  exact h1

theorem Agg.contents_appended {g : Agg} {v : List Byte} (h : g.bytes.wf = true) :
    (g.appended v).contents = g.contents ++ v := by
  simp only [Agg.contents, Agg.appended, Memory.readRange_append, Nat.zero_add]
  rw [Memory.readRange_writeRange h]
  congr 1
  apply Memory.readRange_congr
  intro i hi
  exact Memory.read_writeRange_outside h _ (Or.inl (by omega))

theorem Agg.compacted_wf {g : Agg} {n : Nat} (h : g.bytes.wf = true) : (g.compacted n).bytes.wf = true :=
  Memory.wf_writeRange _ _ h

theorem Agg.appended_wf {g : Agg} {v : List Byte} (h : g.bytes.wf = true) : (g.appended v).bytes.wf = true :=
  Memory.wf_writeRange _ _ h

theorem compact_eq {n : Nat} {s : State} (hn : n ≤ s.blk.agg.length) (hl : s.blk.agg.length ≤ aggCap) :
    compact n s = .next { s with blk := { s.blk with agg := s.blk.agg.compacted n } } := by
  have h1 : aggRead s n (s.blk.agg.length - n) = some (s.blk.agg.bytes.readRange n (s.blk.agg.length - n)) := by
    rw [aggRead, if_pos (by omega)]
  simp only [compact, h1, aggWrite, Memory.readRange_length]
  rw [if_pos (by omega)]
  rfl

theorem compact_eq_next {n : Nat} {s t : State} (h : compact n s = .next t) :
    t = { s with blk := { s.blk with agg := s.blk.agg.compacted n } } := by
  unfold compact at h
  split at h
  · cases h
  · rename_i v hv
    split at h
    · cases h
    · rename_i u hu
      obtain ⟨-, rfl⟩ := aggRead_eq_some hv
      obtain ⟨-, rfl⟩ := aggWrite_eq_some hu
      exact (Host.Outcome.next.inj h).symm

/-! ## The framer (R73, R74, R77) -/

/-- A decoded message is no TICK. -/
theorem decodeMessage_background {t : DiscTable} {d : Byte} {bs rest : List Byte} {i : Instr}
    (h : decodeMessage t d bs = .ok (i, rest)) : i.periodic = false := by
  have key : ∀ {o : Option (Instr × List Byte)}, orTruncated o = .ok (i, rest) → o = some (i, rest) := by
    intro o ho
    cases o with
    | none => cases ho
    | some r => cases ho; rfl
  unfold decodeMessage at h
  split at h
  · have h := key h
    simp only [takeCfgPwm, Option.bind_eq_bind, Option.bind_eq_some_iff] at h
    obtain ⟨_, -, _, -, _, -, h⟩ := h
    cases h; rfl
  split at h
  · have h := key h
    simp only [takeCfgHyst, Option.bind_eq_bind, Option.bind_eq_some_iff] at h
    obtain ⟨_, -, _, -, _, -, _, -, _, -, h⟩ := h
    cases h; rfl
  split at h
  · have h := key h
    simp only [takeCfgPid, Option.bind_eq_bind, Option.bind_eq_some_iff] at h
    obtain ⟨_, -, _, -, _, -, _, -, _, -, _, -, _, -, _, -, h⟩ := h
    cases h; rfl
  split at h
  · have h := key h
    simp only [takeCfgCot, Option.bind_eq_bind, Option.bind_eq_some_iff] at h
    obtain ⟨_, -, _, -, _, -, _, -, _, -, _, -, _, -, _, -, _, -, _, -, _, -, h⟩ := h
    cases h; rfl
  split at h
  · cases h; rfl
  · cases h

/-- What one step of the message port can do. -/
inductive FramerCase (s t : State) : Prop where
  /-- No `submit` runs. -/
  | idle (h : ∀ left, s.env.background ≠ .submitting left) (e : t = s)
  /-- The chunk is copied whole and the rest awaits bytes: `submit` ends. -/
  | finish (h : s.env.background = .submitting []) (w : AwaitsBytes s.params.disc s.blk.agg) (e : t = setBackground .idle s)
  /-- Bytes are copied, as many as fit. -/
  | copy (left : List Byte) (k : Nat) (h : s.env.background = .submitting left) (ne : left ≠ [])
    (w : AwaitsBytes s.params.disc s.blk.agg) (hk : k = min left.length (aggCap - s.blk.agg.length))
    (fits : s.blk.agg.length + k ≤ aggCap)
    (e : t = setBackground (.submitting (left.drop k))
      { s with blk := { s.blk with agg := s.blk.agg.appended (left.take k) } })
  /-- An unrecognized byte is dropped. -/
  | error (left : List Byte) (d : Byte) (h : s.env.background = .submitting left) (pos : 0 < s.blk.agg.length)
    (hd : s.blk.agg.bytes.read 0 = d) (unknown : payloadLen s.params.disc d = none)
    (e : t =
      { s with
        blk := { s.blk with agg := s.blk.agg.compacted 1 }
        env := { s.env with outcome := .protocolError d, outputs := s.env.outputs ++ [.protocolError d] } })
  /-- A complete message is dispatched and taken out. -/
  | dispatch (left : List Byte) (d : Byte) (n : Nat) (i : Instr) (tail : List Byte) (u : State)
    (h : s.env.background = .submitting left) (pos : 0 < s.blk.agg.length) (hd : s.blk.agg.bytes.read 0 = d)
    (len : payloadLen s.params.disc d = some n) (whole : 1 + n ≤ s.blk.agg.length)
    (dec : decodeMessage s.params.disc d (s.blk.agg.bytes.readRange 1 n) = .ok (i, tail)) (bg : i.periodic = false)
    (ex : exec i s = .next u)
    (e : t =
      { u with
        blk := { u.blk with agg := u.blk.agg.compacted (1 + n) }
        env := { u.env with outputs := u.env.outputs ++ [.dispatched i] } })

theorem copyChunk_cases {s t : State} {left : List Byte} (hb : s.env.background = .submitting left)
    (w : AwaitsBytes s.params.disc s.blk.agg) (h : copyChunk left s = .next t) : FramerCase s t := by
  unfold copyChunk at h
  split at h
  · exact .finish hb w (Host.Outcome.next.inj h).symm
  · rename_i a l
    dsimp only at h
    split at h
    · cases h
    · rename_i u hu
      obtain ⟨hfit, rfl⟩ := aggWrite_eq_some hu
      rw [List.length_take, Nat.min_eq_left (Nat.min_le_left _ _)] at hfit
      refine .copy _ _ hb (by simp) w rfl hfit ?_
      rw [← Host.Outcome.next.inj h, Agg.appended, List.length_take, Nat.min_eq_left (Nat.min_le_left _ _)]

theorem dispatchMessage_eq_next {d : Byte} {n : Nat} {s t : State} (h : dispatchMessage d (1 + n) s = .next t) :
    ∃ i tail u, decodeMessage s.params.disc d (s.blk.agg.bytes.readRange 1 n) = .ok (i, tail) ∧ exec i s = .next u ∧
      t =
        { u with
          blk := { u.blk with agg := u.blk.agg.compacted (1 + n) }
          env := { u.env with outputs := u.env.outputs ++ [.dispatched i] } } := by
  unfold dispatchMessage at h
  rw [Nat.add_sub_cancel_left] at h
  split at h
  · cases h
  · rename_i p hp
    obtain ⟨-, rfl⟩ := aggRead_eq_some hp
    split at h
    · cases h
    · rename_i i tail hi
      split at h
      · rename_i u hu
        exact ⟨i, tail, u, hi, hu, compact_eq_next h⟩
      · cases h
      · cases h

theorem framerStep_cases {s t : State} (h : framerStep s = .next t) : FramerCase s t := by
  unfold framerStep at h
  split at h
  · rename_i hb
    exact .idle (by simp [hb]) (Host.Outcome.next.inj h).symm
  · rename_i hb
    exact .idle (by simp [hb]) (Host.Outcome.next.inj h).symm
  · rename_i left hb
    split at h
    · exact copyChunk_cases hb (Or.inl (by assumption)) h
    · rename_i hpos
      dsimp only at h
      split at h
      · rename_i hn
        exact .error left _ hb (by omega) rfl hn (compact_eq_next h)
      · rename_i n hn
        split at h
        · rename_i hlt
          exact copyChunk_cases hb (Or.inr ⟨n, hn, hlt⟩) h
        · rename_i hge
          obtain ⟨i, tail, u, hi, hu, ht⟩ := dispatchMessage_eq_next h
          exact .dispatch left _ n i tail u hb (by omega) rfl hn (by omega) hi (decodeMessage_background hi) hu ht

/-! ## One step -/

/-- A property that every agent's action keeps is kept by every step. -/
theorem step_preserves {P : State → Prop}
    (inputs : ∀ s l, P s → P (setInputs l s))
    (request : ∀ s b, P s → P (requestTick b s))
    (tick : ∀ s t, s.params.wf = true → P s → execTick s = .next t → P t)
    (background : ∀ s t i, s.params.wf = true → P s → i.periodic = false → s.env.background = .idle →
      exec i s = .next t → P t)
    (framer : ∀ s t, s.params.wf = true → P s → framerStep s = .next t → P t)
    (resume : ∀ s now, s.params.wf = true → P s → s.env.background = .housekeeping now → P (resumeHk now s))
    (submit : ∀ s c, P s → s.env.background = .idle → s.blk.hk.outbox = none → P (startSubmit c s))
    (send : ∀ s t a, s.params.wf = true → P s → sendAttempt a s = .next t → P t)
    (sample : ∀ s v, s.params.wf = true → P s → P (engineSample v s))
    (count : ∀ s v, P s → P (timerCount v s))
    {s t : State} (hp : P s) (h : step s = .next t) : P t := by
  unfold step at h
  split at h
  swap
  · cases h
  rename_i hw
  have setw : ∀ l, (setInputs l s).params.wf = true := fun _ => hw
  have idle_of : ∀ {x : State}, midOperation x = false → x.env.background = .idle := by
    intro x hx
    unfold midOperation at hx
    split at hx
    · assumption
    · cases hx
    · cases hx
  have bg : ∀ {x y : State}, x.params.wf = true → P x → backgroundStep x = .next y → P y := by
    intro x y hx px h
    unfold backgroundStep at h
    split at h
    · rwa [← Host.Outcome.next.inj h]
    · exact framer x y hx px h
    · rw [← Host.Outcome.next.inj h]
      exact resume x _ hx px (by assumption)
  unfold turn at h
  split at h
  · split at h
    · exact tick s t hw hp h
    · exact bg hw hp h
  · rename_i i rest hi
    split at h
    · exact tick s t hw hp h
    · unfold backgroundTurn at h
      split at h
      · rename_i bytes _
        unfold offerEvent at h
        split at h
        · cases h
        · rename_i ev _
          split at h
          · rename_i hev
            cases ev <;> simp only [Instr.periodic, Bool.false_eq_true] at hev
            unfold requestAfter at h
            split at h
            · rename_i u hu
              rw [← Host.Outcome.next.inj h]
              exact request _ _ (tick _ _ (setw rest) (inputs _ _ hp) hu)
            · cases h
            · cases h
          · rename_i hev
            split at h
            · exact bg hw hp h
            · rename_i hs
              exact background _ _ ev (by simpa using hw) (request _ _ (inputs _ _ hp)) (by simpa using hev)
                (by simpa using idle_of (by simpa using hs)) h
      · rename_i chunk _
        unfold offerSubmit at h
        split at h
        · exact bg hw hp h
        · rename_i hs
          obtain ⟨ho, h⟩ := whenBackgroundFree_eq_next h
          rw [← Host.Outcome.next.inj h]
          exact submit _ _ (request _ _ (inputs _ _ hp)) (by simpa using idle_of (by simpa using hs)) (by simpa using ho)
      · exact bg (by simpa using hw) (request _ _ (inputs _ _ hp)) h
      · unfold offerAttempt at h
        split at h
        · exact bg hw hp h
        · exact send _ _ _ (by simpa using hw) (request _ _ (inputs _ _ hp)) h
      · rw [← Host.Outcome.next.inj h]
        exact request _ _ (sample _ _ (setw rest) (inputs _ _ hp))
      · rw [← Host.Outcome.next.inj h]
        exact request _ _ (count _ _ (inputs _ _ hp))

end Sys2Proof.Machine
end

