-- ==== Sys2Proof/Tests/Slice0.lean ====
section
/-! SUPPORT. Tests against the spec's own vectors (95_test_vectors.md, cited by number), the refusals of the
well-formedness checks, and for every statement with hypotheses a witness that meets them together. -/

open Sys2Proof Sys2Proof.Machine

namespace Sys2Proof.Tests

/-! ## Small states -/

/-- The four newest frames (output voltage, input voltage), the write position after them. -/
def withFrames (frames : List (Half × Half)) (s : State) : State :=
  { s with
    ring := Memory.writeRange [] 0 (frames.flatMap fun f => [f.1, f.2])
    hw := { s.hw with dmaPos := 2 * frames.length } }

/-- Four equal frames. -/
def withVolts (vout vin : Half) (s : State) : State := withFrames (List.replicate 4 (vout, vin)) s

/-- A mode installed and running, with registers as given. -/
def inMode (reg : Regulator) (regs : PwmRegs) : State :=
  { State.reset with
    blk := { State.reset.blk with reg := reg, running := true }
    hw :=
      { State.reset.hw with
        pwmPsc := regs.psc
        pwmArr := regs.arr
        pwmCcr := regs.ccr
        pwmRun := true
        pwmOe := true
        ctrlRun := true
        adcRun := true } }

def num (bits : Word) : Quantity := Quantity.ofBits bits

/-- The record CFG_HYST of vector 2.1 installs, at a duty. -/
def hystRec (duty : Quantity) : HystRec :=
  { freq := num 0x447A0000, target := num 0x44FA0000, step := num 0x3E000000, maxCompare := 9000, duty := duty }

/-- The record CFG_PID of vector 2.1 installs. -/
def pidRec : PidRec :=
  { freq := num 0x447A0000
    target := num 0x44FA0000
    kP := num 0x3A800000
    kI := num 0x38800000
    kD := num 0x39000000
    maxIntegral := num 0x43800000
    maxDuty := num 0x3F400000
    integral := .zero
    prevError := .zero
    duty := .zero }

/-- The record CFG_COT of vector 2.1 installs. -/
def cotRec : CotRec :=
  { target := num 0x41400000
    l := num 0x38800000
    iPeak := num 0x3F800000
    startupFactor := num 0x3FC00000
    kP := num 0x3F000000
    kI := num 0x3D800000
    maxIntegral := num 0x40800000
    minCurrent := num 0x3D800000
    csPeriod := num 0x39000000
    averageAge := num 0x39C00000
    sub := .cot
    integral := .zero
    belowCount := 0
    pwmOnTicks := 0
    cycleEnable := true
    ema := { init := false, avg := .zero, var := .zero, alpha := num 0x3E800000 } }

/-- The record before tick 19 of vector 5.2. -/
def csRec : CotRec :=
  { cotRec with
    sub := .cs
    integral := num 0xBE000000
    pwmOnTicks := 6
    ema := { init := true, avg := num 0x413FEB7A, var := num 0x3CD0E2C4, alpha := num 0x3E800000 } }

def idle : PwmRegs := ⟨1, 36000, 360⟩

/-- The parameters of the test vectors in exact rationals (00_scope.md R7, decision D1). -/
def rationals : Params :=
  { Params.default with
    num := .rational
    vscale := [.exact 1, .exact 1]
    ctrlPeriodS := .exact (1 / 8192)
    idleFreqHz := .exact 1000
    idleDuty := .exact (1 / 100)
    csVarFactor := .exact 2
    telemetryIntervalS := .exact (1 / 2) }

/-- The state after power-on with those parameters. -/
def rationalReset : State := { State.reset with params := rationals }

def hystState : State := withVolts 1990 0 (inMode (.hyst (hystRec .zero)) ⟨1, 36000, 0⟩)
def pidState : State := withVolts 1900 0 (inMode (.pid pidRec) ⟨1, 36000, 0⟩)
def cotState : State := withFrames [(11, 8), (12, 8), (11, 8), (12, 8)] (inMode (.cot cotRec) idle)
def csState : State := withVolts 11 8 (inMode (.cot csRec) ⟨0, 8789, 549⟩)

def armedAt (cursor : Nat) (s : State) : State :=
  { s with blk := { s.blk with cap := { s.blk.cap with cursor := cursor, armed := true } } }

def fullAt (cursor : Nat) (s : State) : State :=
  { s with blk := { s.blk with cap := { s.blk.cap with cursor := cursor, armed := true, full := true } } }

def schedule (inputs : List Input) (s : State) : State := { s with env := { s.env with inputs := inputs } }

def sending (kind : SendKind) (bytes : List Byte) (s : State) : State :=
  { s with
    blk := { s.blk with hk := { s.blk.hk with outbox := some ⟨kind, bytes⟩ } }
    env := { s.env with lastNow := some .one } }

/-- A `submit` running, with bytes buffered. -/
def buffered (bytes : List Byte) (s : State) : State :=
  { s with
    blk := { s.blk with agg := { bytes := Memory.writeRange [] 0 bytes, length := bytes.length } }
    env := { s.env with background := .submitting [0x05] } }

def after (r : Result) : State :=
  match r with
  | .next t => t
  | .fault _ => State.reset
  | .refused _ => State.reset

def isNext (r : Result) : Bool :=
  match r with
  | .next _ => true
  | .fault _ => false
  | .refused _ => false

def stop (r : Result) : Option Refusal :=
  match r with
  | .next _ => none
  | .fault _ => none
  | .refused e => some e

theorem next_after {r : Result} (h : isNext r = true) : r = .next (after r) := by
  cases r with
  | next t => rfl
  | fault f => cases h
  | refused e => cases h

/-! ## Well-formedness: each check refuses an ill-formed term -/

theorem test_wf_default : Params.default.wf = true := by decide
theorem test_wf_no_clock : { Params.default with clockHz := 0 }.wf = false := by decide
theorem test_wf_one_channel : { Params.default with channels := 1 }.wf = false := by decide
theorem test_wf_ring_not_multiple : { Params.default with channels := 3 }.wf = false := by decide
theorem test_wf_same_discriminant :
    { Params.default with disc := { DiscTable.default with cmdArm := 0x01 } }.wf = false := by decide
/-- Other values of the parameters that have one in R7 are model instances. -/
theorem test_wf_varied :
    { Params.default with
      timerBits := 32
      channels := 4
      vscale := [num 0x3F800000, num 0x41200000, num 0x3F800000, num 0x3F800000]
      disc := { DiscTable.default with cmdArm := 0x00 } }.wf = true := by decide
/-- `NUM` is a parameter: its values are of the domain it names. -/
theorem test_wf_rational : rationals.wf = true := by decide
theorem test_wf_value_of_other_domain : { rationals with csVarFactor := num 0x40000000 }.wf = false := by decide
theorem test_wf_scale_missing : { Params.default with channels := 4 }.wf = false := by decide
theorem test_wf_odd_ring : { Params.default with ringCap := 63 }.wf = false := by decide
theorem test_wf_wide_window : { Params.default with window := 33 }.wf = false := by decide
theorem test_wf_no_window : { Params.default with window := 0 }.wf = false := by decide
theorem test_wf_skip_zero : { Params.default with skipTicks := 0 }.wf = false := by decide
theorem test_wf_skip_wide : { Params.default with skipTicks := 256 }.wf = false := by decide

/-- Bytes that are no event: too short, too long. -/
theorem test_ill_formed_bytes :
    decodeWhole .default [0x05] = .error .truncated ∧ decodeWhole .default [0x05, 0x00, 0x00] = .error .trailingBytes ∧
      decodeWhole .default [0x80, 0x00] = .error (.unrecognizedDiscriminant 0x80) := by decide

/-! ## Decoding: the words of vector 2.1 and R58 -/

theorem test_decode_cfg_pwm :
    decodeWhole .default [0x01, 0x00, 0x00, 0x50, 0xC3, 0x47, 0x00, 0x00, 0x00, 0x3F, 0x01] =
      .ok (.cfgPwm 0x47C35000 0x3F000000 0x01) := by decide

theorem test_decode_cfg_hyst :
    decodeWhole .default [0x02, 0x00, 0x00, 0x00, 0x7A, 0x44, 0x00, 0x00, 0xFA, 0x44, 0x00, 0x00, 0x00, 0x3E, 0x28, 0x23, 0x01] =
      .ok (.cfgHyst 0x447A0000 0x44FA0000 0x3E000000 9000 0x01) := by decide

theorem test_decode_cfg_pid :
    decodeWhole .default
        ([0x03, 0x00, 0x00, 0x00, 0x7A, 0x44, 0x00, 0x00, 0xFA, 0x44, 0x00, 0x00, 0x80, 0x3A, 0x00, 0x00] ++
          [0x80, 0x38, 0x00, 0x00, 0x00, 0x39, 0x00, 0x00, 0x80, 0x43, 0x00, 0x00, 0x40, 0x3F, 0x01]) =
      .ok (.cfgPid 0x447A0000 0x44FA0000 0x3A800000 0x38800000 0x39000000 0x43800000 0x3F400000 0x01) := by decide

theorem test_decode_cfg_cot :
    decodeWhole .default
        ([0x04, 0x00, 0x00, 0x00, 0x40, 0x41, 0x00, 0x00, 0x80, 0x38, 0x00, 0x00, 0x80, 0x3F, 0x00, 0x00, 0xC0] ++
          [0x3F, 0x00, 0x00, 0x00, 0x3F, 0x00, 0x00, 0x80, 0x3D, 0x00, 0x00, 0x80, 0x40, 0x00, 0x00, 0x80, 0x3D] ++
          [0x00, 0x00, 0x00, 0x39, 0x00, 0x00, 0xC0, 0x39, 0x01]) =
      .ok
        (.cfgCot 0x41400000 0x38800000 0x3F800000 0x3FC00000 0x3F000000 0x3D800000 0x40800000 0x3D800000 0x39000000
          0x39C00000 0x01) := by decide

theorem test_decode_cmd_arm : decodeWhole .default [0x05, 0x00] = .ok .cmdArm := by decide
theorem test_decode_tick : decodeWhole .default [0x00, 0x01] = .ok .tick := by decide
theorem test_decode_hk : decodeWhole .default [0x00, 0x02, 0x00, 0x00, 0x80, 0x3F] = .ok (.hk 0x3F800000) := by decide

/-- The ten bits of each row of opcode_table.json. -/
theorem test_table_words :
    (decodeTableWord 16 0x001).isSome ∧ (decodeTableWord 16 0x002).isSome ∧ (decodeTableWord 16 0x003).isSome ∧
      (decodeTableWord 16 0x004).isSome ∧ decodeTableWord 16 0x005 = some .cmdArm ∧
      decodeTableWord 16 0x100 = some .tick ∧ decodeTableWord 16 0x200 = some (.hk 0) ∧
      decodeTableWord 16 0x300 = none ∧ decodeTableWord 16 0x101 = none ∧ decodeTableWord 16 0x006 = none := by decide

/-- The event codes of opcode_table.json. -/
theorem test_event_codes :
    eventCode .default (.cfgPwm 0 0 0) = 0x001 ∧ eventCode .default (.cfgHyst 0 0 0 0 0) = 0x002 ∧
      eventCode .default (.cfgPid 0 0 0 0 0 0 0 0) = 0x003 ∧
      eventCode .default (.cfgCot 0 0 0 0 0 0 0 0 0 0 0) = 0x004 ∧ eventCode .default .cmdArm = 0x005 ∧
      eventCode .default .tick = 0x100 ∧ eventCode .default (.hk 0) = 0x200 := by decide

/-! ## Shared operations -/

/-- Rows of vector 6.1: a tie away from zero with the reload clamped, none, and a compare at a tie. -/
theorem test_freqcalc :
    freqCalc .default (num 0x44895440) (num 0x3F000000) = some ⟨0, 65535, 32768⟩ ∧
      freqCalc .default (num 0x41200000) (num 0x3E800000) = some ⟨109, 65455, 16364⟩ ∧
      freqCalc .default (num 0x3C23D70A) (num 0x3F000000) = none ∧
      freqCalc .default (num 0x46100000) (num 0x3D900000) = some ⟨0, 7813, 549⟩ := by decide +kernel

/-- Vector 6.3, second row: position 3, the frame base 2, wrapping. -/
theorem test_feedback_wraps :
    let s : State :=
      { State.reset with
        ring := Memory.writeRange (Memory.writeRange [] 0 [10, 20]) 58 [16, 26, 14, 24, 12, 22]
        hw := { State.reset.hw with dmaPos := 3 } }
    (feedback s).a0 = Quantity.ofNat 13 ∧ (feedback s).vin = Quantity.ofNat 23 := by decide

/-- Three channels (41_control_tick.md R90): position 7 lies in the frame from 6, the window in the four before it. -/
theorem test_feedback_three_channels :
    let s : State :=
      { State.reset with
        params := { Params.default with channels := 3, ringCap := 60, vscale := [.one, .one, .one] }
        ring := Memory.writeRange (Memory.writeRange [] 0 [30, 20, 99, 40, 21, 99]) 54 [10, 20, 99, 20, 19, 99]
        hw := { State.reset.hw with dmaPos := 7 } }
    (feedback s).a0 = Quantity.ofNat 25 ∧ (feedback s).vin = Quantity.ofNat 20 := by decide

/-- A timer of 25 bits (10_state.md R26, log 23): `num(2^24 + 3)` is `2^24 + 4`, which fits; `num(2^25 − 1)` is `2^25`,
which does not, and the register still holds 25 bits. -/
theorem test_wide_timer :
    let p := { Params.default with timerBits := 25 }
    registerValue p (dutyCcr .binary32 (2 ^ 24 + 3) .one) = 2 ^ 24 + 4 ∧ dutyCcr .binary32 (2 ^ 25 - 1) .one = 2 ^ 25 ∧
      registerValue p (2 ^ 25) = Config.freeRegister 25 (2 ^ 25) % 2 ^ 25 :=
  ⟨by decide +kernel, by decide +kernel, by rw [registerValue, if_neg (by decide)]⟩

/-- Vector 6.4: RECORD2(1234.5), RECORD6(1900, 4175), the appends at 1020 (does not fit) and at 1022 (fits); and at 1018,
where `1018 + 6 > 1024` is false (log 21). -/
theorem test_records :
    record2 (num 0x449A5000) = [0xD3, 0x04] ∧ record6 (Quantity.ofNat 1900) 4175 = [0x6C, 0x07, 0x4F, 0x10, 0x00, 0x00] ∧
      (after (appendRecord (record6 .zero 0) (armedAt 1020 State.reset))).blk.cap.full = true ∧
      (after (appendRecord (record2 .zero) (armedAt 1022 State.reset))).blk.cap.cursor = 1024 ∧
      (after (appendRecord (record6 .zero 0) (armedAt 1018 State.reset))).blk.cap.cursor = 1024 := by decide

/-! ## One step of each event -/

/-- Vector 2.5, rows 1 and 2. -/
theorem test_cfg_pwm :
    (after (exec (.cfgPwm 0x47C35000 0x3F000000 0x01) State.reset)).hw.pwmArr = 720 ∧
      (after (exec (.cfgPwm 0x00000000 0x3F000000 0x01) State.reset)).hw.pwmCcr = 360 := by decide

/-- Vector 2.5, row 3: `running = 0` keeps the output off, any nonzero byte turns it on (D5). -/
theorem test_cfg_pwm_running :
    (after (exec (.cfgPwm 0x47C35000 0x3F000000 0x00) State.reset)).hw.pwmOe = false ∧
      (after (exec (.cfgPwm 0x47C35000 0x3F000000 0x80) State.reset)).hw.pwmOe = true := by decide

/-- Vector 2.5, CFG_HYST. -/
theorem test_cfg_hyst :
    let t := after (exec (.cfgHyst 0x447A0000 0x44FA0000 0x3E000000 9000 0x01) (armedAt 0 State.reset))
    t.blk.reg = .hyst (hystRec .zero) ∧ t.hw.pwmCcr = 0 ∧ t.blk.cap.armed = false := by decide

/-- Vector 2.6: a config of the same mode starts from zero and keeps the cursor. -/
theorem test_cfg_pid :
    let t := after
      (exec (.cfgPid 0x447A0000 0x44FA0000 0x3A800000 0x38800000 0x39000000 0x43800000 0x3F400000 0x01)
        (armedAt 18 (inMode (.pid { pidRec with integral := num 0x432A0000 }) ⟨1, 36000, 945⟩)))
    t.blk.reg = .pid pidRec ∧ t.hw.pwmCcr = 0 ∧ t.blk.cap.cursor = 18 := by decide

/-- Vector 2.5, CFG_COT: `alpha = 0.25` exactly, the idle default stays. -/
theorem test_cfg_cot :
    let t := after
      (exec
        (.cfgCot 0x41400000 0x38800000 0x3F800000 0x3FC00000 0x3F000000 0x3D800000 0x40800000 0x3D800000 0x39000000
          0x39C00000 0x01) State.reset)
    t.blk.reg = .cot cotRec ∧ (t.hw.pwmPsc, t.hw.pwmArr, t.hw.pwmCcr) = (1, 36000, 360) := by decide

/-- Decision D1: the average of 10 over a window of 3 is `10/3` itself. -/
theorem test_rational_average :
    let s := withFrames [(3, 1), (3, 1), (4, 2)] { rationalReset with params := { rationals with window := 3 } }
    (feedback s).a0 = .exact (10 / 3) ∧ (feedback s).vin = .exact (4 / 3) := by decide +kernel

/-- Vectors 2.1 and 4.1 (tick 1) in exact rationals: the duty is `100/1024 + 100/16384 + 100/8192`, whose compare value
4174.8 is rounded. -/
theorem test_rational_pid :
    let s := after
      (exec (.cfgPid 0x447A0000 0x44FA0000 0x3A800000 0x38800000 0x39000000 0x43800000 0x3F400000 0x01) rationalReset)
    let next := pidNext .rational
      { freq := .exact 1000
        target := .exact 2000
        kP := .exact (1 / 1024)
        kI := .exact (1 / 16384)
        kD := .exact (1 / 8192)
        maxIntegral := .exact 256
        maxDuty := .exact (3 / 4)
        integral := .exact 0
        prevError := .exact 0
        duty := .exact 0 } 36000 (.exact 1900)
    s.hw.pwmArr = 36000 ∧ recordNumbers s.blk.reg = [.exact 1000, .exact 2000, .exact (1 / 1024), .exact (1 / 16384),
        .exact (1 / 8192), .exact 256, .exact (3 / 4), .exact 0, .exact 0, .exact 0] ∧
      next.map (fun x => (x.1.duty, x.2)) = some (.exact (1900 / 16384), 4175) := by decide +kernel

/-- Vector 2.7, second row. -/
theorem test_cmd_arm :
    let c := (after (exec .cmdArm (fullAt 1020 pidState))).blk.cap
    c.armed = true ∧ c.full = false ∧ c.cursor = 0 := by decide

/-- Vector 3.1 tick 1, 3.1 tick 3 (the clamp rescales), 4.1 tick 1. -/
theorem test_tick_hyst_pid :
    (after (exec .tick hystState)).hw.pwmCcr = 4500 ∧
      (after (exec .tick (withVolts 1999 0 (inMode (.hyst (hystRec (num 0x3E800000))) ⟨1, 36000, 9000⟩)))).blk.reg =
        .hyst (hystRec (num 0x3E800000)) ∧
      (after (exec .tick pidState)).hw.pwmCcr = 4175 := by decide

/-- Vector 5.2 ticks 1 and 19: the COT registers, and the return with the integral reinitialized to 0.0625. -/
theorem test_tick_cot_cs :
    (after (exec .tick cotState)).hw.pwmArr = 1953 ∧
      (after (exec .tick csState)).blk.reg =
        .cot
          { csRec with
            sub := .cot
            integral := num 0x3D800000
            pwmOnTicks := 7
            ema := { csRec.ema with avg := num 0x413BF09C, var := num 0x3E51A9EE } } := by decide

/-- Vector 7.2, row 6, and an HK in Idle changes nothing but the time it came (vector 7.2, row 1). -/
theorem test_hk :
    let s : State := { pidState with blk := { pidState.blk with hk := ⟨some .one, none⟩ } }
    (after (exec (.hk 0x3FC00000) s)).blk.hk.lastTelemetry = some (num 0x3FC00000) ∧
      (after (exec (.hk 0x3FA00000) s)).blk.hk.outbox = none ∧
      (after (exec (.hk 0x00000000) State.reset)).blk = State.reset.blk := by decide

/-- Vector 7.1, second row: a busy answer, then the message once and the capture disarmed. -/
theorem test_hk_flush :
    let t := after (exec (.hk 0x3F800000) (fullAt 1020 State.reset))
    let u := after (sendAttempt .sent (after (sendAttempt .busy t)))
    u.env.outputs = [.message (0x81 :: List.replicate 1024 0)] ∧ u.blk.cap.armed = false ∧ u.blk.cap.full = true := by
  decide +kernel

/-- 45_housekeeping.md R111, 20_memory.md R50: a TICK requested during the accepting attempt runs before the telemetry
step of the same HK, and the telemetry step before the next attempt. -/
theorem test_tick_between_flush_and_telemetry :
    let s := schedule [⟨.attempt .sent, true⟩, ⟨.attempt .sent, false⟩]
      (after (exec (.hk 0x3F800000) (fullAt 1020 pidState)))
    let t := after (step s)
    let u := after (step t)
    let v := after (step u)
    t.env.background = .housekeeping (num 0x3F800000) ∧ t.blk.tickPending = true ∧ t.blk.hk.outbox = none ∧
      u.hw.pwmCcr = 4175 ∧ u.blk.hk.outbox = none ∧ u.env.inputs.length = 1 ∧
      v.env.background = .idle ∧ v.blk.hk.lastTelemetry = some (num 0x3F800000) ∧ v.blk.hk.outbox.isSome = true ∧
      v.env.inputs.length = 1 := by decide +kernel

/-- Vector 2.7's message under a table that gives CMD_ARM another discriminant (30_encoding.md R61: `DISC` is a
parameter). -/
theorem test_other_discriminants :
    let s : State :=
      { State.reset with params := { Params.default with disc := { DiscTable.default with cmdArm := 0x42 } } }
    (after (submitWhole [0x42] s)).blk.cap.armed = true ∧
      (after (submitWhole [0x05] s)).env.outputs = [.protocolError 0x05] ∧
      (after (step (s.withFetchWord 16 0x005))).blk.cap.armed = true := by decide

/-- Vector 2.3 and 2.4, first row, through the message port. -/
theorem test_submit :
    (after (submitWhole [0x05, 0x01, 0x00, 0x50] State.reset)).blk.agg.contents = [0x01, 0x00, 0x50] ∧
      (after (submitWhole [0x07, 0x05] State.reset)).env.outputs = [.protocolError 0x07, .dispatched .cmdArm] := by
  decide

/-- The word the host places is the one the next step runs. -/
theorem test_placed_word_runs :
    (after (step (State.reset.withFetchWord 16 0x005))).blk.cap.armed = true ∧
      isNext (step (State.reset.withFetchWord 16 0x100)) = true ∧
      isNext (step (State.reset.withFetchWord 16 0x200)) = true ∧
      stop (step (State.reset.withFetchWord 16 0x300)) = some (.undecodable (.reservedKind 0x03)) := by decide

/-! ## Witnesses: each statement's hypotheses are met together, clause by clause -/

theorem witness_DecodingInvertsEncoding : DiscTable.default.wf = true ∧ Instr.cmdArm.wf = true ∧ kindByte .cmdArm = 0 := by decide

theorem witness_EncodingInvertsDecoding : decodeEvent .default [0x05, 0x00, 0xFF] = .ok (.cmdArm, [0xFF]) := by decide

/-- Kinds 3 and 255; discriminants 1 and 255 under kinds 1 and 2; discriminants 0, 6 and 255 under kind 0. -/
theorem witness_ReservedCodesRefused :
    State.reset.params.wf = true ∧ State.reset.blk.tickPending = false ∧
      (∀ e, (schedule [e] State.reset).env.inputs = e :: []) ∧
      3 ≤ (0x03 : Byte).toNat ∧ 3 ≤ (0xFF : Byte).toNat ∧ (0x01 : Byte) ≠ 0 ∧ (0xFF : Byte) ≠ 0 ∧
      (0x00 : Byte) ∉ State.reset.params.disc.inbound ∧ (0x06 : Byte) ∉ State.reset.params.disc.inbound ∧
      (0xFF : Byte) ∉ State.reset.params.disc.inbound :=
  ⟨by decide, by decide, fun _ => rfl, by decide, by decide, by decide, by decide, by decide, by decide, by decide⟩

theorem witness_PatternsAndValuesAgree :
    (Quantity.ofBits 0xFF800000).isNaN = false ∧ 0x7F800000 < (0xFF800001 : Word).toNat % 2 ^ 31 := by decide

theorem witness_CfgPwmInstallsPassthrough : State.reset.params.wf = true ∧ State.reset.blk.hk.outbox = none := by decide
theorem witness_CfgHystInstallsHysteretic : pidState.params.wf = true ∧ pidState.blk.hk.outbox = none := by decide
theorem witness_CfgPidInstallsPid : cotState.params.wf = true ∧ cotState.blk.hk.outbox = none := by decide
theorem witness_CfgCotInstallsConstantOnTime : hystState.params.wf = true ∧ hystState.blk.hk.outbox = none := by decide

theorem witness_IdleRegisters :
    freqCalc .default Params.default.idleFreqHz Params.default.idleDuty = some ⟨1, 36000, 360⟩ ∧
      freqCalc { Params.default with clockHz := 2 ^ 60 } Params.default.idleFreqHz Params.default.idleDuty = none ∧
      Params.default.wf = true ∧ ({ Params.default with clockHz := 2 ^ 60 } : Params).wf = true ∧
      Params.default.idleFreqHz.finite = true ∧ Quantity.zero.lt Params.default.idleFreqHz = true ∧
      Params.default.idleDuty.isNaN = false ∧
      (let c := roundI ((Quantity.ofNat Params.default.tmax).mul Params.default.idleDuty)
       0 ≤ c ∧ c ≤ Params.default.tmax) := by
  decide +kernel

theorem witness_CmdArmArmsTheCapture : State.reset.blk.hk.outbox = none ∧ csState.blk.hk.outbox = none := by decide

theorem witness_ModeTransitionTable :
    isNext (exec (.cfgPwm 0 0 0) State.reset) = true ∧ isNext (exec (.cfgHyst 0 0 0 0 0) State.reset) = true ∧
      isNext (exec (.cfgPid 0 0 0 0 0 0 0 0) State.reset) = true ∧
      isNext (exec (.cfgCot 0 0 0 0 0 0 0 0 0 0 0) State.reset) = true ∧ isNext (exec .cmdArm pidState) = true ∧
      isNext (exec .tick pidState) = true ∧ isNext (exec (.hk 0) pidState) = true := by decide

theorem witness_NoStepLeadsToIdle : step State.reset = .next State.reset ∧ State.reset.mode = .idle := ⟨rfl, rfl⟩

theorem witness_TickCompletes :
    State.reset.hw.ctrlRun = false ∧ pidState.hw.ctrlRun = true ∧
      (setCtrlRun true State.reset).hw.ctrlRun = true ∧ (setCtrlRun true State.reset).mode = .idle := by decide

/-- A 6-byte record at cursor 1019 (does not fit) and at cursor 1018 (fits). -/
theorem witness_AppendStoresOrSetsFull :
    (armedAt 1019 pidState).blk.cap.buf.wf = true ∧ (armedAt 1019 pidState).blk.cap.armed = true ∧
      (armedAt 1019 pidState).blk.cap.full = false ∧ pidState.params.capCapacity < 1019 + (record6 .zero 0).length ∧
      1018 + (record6 .zero 0).length ≤ pidState.params.capCapacity := by decide

theorem witness_PassthroughTickOnlyLogs :
    let s := inMode (.pwm ⟨.one, .zero⟩) idle
    s.blk.reg = .pwm ⟨.one, .zero⟩ ∧ s.hw.ctrlRun = true ∧ s.blk.cap.buf.wf = true := by decide

/-- The greatest reload that is exact, duties 0 and 1. -/
theorem witness_DutyCompareValue :
    2 ^ 24 - 1 < 2 ^ 24 ∧ Within .zero .zero .one ∧ Within .zero .one .one :=
  ⟨by decide, ⟨by decide, by decide⟩, ⟨by decide, by decide⟩⟩

theorem witness_FreqCalcResult :
    ExactTimer Params.default ∧ Params.default.num.has (num 0x447A0000) = true ∧
      freqCalc .default (num 0x447A0000) (num 0xBF000000) = some ⟨1, 36000, 0⟩ ∧
      freqCalc .default .zero (num 0x3F000000) = none ∧
      (let c := roundI ((Quantity.ofNat 36000).mul (clamp (num 0xBF000000) .zero .one))
       0 ≤ c ∧ c ≤ Params.default.tmax) :=
  ⟨Or.inr (by decide), rfl, by decide +kernel, by decide +kernel, by decide +kernel⟩

theorem witness_AverageIsASampleValue :
    0 < (1 : Nat) ∧ State.reset.params.window ≤ 256 ∧
      ({ State.reset with params := { Params.default with ringCap := 512, window := 256 } } : State).params.wf = true := by
  decide

theorem witness_AverageIsASampleValueAtEveryWindow :
    ({ State.reset with params := { Params.default with ringCap := 514, window := 257 } } : State).params.wf = true := by
  decide

/-- Two rings that differ outside the window. -/
theorem witness_FeedbackSeesOnlyTheWindow :
    let s := pidState
    let t : State := { pidState with ring := pidState.ring.write 20 7 }
    s.ring ≠ t.ring ∧ s.params = t.params ∧ s.hw.dmaPos = t.hw.dmaPos ∧
      ∀ k, k < 4 → ∀ c, c < 2 →
        ringRead s ((frameBase s : Int) - (k + 1 : Nat) * (s.params.channels : Int) + (c : Nat)) =
          ringRead t ((frameBase t : Int) - (k + 1 : Nat) * (t.params.channels : Int) + (c : Nat)) := by decide

/-- The step NaN makes the tick a no-op. -/
def hystNaN : HystRec := { hystRec .zero with step := .nan }

theorem witness_HystereticTickResult :
    hystState.blk.reg = .hyst (hystRec .zero) ∧ hystState.hw.ctrlRun = true ∧ hystState.blk.cap.buf.wf = true ∧
      ((hystRec .zero).duty.add (hystRec .zero).step).finite = true ∧ (hystNaN.duty.add hystNaN.step).finite = false ∧
      (feedback hystState).vout.lt hystNaN.target = true := by decide

theorem regsInRange {s : State}
    (h : s.hw.pwmPsc ≤ s.params.tmax ∧ s.hw.pwmCcr ≤ s.hw.pwmArr ∧ s.hw.pwmArr ≤ s.params.tmax) : RegsInRange s :=
  ⟨h.1, h.2.2, Nat.le_trans h.2.1 h.2.2, fun _ => h.2.1⟩

/-- No times are held, and the record's values are of the domain. -/
theorem numbersInDomain {s : State} (record : ∀ x ∈ recordNumbers s.blk.reg, s.params.num.has x = true)
    (telemetry : ∀ x, s.blk.hk.lastTelemetry ≠ some x) (now : ∀ x, s.env.lastNow ≠ some x)
    (flushed : ∀ x, s.env.background ≠ .housekeeping x) : NumbersInDomain s :=
  ⟨record, fun x h => absurd h (telemetry x), fun x h => absurd h (now x), fun x h => absurd h (flushed x)⟩

/-- At the duty 0.25 the maximum compare value binds (vector 3.1, tick 3). -/
def clampState : State := withVolts 1999 0 (inMode (.hyst (hystRec (num 0x3E800000))) ⟨1, 36000, 9000⟩)

theorem witness_HystereticTickKeepsBounds :
    (Quantity.ofNat clampState.hw.pwmArr).finite = true ∧ RegsInRange clampState ∧ clampState.blk.reg = .hyst (hystRec (num 0x3E800000)) ∧
      exec .tick clampState = .next (after (exec .tick clampState)) ∧
      (after (exec .tick clampState)).blk.reg = .hyst (hystRec (num 0x3E800000)) ∧
      (after (exec .tick clampState)).env.outcome = .ok ∧
      num 0x3E800000 ≠ clamp (hystStep (hystRec (num 0x3E800000)) (feedback clampState).vout) .zero .one :=
  ⟨by decide, regsInRange (by decide), by decide, next_after (by decide), by decide, by decide, by decide⟩

theorem witness_HystereticDutyMonotoneLiterally :
    clampState.params.wf = true ∧ RegsInRange clampState ∧ RecordInRange clampState ∧
      (hystRec (num 0x3E800000)).step.finite = true ∧ Quantity.zero.le (hystRec (num 0x3E800000)).step = true ∧
      (feedback clampState).vout.lt (hystRec (num 0x3E800000)).target = true ∧
      (after (exec .tick clampState)).blk.reg = .hyst (hystRec (num 0x3E800000)) :=
  ⟨by decide, regsInRange (by decide), ⟨by decide, by decide⟩, by decide, by decide, by decide, by decide⟩

/-- A maximum compare value at the reload itself; feedback below and above the target. -/
def freeHyst (vout : Half) : State :=
  withVolts vout 0 (inMode (.hyst { hystRec (num 0x3E800000) with maxCompare := 36000 }) ⟨1, 36000, 9000⟩)

/-- Above the target with a maximum of 100 that binds: the new duty is not the stepped one. -/
def boundHyst : State :=
  withVolts 2001 0 (inMode (.hyst { hystRec (num 0x3E800000) with maxCompare := 100 }) ⟨1, 36000, 100⟩)

theorem witness_HystereticDutyMonotone :
    NumbersInDomain (freeHyst 1999) ∧ NumbersInDomain boundHyst ∧ RecordInRange (freeHyst 1999) ∧ (freeHyst 1999).hw.pwmArr ≤ (36000 : Half).toNat ∧
      isNext (exec .tick (freeHyst 1999)) = true ∧ (hystRec (num 0x3E800000)).step.finite = true ∧
      Quantity.zero.le (hystRec (num 0x3E800000)).step = true ∧
      (feedback (freeHyst 1999)).vout.lt (num 0x44FA0000) = true ∧ RecordInRange boundHyst ∧
      (num 0x44FA0000).lt (feedback boundHyst).vout = true ∧ (after (exec .tick boundHyst)).hw.pwmCcr = 100 :=
  ⟨numbersInDomain (by decide) nofun nofun nofun, numbersInDomain (by decide) nofun nofun nofun,
    ⟨by decide, by decide⟩, by decide, by decide, by decide, by decide, by decide, ⟨by decide, by decide⟩, by decide,
    by decide +kernel⟩

/-- The gain NaN makes the tick a no-op (vector 4.3). -/
theorem witness_PidTickResult :
    pidState.blk.reg = .pid pidRec ∧ pidState.hw.ctrlRun = true ∧ pidState.blk.cap.buf.wf = true ∧
      (pidNext .binary32 pidRec 36000 (feedback pidState).vout).isSome = true ∧
      (pidNext .binary32 { pidRec with kP := .nan } 36000 (feedback pidState).vout).isSome = false := by decide

/-- A PID tick that commits, and one that does not. -/
def pidNaN : State := withVolts 1900 0 (inMode (.pid { pidRec with kP := .nan }) ⟨1, 36000, 0⟩)

theorem witness_PidTickKeepsBounds :
    ExactTimer pidState.params ∧ RegsInRange pidState ∧ pidState.blk.reg = .pid pidRec ∧
      (after (exec .tick pidState)).env.outcome = .ok ∧ Quantity.zero.le pidRec.maxIntegral = true ∧
      (after (exec .tick pidNaN)).env.outcome = .tickNoop ∧ isNext (exec .tick pidNaN) = true :=
  ⟨Or.inr (by decide), regsInRange (by decide), by decide, by decide, by decide, by decide, by decide⟩

/-- An error of +0, and one of −0 (target −0, feedback +0). -/
theorem witness_PidZeroErrorFixedPoint :
    let s := withVolts 2000 0 pidState
    let t := withVolts 0 0 (inMode (.pid { pidRec with target := num 0x80000000 }) idle)
    s.blk.reg = .pid pidRec ∧ s.hw.ctrlRun = true ∧ pidRec.target.sub (feedback s).vout = .zero ∧
      (num 0x80000000).sub (feedback t).vout = num 0x80000000 ∧ (num 0x80000000).le .zero = true ∧
      Quantity.zero.le (num 0x80000000) = true := by decide

/-- The switching tick (fourth below, threshold again not reached), a running one, and one with `vin = 0`. -/
theorem witness_CotTickResult :
    cotState.blk.reg = .cot cotRec ∧ cotRec.sub = .cot ∧ cotState.hw.ctrlRun = true ∧ cotState.blk.cap.buf.wf = true ∧
      (cotNext .default true { cotRec with belowCount := 4 } (num 0x41480000) (num 0x41000000)).isSome = true ∧
      (cotNext .default true cotRec (num 0x41380000) (num 0x41000000)).isSome = true ∧
      (cotNext .default true cotRec (num 0x41380000) .zero).isSome = false := by decide +kernel

/-- A returning tick, one that stays, and one with `vin = 0`. -/
theorem witness_CycleSkippingTickResult :
    csState.blk.reg = .cot csRec ∧ csRec.sub = .cs ∧ csState.hw.ctrlRun = true ∧ csState.blk.cap.buf.wf = true ∧
      (cotNext .default true csRec (num 0x41300000) (num 0x41000000)).map (fun w => w.record.sub) = some .cot ∧
      (cotNext .default true { csRec with pwmOnTicks := 4 } (num 0x41300000) (num 0x41000000)).map
        (fun w => w.record.sub) = some .cs ∧
      (cotNext .default true csRec (num 0x41300000) .zero).isSome = false := by decide +kernel

/-- Smoothing factors 0 and 1 (vector 5.1, rows 4 and 5). -/
theorem witness_MovingStatistic :
    let m : Ema := { init := true, avg := num 0x40A00000, var := .one, alpha := .one }
    Within .zero m.alpha .one ∧ Within .zero .zero .one ∧ Quantity.zero.le m.var = true ∧
      (emaAdd .binary32 m (num 0x40E00000)).var.finite = true ∧ (emaAdd .binary32 { m with alpha := .zero } (num 0x40E00000)).var = .one ∧
      cotRec.ema.init = false :=
  ⟨⟨by decide, by decide⟩, ⟨by decide, by decide⟩, by decide, by decide, by decide, by decide⟩

theorem witness_RoundingIsToNearestEven :
    0 < 2 ∧ Quantity.round true 3 2 = .fin true ⟨2, by decide⟩ ∧ Quantity.round false 5 2 = .fin false ⟨2, by decide⟩ := by decide

/-- One and minus one: a sum that is zero, a difference that is not; divisors zero and not. -/
theorem witness_ArithmeticIsExactThenRounded :
    let m : Mag := ⟨0x3F800000, by decide⟩
    signedValue false m + signedValue true m = 0 ∧ signedValue false m - signedValue true m ≠ 0 ∧
      signedValue false m + signedValue false m ≠ 0 ∧ signedValue false m - signedValue false m = 0 ∧ m.val ≠ 0 ∧
      (⟨0, by decide⟩ : Mag).val = 0 := by decide +kernel

/-- 0.5 is below 1 and exactly half way. -/
theorem witness_IntegerRoundings :
    (Quantity.fin false ⟨0x3F000000, by decide⟩).le (NumDomain.binary32.numInt 1) = true ∧
      (2 * (signedValue false ⟨0x3F000000, by decide⟩ - roundI (.fin false ⟨0x3F000000, by decide⟩) * unit)).natAbs =
        unit := by decide

/-- A divisor that is not zero, a pattern of an infinity and one of a finite value, and a half. -/
theorem witness_RationalArithmeticIsExact :
    (3 : ℚ) ≠ 0 ∧ (Quantity.ofBits 0x7F800000).finite = false ∧
      Quantity.ofBits 0x3F000000 = .fin false ⟨0x3F000000, by decide⟩ ∧ ((1 : ℚ) / 2) ≤ (1 : Int) ∧
      (1 / 2 : ℚ) - roundI (.exact (1 / 2)) = -(1 / 2) := by decide +kernel

/-- No HK before, or one at the same time. -/
theorem witness_HkStartsTheFlush :
    let s := fullAt 1020 pidState
    let t : State := { s with env := { s.env with lastNow := some .one } }
    s.blk.hk.outbox = none ∧ s.env.lastNow = none ∧ (Quantity.ofBits 0x3F800000).lt .one = false ∧
      t.env.lastNow = some .one ∧ s.blk.cap.armed = true ∧ s.blk.cap.full = true := by decide

/-- A time below the last one; telemetry never sent; half a second later exactly; a quarter. -/
theorem witness_HkSendsTelemetryWhenDue :
    pidState.blk.hk.outbox = none ∧ (Quantity.ofBits 0x00000000).lt .one = true ∧
      ¬(pidState.blk.cap.armed = true ∧ pidState.blk.cap.full = true) ∧ pidState.mode ≠ .idle ∧
      pidState.blk.hk.lastTelemetry = none ∧
      pidState.params.telemetryIntervalS.le ((num 0x3FC00000).sub .one) = true ∧
      pidState.params.telemetryIntervalS.le ((num 0x3FA00000).sub .one) = false := by decide

theorem witness_SendAttemptAnswers :
    (sending .telemetry [0x80] pidState).blk.hk.outbox = some ⟨.telemetry, [0x80]⟩ := by decide

theorem witness_FullCaptureIsFlushedOnce :
    let s := fullAt 1020 pidState
    let due := fullAt 1020 { pidState with blk := { pidState.blk with hk := ⟨some .one, none⟩ } }
    s.blk.hk.outbox = none ∧ s.env.lastNow = none ∧ s.blk.cap.armed = true ∧ s.blk.cap.full = true ∧
      s.mode ≠ .idle ∧ s.blk.hk.lastTelemetry = none ∧ due.blk.hk.outbox = none ∧
      due.params.telemetryIntervalS.le ((num 0x3FA00000).sub .one) = false := by decide

theorem witness_SendStallsTheBackground :
    let s := schedule [⟨.submit [0x05], false⟩] (sending .telemetry [0x80] pidState)
    s.params.wf = true ∧ s.blk.hk.outbox = some ⟨.telemetry, [0x80]⟩ ∧ Instr.cmdArm.periodic = false ∧
      s.env.background = .idle ∧ s.blk.tickPending = false ∧ s.env.inputs = ⟨.submit [0x05], false⟩ :: [] ∧
      s.hw.ctrlRun = true := by decide

theorem witness_ProtocolErrorDropsOneByte :
    let s := buffered [0x07, 0x05] pidState
    s.env.background = .submitting [0x05] ∧ s.blk.agg.bytes.wf = true ∧ 0 < s.blk.agg.length ∧
      s.blk.agg.length ≤ aggCap ∧ s.blk.agg.bytes.read 0 = 0x07 ∧ payloadLen s.params.disc 0x07 = none := by decide

theorem witness_CompleteMessageIsDispatched :
    let s := buffered [0x05, 0x01] pidState
    s.params.disc.wf = true ∧ s.env.background = .submitting [0x05] ∧ s.blk.agg.bytes.wf = true ∧
      s.blk.agg.length ≤ aggCap ∧ s.blk.hk.outbox = none ∧ kindByte .cmdArm = 0 ∧
      s.blk.agg.contents = encodeMessage s.params.disc .cmdArm ++ [0x01] := by decide

/-- The longest prefix of the longest message, and the empty one. -/
theorem witness_OneMessageAndAPrefix :
    State.reset.params.disc.wf = true ∧ State.reset.blk.hk.outbox = none ∧ State.reset.blk.agg.length = 0 ∧
      State.reset.blk.agg.bytes.wf = true ∧
      kindByte .cmdArm = 0 ∧ kindByte (.cfgCot 0 0 0 0 0 0 0 0 0 0 0) = 0 ∧
      41 < (encodeMessage .default (.cfgCot 0 0 0 0 0 0 0 0 0 0 0)).length ∧ 0 < (encodeMessage .default .cmdArm).length := by decide

/-- An empty buffer, and two bytes of a CFG_PID. -/
theorem witness_ChunkBoundariesDoNotMatter :
    let s := buffered [0x03, 0x00] pidState
    State.reset.blk.hk.outbox = none ∧ AwaitsBytes State.reset.params.disc State.reset.blk.agg ∧ s.blk.hk.outbox = none ∧
      s.blk.agg.bytes.wf = true ∧ s.blk.agg.length ≤ aggCap ∧ AwaitsBytes s.params.disc s.blk.agg :=
  ⟨by decide, Or.inl (by decide), by decide, by decide, by decide, Or.inr ⟨29, by decide, by decide⟩⟩

theorem witness_StepRunsTheDecodedEvent :
    let s := schedule [⟨.event [0x00, 0x01], true⟩] pidState
    s.params.wf = true ∧ s.env.inputs = ⟨.event [0x00, 0x01], true⟩ :: [] ∧ s.blk.tickPending = false ∧
      decodeWhole .default [0x00, 0x01] = .ok .tick ∧ decodeWhole .default [0x05, 0x00] = .ok .cmdArm ∧ Instr.tick.periodic = true ∧
      Instr.cmdArm.periodic = false ∧ s.env.background = .idle ∧
      (setBackground (.housekeeping .one) s).env.background ≠ .idle := by decide

theorem witness_PendingTickGoesFirst :
    let s := schedule [⟨.event [0x05, 0x00], false⟩] (setTickPending true pidState)
    s.params.wf = true ∧ s.blk.tickPending = true ∧
      s.env.inputs.all (fun i => !i.action.device) = true := by decide

theorem witness_EngineWritesOneSample :
    let s := schedule [⟨.sample 77, true⟩] pidState
    let t := schedule [⟨.sample 77, false⟩] State.reset
    s.params.wf = true ∧ s.ring.wf = true ∧ s.hw.dmaPos < s.params.ringCap ∧
      s.env.inputs = ⟨.sample 77, true⟩ :: [] ∧ s.hw.adcRun = true ∧ t.hw.adcRun = false ∧
      t.params.wf = true ∧ t.ring.wf = true ∧ t.hw.dmaPos < t.params.ringCap ∧
      t.env.inputs = ⟨.sample 77, false⟩ :: [] := by decide

/-- Each clause with what it names changed. -/
theorem witness_RingAndCounterHaveOneWriter :
    let s := schedule [⟨.sample 77, false⟩] pidState
    let t := schedule [⟨.count 9, false⟩] pidState
    isNext (step s) = true ∧ (after (step s)).ring ≠ s.ring ∧ isNext (step t) = true ∧
      (after (step t)).hw.ctrlCnt ≠ t.hw.ctrlCnt := by decide

/-- A PID run about to take a TICK, in the invariant. -/
def runState : State := schedule [⟨.event [0x00, 0x01], true⟩] (armedAt 0 pidState)

theorem runState_invariant : RunInvariant runState where
  instanceOk := by decide
  memories := ⟨by decide, by decide, by decide⟩
  regs := regsInRange (by decide)
  positions := ⟨by decide, by decide, by decide⟩
  runBits := ⟨by decide, by decide, by decide, by decide, by decide⟩
  record := ⟨⟨by decide, by decide⟩, fun _ => ⟨by decide, by decide⟩⟩
  send := fun _ h => nomatch h
  buffers := ⟨fun _ => Or.inl (by decide), by decide⟩
  numbers := numbersInDomain (by decide) nofun nofun nofun

theorem runState_steps : step runState = .next (after (step runState)) := next_after (by decide)

theorem witness_ParametersNeverChange : ∃ t, step runState = .next t := ⟨_, runState_steps⟩
theorem witness_StepKeepsMemoriesCanonical : MemoriesCanonical runState ∧ ∃ t, step runState = .next t :=
  ⟨runState_invariant.memories, _, runState_steps⟩
theorem witness_StepKeepsRegistersInRange : RegsInRange runState ∧ ∃ t, step runState = .next t :=
  ⟨runState_invariant.regs, _, runState_steps⟩
theorem witness_StepKeepsRunBits : RunBitsFollowMode runState ∧ ∃ t, step runState = .next t :=
  ⟨runState_invariant.runBits, _, runState_steps⟩
theorem witness_StepKeepsNumbersInDomain : NumbersInDomain runState ∧ ∃ t, step runState = .next t :=
  ⟨runState_invariant.numbers, _, runState_steps⟩
theorem witness_StepKeepsInvariant : RunInvariant runState ∧ ∃ t, step runState = .next t :=
  ⟨runState_invariant, _, runState_steps⟩

/-- A run with a `submit` in progress, and one whose next step is refused. -/
theorem witness_RunsNeverFault :
    RunInvariant (setBackground (.submitting [0x05]) runState) ∧
      (setBackground (.submitting [0x05]) runState).env.background = .submitting [0x05] ∧
      RunInvariant (schedule [⟨.event [0x00, 0x03], false⟩] runState) ∧
      stop (step (schedule [⟨.event [0x00, 0x03], false⟩] runState)) = some (.undecodable (.reservedKind 0x03)) :=
  ⟨{ runState_invariant with
      buffers := ⟨fun h => absurd rfl (h [0x05]), by decide⟩
      send := fun _ h => nomatch h
      numbers := numbersInDomain (by decide) nofun nofun nofun },
    rfl,
    { runState_invariant with
      send := fun _ h => nomatch h
      numbers := numbersInDomain (by decide) nofun nofun nofun },
    by decide⟩

end Sys2Proof.Tests
end

section
/-! SUPPORT. The statements about the config and command operations (40_mode_controller.md). -/

namespace Sys2Proof.Machine

/-! ## The arm command (R87) -/

theorem exec_cmdArm (s : State) : exec .cmdArm s = execCmdArm s := rfl

/-- The converse of `execCmdArm_eq_next`: with nothing being sent the guard lets the command through, in every mode. -/
theorem execCmdArm_none {s : State} (h : s.blk.hk.outbox = none) :
    execCmdArm s =
      .next
        { s with
          blk := { s.blk with cap := { buf := s.blk.cap.buf, cursor := 0, armed := true, full := false } }
          env := { s.env with outcome := .ok } } :=
  whenBackgroundFree_none h

/-- Settles O14: the send guard is the command's only test, and behind it three fields of the capture and the outcome
are written. -/
theorem cmdArmArmsTheCapture : Obligations.CmdArmArmsTheCapture := fun s h =>
  (exec_cmdArm s).trans (execCmdArm_none h)

end Sys2Proof.Machine
end

section
/-! SUPPORT. The statements about the capture records and the passthrough tick (41_control_tick.md). -/

namespace Sys2Proof

/-! ## The bytes of a number stored low byte first (20_memory.md R42) -/

/-- A byte inside the width does not see that the number was cut to the width. -/
theorem extractByte_ofNat {w k : Nat} (h : k + 8 ≤ w) (n : Nat) :
    (BitVec.ofNat w n).extractLsb' k 8 = BitVec.ofNat 8 (n / 2 ^ k) := by
  refine BitVec.eq_of_getLsbD_eq fun i hi => ?_
  have hw : k + i < w := by omega
  rw [BitVec.getLsbD_extractLsb', BitVec.getLsbD_ofNat, BitVec.getLsbD_ofNat, Nat.testBit_div_two_pow]
  simp [hw, Nat.add_comm]

theorem bytes16_ofNat (n : Nat) : bytes16 (BitVec.ofNat 16 n) = [BitVec.ofNat 8 n, BitVec.ofNat 8 (n / 2 ^ 8)] := by
  simp [bytes16, extractByte_ofNat]

theorem bytes32_ofNat (n : Nat) :
    bytes32 (BitVec.ofNat 32 n) =
      [BitVec.ofNat 8 n, BitVec.ofNat 8 (n / 2 ^ 8), BitVec.ofNat 8 (n / 2 ^ 16), BitVec.ofNat 8 (n / 2 ^ 24)] := by
  simp [bytes32, extractByte_ofNat]

end Sys2Proof

namespace Sys2Proof.Machine

/-! ## The capture records (R94) -/

theorem record2_eq (a0 : Quantity) :
    record2 a0 = [BitVec.ofNat 8 (satU16 (roundI a0)), BitVec.ofNat 8 (satU16 (roundI a0) / 2 ^ 8)] :=
  bytes16_ofNat _

theorem record6_eq (a0 : Quantity) (ccr : Nat) : record6 a0 ccr = record2 a0 ++ bytes32 (BitVec.ofNat 32 ccr) := rfl

/-- Settles O6: each field is the bytes of the number it was cut from, low byte first, and the 6-byte record begins with
the 2-byte one. -/
theorem recordLayout : Obligations.RecordLayout := fun a0 ccr =>
  ⟨record2_eq a0, by rw [record6_eq, record2_eq, bytes32_ofNat]; rfl⟩

/-! ## The tick in PWM passthrough (R96) -/

theorem exec_tick (s : State) : exec .tick s = execTick s := rfl

/-- Settles O19: the tick answers `tickedState` at its own record and registers, whose log meets `Logged` on a canonical
buffer. -/
theorem passthroughTickOnlyLogs : Obligations.PassthroughTickOnlyLogs := fun s r hr hc hbuf =>
  ⟨tickedState s (.pwm r) s.hw .ok (record2 (feedback s).a0), (exec_tick s).trans (execTick_pwm hc hr),
    tickedState_ticked hbuf _ _ _ _⟩

end Sys2Proof.Machine
end

section
/-! SUPPORT. The statements about encoding and decoding (30_encoding.md). -/

namespace Sys2Proof

/-! ## What each payload layout reads (R63 to R67, R111) -/

theorem takeCfgPwm_eq_some {bs rest : List Byte} {i : Instr} :
    takeCfgPwm bs = some (i, rest) ↔ ∃ freq duty running, i = .cfgPwm freq duty running ∧ bs = operandBytes i ++ rest := by
  simp only [takeCfgPwm, Option.bind_eq_bind, Option.bind_eq_some_iff, Prod.exists, take32_eq_some, take8_eq_some]
  constructor
  · rintro ⟨freq, _, rfl, duty, _, rfl, running, _, rfl, h⟩
    cases h
    exact ⟨freq, duty, running, rfl, by simp [operandBytes]⟩
  · rintro ⟨freq, duty, running, rfl, rfl⟩
    exact ⟨freq, _, by simp only [operandBytes, List.append_assoc, List.singleton_append],
      duty, _, rfl, running, _, rfl, rfl⟩

theorem takeCfgHyst_eq_some {bs rest : List Byte} {i : Instr} :
    takeCfgHyst bs = some (i, rest) ↔
      ∃ freq target step maxCompare running,
        i = .cfgHyst freq target step maxCompare running ∧ bs = operandBytes i ++ rest := by
  simp only [takeCfgHyst, Option.bind_eq_bind, Option.bind_eq_some_iff, Prod.exists, take32_eq_some, take16_eq_some,
    take8_eq_some]
  constructor
  · rintro ⟨freq, _, rfl, target, _, rfl, step, _, rfl, maxCompare, _, rfl, running, _, rfl, h⟩
    cases h
    exact ⟨freq, target, step, maxCompare, running, rfl, by simp [operandBytes]⟩
  · rintro ⟨freq, target, step, maxCompare, running, rfl, rfl⟩
    exact ⟨freq, _, by simp only [operandBytes, List.append_assoc, List.singleton_append],
      target, _, rfl, step, _, rfl, maxCompare, _, rfl, running, _, rfl, rfl⟩

theorem takeCfgPid_eq_some {bs rest : List Byte} {i : Instr} :
    takeCfgPid bs = some (i, rest) ↔
      ∃ freq target kP kI kD maxIntegral maxDuty running,
        i = .cfgPid freq target kP kI kD maxIntegral maxDuty running ∧ bs = operandBytes i ++ rest := by
  simp only [takeCfgPid, Option.bind_eq_bind, Option.bind_eq_some_iff, Prod.exists, take32_eq_some, take8_eq_some]
  constructor
  · rintro ⟨freq, _, rfl, target, _, rfl, kP, _, rfl, kI, _, rfl, kD, _, rfl, maxIntegral, _, rfl, maxDuty, _, rfl,
      running, _, rfl, h⟩
    cases h
    exact ⟨freq, target, kP, kI, kD, maxIntegral, maxDuty, running, rfl, by simp [operandBytes]⟩
  · rintro ⟨freq, target, kP, kI, kD, maxIntegral, maxDuty, running, rfl, rfl⟩
    exact ⟨freq, _, by simp only [operandBytes, List.append_assoc, List.singleton_append],
      target, _, rfl, kP, _, rfl, kI, _, rfl, kD, _, rfl, maxIntegral, _, rfl, maxDuty, _, rfl, running, _, rfl, rfl⟩

theorem takeCfgCot_eq_some {bs rest : List Byte} {i : Instr} :
    takeCfgCot bs = some (i, rest) ↔
      ∃ target l iPeak startupFactor kP kI maxIntegral minCurrent csPeriod averageAge running,
        i = .cfgCot target l iPeak startupFactor kP kI maxIntegral minCurrent csPeriod averageAge running ∧
          bs = operandBytes i ++ rest := by
  simp only [takeCfgCot, Option.bind_eq_bind, Option.bind_eq_some_iff, Prod.exists, take32_eq_some, take8_eq_some]
  constructor
  · rintro ⟨target, _, rfl, l, _, rfl, iPeak, _, rfl, startupFactor, _, rfl, kP, _, rfl, kI, _, rfl, maxIntegral, _, rfl,
      minCurrent, _, rfl, csPeriod, _, rfl, averageAge, _, rfl, running, _, rfl, h⟩
    cases h
    exact ⟨target, l, iPeak, startupFactor, kP, kI, maxIntegral, minCurrent, csPeriod, averageAge, running, rfl,
      by simp [operandBytes]⟩
  · rintro ⟨target, l, iPeak, startupFactor, kP, kI, maxIntegral, minCurrent, csPeriod, averageAge, running, rfl, rfl⟩
    exact ⟨target, _, by simp only [operandBytes, List.append_assoc, List.singleton_append],
      l, _, rfl, iPeak, _, rfl, startupFactor, _, rfl, kP, _, rfl, kI, _, rfl, maxIntegral, _, rfl, minCurrent, _, rfl,
      csPeriod, _, rfl, averageAge, _, rfl, running, _, rfl, rfl⟩

theorem takeHk_eq_some {bs rest : List Byte} {i : Instr} :
    takeHk bs = some (i, rest) ↔ ∃ now, i = .hk now ∧ bs = operandBytes i ++ rest := by
  simp only [takeHk, Option.bind_eq_bind, Option.bind_eq_some_iff, Prod.exists, take32_eq_some]
  constructor
  · rintro ⟨now, _, rfl, h⟩
    cases h
    exact ⟨now, rfl, rfl⟩
  · rintro ⟨now, rfl, rfl⟩
    exact ⟨now, _, rfl, rfl⟩

theorem orTruncated_eq_ok {o : Option (Instr × List Byte)} {r : Instr × List Byte} :
    orTruncated o = .ok r ↔ o = some r := by
  cases o <;> simp [orTruncated]

/-! ## Messages and events -/

/-- A decoded message is its discriminant and its operand bytes, under any discriminant table. -/
theorem decodeMessage_eq_ok {t : DiscTable} {d : Byte} {bs rest : List Byte} {i : Instr}
    (h : decodeMessage t d bs = .ok (i, rest)) :
    kindByte i = 0 ∧ d = discByte t i ∧ bs = operandBytes i ++ rest := by
  unfold decodeMessage at h
  split at h
  · obtain ⟨freq, duty, running, rfl, hb⟩ := takeCfgPwm_eq_some.1 (orTruncated_eq_ok.1 h)
    exact ⟨rfl, by assumption, hb⟩
  split at h
  · obtain ⟨_, _, _, _, _, rfl, hb⟩ := takeCfgHyst_eq_some.1 (orTruncated_eq_ok.1 h)
    exact ⟨rfl, by assumption, hb⟩
  split at h
  · obtain ⟨_, _, _, _, _, _, _, _, rfl, hb⟩ := takeCfgPid_eq_some.1 (orTruncated_eq_ok.1 h)
    exact ⟨rfl, by assumption, hb⟩
  split at h
  · obtain ⟨_, _, _, _, _, _, _, _, _, _, _, rfl, hb⟩ := takeCfgCot_eq_some.1 (orTruncated_eq_ok.1 h)
    exact ⟨rfl, by assumption, hb⟩
  split at h
  · cases h
    exact ⟨rfl, by assumption, rfl⟩
  · cases h

/-- A message is read back from its discriminant and its operand bytes where the inbound discriminants differ. -/
theorem decodeMessage_operandBytes {t : DiscTable} {i : Instr} (ht : t.wf = true) (hk : kindByte i = 0)
    (rest : List Byte) : decodeMessage t (discByte t i) (operandBytes i ++ rest) = .ok (i, rest) := by
  simp only [DiscTable.wf, DiscTable.inbound, List.nodup_cons, List.mem_cons, not_or, decide_eq_true_eq] at ht
  obtain ⟨⟨h1, h2, h3, h4, -⟩, ⟨h5, h6, h7, -⟩, ⟨h8, h9, -⟩, ⟨h10, -⟩, -⟩ := ht
  unfold decodeMessage
  cases i with
  | cfgPwm freq duty running =>
    rw [discByte, if_pos rfl, orTruncated_eq_ok, takeCfgPwm_eq_some]
    exact ⟨_, _, _, rfl, rfl⟩
  | cfgHyst freq target step maxCompare running =>
    rw [discByte, if_neg (Ne.symm h1), if_pos rfl, orTruncated_eq_ok, takeCfgHyst_eq_some]
    exact ⟨_, _, _, _, _, rfl, rfl⟩
  | cfgPid freq target kP kI kD maxIntegral maxDuty running =>
    rw [discByte, if_neg (Ne.symm h2), if_neg (Ne.symm h5), if_pos rfl, orTruncated_eq_ok, takeCfgPid_eq_some]
    exact ⟨_, _, _, _, _, _, _, _, rfl, rfl⟩
  | cfgCot target l iPeak startupFactor kP kI maxIntegral minCurrent csPeriod averageAge running =>
    rw [discByte, if_neg (Ne.symm h3), if_neg (Ne.symm h6), if_neg (Ne.symm h8), if_pos rfl, orTruncated_eq_ok,
      takeCfgCot_eq_some]
    exact ⟨_, _, _, _, _, _, _, _, _, _, _, rfl, rfl⟩
  | cmdArm =>
    rw [discByte, if_neg (Ne.symm h4), if_neg (Ne.symm h7), if_neg (Ne.symm h9), if_neg (Ne.symm h10), if_pos rfl]
    rfl
  | tick => cases hk
  | hk now => cases hk

/-- An event is read back from its bytes, whatever follows. -/
theorem decodeEvent_encode {t : DiscTable} (ht : t.wf = true) (i : Instr) (rest : List Byte) :
    decodeEvent t (encode t i ++ rest) = .ok (i, rest) := by
  have message (hk : kindByte i = 0) : decodeEvent t (encode t i ++ rest) = .ok (i, rest) := by
    simp only [encode, List.cons_append, decodeEvent, if_pos hk]
    exact decodeMessage_operandBytes ht hk rest
  cases i with
  | tick => rfl
  | hk now => exact orTruncated_eq_ok.2 (takeHk_eq_some.2 ⟨now, rfl, rfl⟩)
  | cfgPwm _ _ _ => exact message rfl
  | cfgHyst _ _ _ _ _ => exact message rfl
  | cfgPid _ _ _ _ _ _ _ _ => exact message rfl
  | cfgCot _ _ _ _ _ _ _ _ _ _ _ => exact message rfl
  | cmdArm => exact message rfl

theorem decodeWhole_eq_ok {t : DiscTable} {bs : List Byte} {i : Instr} :
    decodeWhole t bs = .ok i ↔ decodeEvent t bs = .ok (i, []) := by
  unfold decodeWhole
  split <;> simp_all

/-- Settles O1: each payload layout reads back what it was written from, and the discriminants, being different, lead
each message to its own layout. -/
theorem decodingInvertsEncoding : Obligations.DecodingInvertsEncoding := fun t i ht _ =>
  ⟨decodeWhole_eq_ok.2 (by simpa using decodeEvent_encode ht i []), decodeEvent_encode ht i,
    decodeMessage_operandBytes ht⟩

/-- Settles O2: each branch of the decoder fixes the two code bytes, and each layout its operand bytes. -/
theorem encodingInvertsDecoding : Obligations.EncodingInvertsDecoding := by
  intro t bytes rest i h
  unfold decodeEvent at h
  split at h
  swap
  · cases h
  rename_i disc kind bs
  split at h
  · obtain ⟨hk, rfl, rfl⟩ := decodeMessage_eq_ok h
    simp [encode, *]
  split at h
  · split at h
    · cases h
      simp [encode, discByte, kindByte, operandBytes, *]
    · cases h
  split at h
  · split at h
    · obtain ⟨now, rfl, rfl⟩ := takeHk_eq_some.1 (orTruncated_eq_ok.1 h)
      simp [encode, discByte, kindByte, *]
    · cases h
  · cases h

/-! ## Event codes that stand for no event (R70) -/

theorem decodeMessage_unrecognized {t : DiscTable} {d : Byte} (h : d ∉ t.inbound) (bs : List Byte) :
    decodeMessage t d bs = .error (.unrecognizedDiscriminant d) := by
  simp only [DiscTable.inbound, List.mem_cons, not_or] at h
  obtain ⟨h1, h2, h3, h4, h5, -⟩ := h
  simp [decodeMessage, h1, h2, h3, h4, h5]

theorem decodeWhole_eq_error {t : DiscTable} {bs : List Byte} {e : DecodeError} (h : decodeEvent t bs = .error e) :
    decodeWhole t bs = .error e := by
  simp [decodeWhole, h]

end Sys2Proof

namespace Sys2Proof.Machine

/-- With no TICK pending an event at the head of the schedule is offered at the event port. -/
theorem step_event {s : State} {bytes : List Byte} {elapsed : Bool} {rest : List Input} (hw : s.params.wf = true)
    (hp : s.blk.tickPending = false) (hi : s.env.inputs = ⟨.event bytes, elapsed⟩ :: rest) :
    step s = offerEvent bytes elapsed rest s := by
  simp [step, hw, turn, hi, hp, backgroundTurn]

theorem offerEvent_undecodable {s : State} {bytes : List Byte} {e : DecodeError} (h : decodeEvent s.params.disc bytes = .error e)
    (elapsed : Bool) (rest : List Input) : offerEvent bytes elapsed rest s = .refused (.undecodable e) := by
  simp [offerEvent, decodeWhole_eq_error h]

/-- Settles O4: the kind byte chooses the branch of the decoder, and each of the three codes ends in its own error. -/
theorem reservedCodesRefused : Obligations.ReservedCodesRefused := by
  intro s disc kind tail elapsed rest hw hp hi
  rw [step_event hw hp hi]
  refine ⟨fun hk => ?_, fun hk hd => ?_, fun hk hd => ?_⟩
  · have ne (n : Nat) (hn : n < 3) : kind ≠ BitVec.ofNat 8 n := by
      rintro rfl
      simp at hk
      omega
    exact offerEvent_undecodable (by simp [decodeEvent, ne 0, ne 1, ne 2]) _ _
  · refine offerEvent_undecodable ?_ _ _
    have hd' : disc ≠ 0#8 := hd
    obtain rfl | rfl := hk <;> simp [decodeEvent, hd']
  · subst hk
    exact offerEvent_undecodable (bytes := disc :: 0 :: tail) (decodeMessage_unrecognized hd tail) _ _

end Sys2Proof.Machine

namespace Sys2Proof

/-- Settles O3: each word is the encoding of its event. -/
theorem specWordsDecode : Obligations.SpecWordsDecode := by
  unfold Obligations.SpecWordsDecode
  refine ⟨?_, ?_, ?_, ?_, ?_, ?_, ?_⟩ <;> decide

end Sys2Proof
end

section
/-! SUPPORT. Negation, and bounds that are not negative. -/

namespace Sys2Proof

@[simp] theorem finite_neg (x : Quantity) : x.neg.finite = x.finite := by cases x <;> rfl

@[simp] theorem isNaN_neg (x : Quantity) : x.neg.isNaN = x.isNaN := by cases x <;> rfl

theorem signedValue_not (s : Bool) (m : Mag) : signedValue (!s) m = -signedValue s m := by
  cases s <;> simp [signedValue]

@[simp] theorem toRat_neg (x : Quantity) : x.neg.toRat = -x.toRat := by
  cases x with
  | nan => simp [Quantity.neg, Quantity.toRat]
  | inf s => simp [Quantity.neg, Quantity.toRat]
  | fin s m => simp [Quantity.neg, toRat_fin, signedValue_not, neg_div]
  | exact q => rfl

theorem zero_isNaN (dom : NumDomain) : (dom.num 0).isNaN = false := Quantity.isNaN_of_finite (num_zero dom).1

theorem zero_le_iff {dom : NumDomain} {x : Quantity} (hx : x.finite = true) :
    (dom.num 0).le x = true ↔ 0 ≤ x.toRat := by
  rw [Quantity.le_iff_toRat (num_zero dom).1 hx, (num_zero dom).2]

/-- A value that is not negative is a finite one, or positive infinity. -/
theorem finite_or_inf_of_nonneg {dom : NumDomain} {x : Quantity} (h : (dom.num 0).le x = true) :
    x.finite = true ∨ x = .inf false := by
  cases x with
  | nan => simp [Quantity.le, Quantity.isNaN] at h
  | inf s =>
    cases s
    · exact Or.inr rfl
    · rw [Quantity.le_iff, Quantity.order_of_finite (num_zero dom).1] at h
      simp [Quantity.order] at h
  | fin s m => exact Or.inl rfl
  | exact q => exact Or.inl rfl

/-- Minus a bound that is not negative lies at or below zero. -/
theorem neg_le_zero {dom : NumDomain} {x : Quantity} (h : (dom.num 0).le x = true) : x.neg.le (dom.num 0) = true := by
  obtain hx | rfl := finite_or_inf_of_nonneg h
  · rw [zero_le_iff hx] at h
    rw [Quantity.le_iff_toRat (by simpa using hx) (num_zero dom).1, toRat_neg, (num_zero dom).2]
    exact neg_nonpos.2 h
  · rw [Quantity.le_iff]
    exact ⟨rfl, zero_isNaN dom, bot_le⟩

end Sys2Proof

namespace Sys2Proof.Machine

theorem zero_within_unit (dom : NumDomain) : Within (dom.num 0) (dom.num 0) (dom.num 1) :=
  ⟨Quantity.le_refl (zero_isNaN dom), num_zero_le_one dom⟩

/-- Zero lies between minus and plus a bound that is not negative. -/
theorem zero_within_bound {dom : NumDomain} {x : Quantity} (h : (dom.num 0).le x = true) :
    Within x.neg (dom.num 0) x := ⟨neg_le_zero h, h⟩

/-- A bound that is not negative holds what is clamped to it (43_pid.md R100). -/
theorem clamp_within_bound {dom : NumDomain} {b : Quantity} (h : (dom.num 0).le b = true) (x : Quantity) :
    Within b.neg (clamp x b.neg b) b := clamp_within x (Quantity.le_trans (neg_le_zero h) h)

end Sys2Proof.Machine
end

section
/-! SUPPORT. What a TICK and a background event can do, and the statements that follow from it alone: completion, frames,
modes (40_mode_controller.md, 41_control_tick.md). -/

namespace Sys2Proof.Machine

/-! ## The meaning of each event -/

theorem exec_cfgPwm (freq duty : Word) (running : Byte) (s : State) :
    exec (.cfgPwm freq duty running) s = execCfgPwm freq duty running s := rfl

theorem exec_cfgHyst (freq target step : Word) (maxCompare : Half) (running : Byte) (s : State) :
    exec (.cfgHyst freq target step maxCompare running) s = execCfgHyst freq target step maxCompare running s := rfl

theorem exec_cfgPid (freq target kP kI kD maxIntegral maxDuty : Word) (running : Byte) (s : State) :
    exec (.cfgPid freq target kP kI kD maxIntegral maxDuty running) s =
      execCfgPid freq target kP kI kD maxIntegral maxDuty running s := rfl

theorem exec_cfgCot (target l iPeak startupFactor kP kI maxIntegral minCurrent csPeriod averageAge : Word)
    (running : Byte) (s : State) :
    exec (.cfgCot target l iPeak startupFactor kP kI maxIntegral minCurrent csPeriod averageAge running) s =
      execCfgCot target l iPeak startupFactor kP kI maxIntegral minCurrent csPeriod averageAge running s := rfl

theorem exec_hk (now : Word) (s : State) : exec (.hk now) s = execHk now s := rfl

/-! ## TICK (41_control_tick.md R88) -/

/-- The record, the registers and the outcome a TICK leaves: those before, or what the installed control law commits. -/
inductive TickCase (s : State) : Regulator → Hw → OpOutcome → Prop where
  | kept (o : OpOutcome) (ho : o = .ok ∨ o = .tickNoop) : TickCase s s.blk.reg s.hw o
  | hyst (r r' : HystRec) (c : Int) (hr : s.blk.reg = .hyst r)
    (next : hystNext s.params.num r s.hw.pwmArr (feedback s).vout = some (r', c)) :
    TickCase s (.hyst r') { s.hw with pwmCcr := registerValue s.params c } .ok
  | pid (r r' : PidRec) (c : Int) (hr : s.blk.reg = .pid r)
    (next : pidNext s.params.num r s.hw.pwmArr (feedback s).vout = some (r', c)) :
    TickCase s (.pid r') { s.hw with pwmCcr := registerValue s.params c } .ok
  | cot (r : CotRec) (w : CotWrite) (hr : s.blk.reg = .cot r)
    (next : cotNext s.params s.blk.running r (feedback s).vout (feedback s).vin = some w) :
    TickCase s (.cot w.record) (cotHw s.hw w) .ok

/-- The capture is untouched, or one record was logged into it. -/
def CaptureLogged (capacity : Nat) (c c' : Capture) : Prop := c' = c ∨ ∃ rec, c' = loggedCapture capacity rec c

/-- What a TICK leaves, in one form for every mode. -/
structure TickResult (s t : State) : Prop where
  running : s.hw.ctrlRun = true
  law : TickCase s t.blk.reg t.hw t.env.outcome
  capture : CaptureLogged s.params.capCapacity s.blk.cap t.blk.cap
  inIdle : s.blk.reg = .idle → t.blk.cap = s.blk.cap
  frame :
    t =
      { s with
        blk := { s.blk with reg := t.blk.reg, cap := t.blk.cap, tickPending := false }
        hw := t.hw
        env := { s.env with outcome := t.env.outcome } }

theorem tickResult_tickedState {s : State} {reg : Regulator} {hw : Hw} {o : OpOutcome} (hc : s.hw.ctrlRun = true)
    (ha : s.blk.reg ≠ .idle) (law : TickCase s reg hw o) (rec : List Byte) :
    TickResult s (tickedState s reg hw o rec) :=
  ⟨hc, law, Or.inr ⟨rec, rfl⟩, fun h => absurd h ha, rfl⟩

theorem execTick_eq_next {s t : State} (h : execTick s = .next t) : TickResult s t := by
  have noop {reg : Regulator} (hr : s.blk.reg = reg) : TickCase s reg s.hw .tickNoop := hr ▸ .kept _ (Or.inr rfl)
  obtain ⟨hc, ⟨hr, rfl⟩ | ⟨r, hr, rfl⟩ | ⟨r, hr, rfl⟩ | ⟨r, hr, rfl⟩ | ⟨r, hr, rfl⟩⟩ := execTick_cases h
  · exact ⟨hc, .kept _ (Or.inl rfl), Or.inl rfl, fun _ => rfl, rfl⟩
  · exact tickResult_tickedState hc (by simp [hr]) (hr ▸ .kept _ (Or.inl rfl)) _
  · cases hn : hystNext s.params.num r s.hw.pwmArr (feedback s).vout with
    | none => exact tickResult_tickedState hc (by simp [hr]) (noop hr) _
    | some x => exact tickResult_tickedState hc (by simp [hr]) (.hyst r x.1 x.2 hr hn) _
  · cases hn : pidNext s.params.num r s.hw.pwmArr (feedback s).vout with
    | none => exact tickResult_tickedState hc (by simp [hr]) (noop hr) _
    | some x => exact tickResult_tickedState hc (by simp [hr]) (.pid r x.1 x.2 hr hn) _
  · cases hn : cotNext s.params s.blk.running r (feedback s).vout (feedback s).vin with
    | none => exact tickResult_tickedState hc (by simp [hr]) (noop hr) _
    | some w => exact tickResult_tickedState hc (by simp [hr]) (.cot r w hr hn) _

/-- TICK completes in every mode while the timer runs. -/
theorem execTick_completes {s : State} (hc : s.hw.ctrlRun = true) : ∃ t, execTick s = .next t := by
  cases hr : s.blk.reg with
  | idle => exact ⟨_, execTick_idle hc hr⟩
  | pwm r => exact ⟨_, execTick_pwm hc hr⟩
  | hyst r => exact ⟨_, execTick_hyst hc hr⟩
  | pid r => exact ⟨_, execTick_pid hc hr⟩
  | cot r => exact ⟨_, execTick_cot hc hr⟩

theorem TickCase.mode_eq {s : State} {reg : Regulator} {hw : Hw} {o : OpOutcome} (h : TickCase s reg hw o) :
    reg.mode = s.mode := by
  cases h with
  | kept o ho => rfl
  | hyst r r' c hr next => simp [hr, Regulator.mode]
  | pid r r' c hr next => simp [hr, Regulator.mode]
  | cot r w hr next => simp [hr, Regulator.mode]

theorem TickCase.outcome_eq {s : State} {reg : Regulator} {hw : Hw} {o : OpOutcome} (h : TickCase s reg hw o) :
    o = .ok ∨ o = .tickNoop := by
  cases h with
  | kept o ho => exact ho
  | hyst r r' c hr next => exact Or.inl rfl
  | pid r r' c hr next => exact Or.inl rfl
  | cot r w hr next => exact Or.inl rfl

/-- A TICK writes no register but the PWM triple and the output enable. -/
theorem TickCase.hw_frame {s : State} {reg : Regulator} {hw : Hw} {o : OpOutcome} (h : TickCase s reg hw o) :
    hw = { s.hw with pwmPsc := hw.pwmPsc, pwmArr := hw.pwmArr, pwmCcr := hw.pwmCcr, pwmOe := hw.pwmOe } := by
  cases h with
  | kept o ho => rfl
  | hyst r r' c hr next => rfl
  | pid r r' c hr next => rfl
  | cot r w hr next => unfold cotHw; split <;> rfl

/-- A TICK enables the output only where the last config said `running` (44_cot.md R106, R107). -/
theorem TickCase.oe_of_running {s : State} {reg : Regulator} {hw : Hw} {o : OpOutcome} (h : TickCase s reg hw o)
    (hoe : hw.pwmOe = true) : s.hw.pwmOe = true ∨ (s.blk.running = true ∧ s.mode ≠ .idle) := by
  cases h with
  | kept o ho => exact Or.inl hoe
  | hyst r r' c hr next => exact Or.inl hoe
  | pid r r' c hr next => exact Or.inl hoe
  | cot r w hr next =>
    have hw : w.oe = true := by unfold cotHw at hoe; split at hoe <;> exact hoe
    exact Or.inr ⟨(cotNext_commit next).onlyRunning hw, by simp [hr, Regulator.mode]⟩

theorem CaptureLogged.armed_eq {capacity : Nat} {c c' : Capture} (h : CaptureLogged capacity c c') :
    c'.armed = c.armed := by
  obtain rfl | ⟨rec, rfl⟩ := h
  · rfl
  · exact loggedCapture_armed _ _ _

theorem CaptureLogged.of_full {capacity : Nat} {c c' : Capture} (h : CaptureLogged capacity c c')
    (hf : c.full = true) : c' = c := by
  obtain rfl | ⟨rec, rfl⟩ := h
  · rfl
  · exact loggedCapture_of_full hf

theorem CaptureLogged.cursor_le {capacity : Nat} {c c' : Capture} (h : CaptureLogged capacity c c')
    (hc : c.cursor ≤ capacity) : c'.cursor ≤ capacity := by
  obtain rfl | ⟨rec, rfl⟩ := h
  · exact hc
  · exact loggedCapture_cursor_le hc

theorem CaptureLogged.buf_wf {capacity : Nat} {c c' : Capture} (h : CaptureLogged capacity c c')
    (hc : c.buf.wf = true) : c'.buf.wf = true := by
  obtain rfl | ⟨rec, rfl⟩ := h
  · exact hc
  · exact loggedCapture_wf hc

/-- Settles O17: while the timer runs a TICK has a result in each mode, and `TickResult` is its frame. -/
theorem tickCompletes : Obligations.TickCompletes := by
  refine fun s => ⟨execTick_stopped, fun hc => ?_⟩
  obtain ⟨t, ht⟩ := execTick_completes hc
  have result := execTick_eq_next ht
  refine ⟨t, ht, ?_, result.law.mode_eq, result.capture.armed_eq, result.law.outcome_eq, fun hm => ?_⟩
  · rw [← result.law.hw_frame]
    exact result.frame
  · have hr : s.blk.reg = .idle := by
      cases h : s.blk.reg <;> simp [h, Regulator.mode] at hm ⊢
    rw [execTick_idle hc hr] at ht
    exact (Host.Outcome.next.inj ht).symm

/-- Settles O18: the two branches of the append, and what a range write reads back as. -/
theorem appendStoresOrSetsFull : Obligations.AppendStoresOrSetsFull := by
  intro s rec hw ha hf
  by_cases h : s.params.capCapacity < s.blk.cap.cursor + rec.length
  · exact ⟨_, appendRecord_full h, rfl, fun _ => rfl, fun h' => absurd h (Nat.not_lt.2 h')⟩
  · refine ⟨_, appendRecord_fits (Nat.not_lt.1 h), rfl, fun h' => absurd h' h, fun _ => ⟨rfl, hf, ha, fun k hk => ?_, ?_⟩⟩
    · simp [Memory.read_writeRange hw, hk]
    · exact fun a ha => Memory.read_writeRange_outside hw _ ha

/-! ## Background events -/

/-- What the four config messages hand to the transition (R83 to R86). -/
structure ConfigCase (s : State) (i : Instr) (reg : Regulator) (regs : Option PwmRegs) : Prop where
  mode_eq : reg.mode = modeAfter i s.mode
  active : reg.mode ≠ .idle
  fromCalc : ∀ g, regs = some g → ∃ f d, freqCalc s.params f d = some g
  numbers : s.params.wf = true → ∀ x ∈ recordNumbers reg, s.params.num.has x = true
  inRange : s.params.wf = true → ∀ t : State, t.params = s.params → t.blk.reg = reg → RecordInRange t

theorem has_emaAlpha {p : Params} (hp : p.wf = true) {age : Quantity} (h : p.num.has age = true) :
    p.num.has (emaAlpha p age) = true := by
  obtain ⟨-, -, -, -, -, hn⟩ := Params.wf_iff.1 hp
  have hperiod : p.num.has p.ctrlPeriodS = true := by
    simp [Params.numbersOk, Params.numbers] at hn
    exact hn.1.1
  exact has_div hperiod (has_add h hperiod)

/-- All a background event can do. -/
inductive BackgroundCase (s : State) (i : Instr) (t : State) : Prop where
  /-- A config message: a transition. -/
  | config (reg : Regulator) (regs : Option PwmRegs) (running : Bool) (c : ConfigCase s i reg regs)
    (e : t = setOutcome .ok (transition reg regs running s))
  /-- The arm command. -/
  | arm (hi : i = .cmdArm)
    (e : t =
      { s with
        blk := { s.blk with cap := { buf := s.blk.cap.buf, cursor := 0, armed := true, full := false } }
        env := { s.env with outcome := .ok } })
  /-- HK flushes a full armed capture. -/
  | flush (now : Word) (hi : i = .hk now) (armed : s.blk.cap.armed = true) (full : s.blk.cap.full = true)
    (e : t =
      { s with
        blk :=
          { s.blk with
            hk :=
              { s.blk.hk with
                outbox := some ⟨.blob, s.params.disc.captureBlob :: s.blk.cap.buf.readRange 0 s.params.capCapacity⟩ } }
        env := { s.env with outcome := .ok, lastNow := some (s.params.num.ofBits now) } })
  /-- HK starts a telemetry send. -/
  | telemetry (now : Word) (hi : i = .hk now) (active : s.mode ≠ .idle)
    (e : t =
      { s with
        blk :=
          { s.blk with
            hk :=
              { lastTelemetry := some (s.params.num.ofBits now)
                outbox := some ⟨.telemetry, s.params.disc.telemetry :: Config.telemetry s.blk s.hw⟩ } }
        env := { s.env with outcome := .ok, lastNow := some (s.params.num.ofBits now) } })
  /-- HK records the time. -/
  | quiet (now : Word) (hi : i = .hk now)
    (e : t = { s with env := { s.env with outcome := .ok, lastNow := some (s.params.num.ofBits now) } })

theorem configure_case {s t : State} {i : Instr} {reg : Regulator} {regs : Option PwmRegs} {running : Bool}
    (c : ConfigCase s i reg regs) (h : configure reg regs running s = .next t) :
    s.blk.hk.outbox = none ∧ BackgroundCase s i t := by
  obtain ⟨ho, e⟩ := configure_eq_next h
  exact ⟨ho, .config reg regs running c e⟩

/-- What a background event leaves, and that nothing was being sent. -/
theorem exec_background_eq_next {s t : State} {i : Instr} (hb : i.periodic = false) (h : exec i s = .next t) :
    s.blk.hk.outbox = none ∧ BackgroundCase s i t := by
  cases i with
  | cfgPwm freq duty running =>
    refine configure_case ⟨rfl, by simp [Regulator.mode], fun _ h => ⟨_, _, h⟩, fun _ => ?_, fun _ t _ hr => ?_⟩ h
    · simp [recordNumbers, has_ofBits]
    · simp [RecordInRange, hr]
  | cfgHyst freq target step maxCompare running =>
    refine configure_case ⟨rfl, by simp [Regulator.mode], fun _ h => ⟨_, _, h⟩, fun _ => ?_, fun _ t hp hr => ?_⟩ h
    · simp [recordNumbers, has_ofBits, has_num]
    · simpa [RecordInRange, hr, hp] using zero_within_unit s.params.num
  | cfgPid freq target kP kI kD maxIntegral maxDuty running =>
    refine configure_case ⟨rfl, by simp [Regulator.mode], fun _ h => ⟨_, _, h⟩, fun _ => ?_, fun _ t hp hr => ?_⟩ h
    · simp [recordNumbers, has_ofBits, has_num]
    · simp only [RecordInRange, hr, hp]
      exact ⟨zero_within_unit s.params.num, zero_within_bound⟩
  | cfgCot target l iPeak startupFactor kP kI maxIntegral minCurrent csPeriod averageAge running =>
    refine configure_case (regs := none) ⟨rfl, by simp [Regulator.mode], nofun, fun hw => ?_, fun hw t hp hr => ?_⟩ h
    · simp [recordNumbers, has_ofBits, has_num, has_emaAlpha hw]
    · obtain ⟨-, -, -, hs, -⟩ := Params.wf_iff.1 hw
      simp [Params.skipOk] at hs
      simp [RecordInRange, hr, hp, hs]
  | cmdArm =>
    obtain ⟨ho, e⟩ := execCmdArm_eq_next h
    exact ⟨ho, .arm rfl e⟩
  | tick => cases hb
  | hk now =>
    obtain ⟨ho, -, h⟩ := execHk_eq_next h
    refine ⟨ho, ?_⟩
    rw [flushOrTelemetry_eq] at h
    have e := (Host.Outcome.next.inj h).symm
    split at e
    · rename_i hc
      rw [Bool.and_eq_true] at hc
      exact .flush now rfl hc.1 hc.2 e
    · obtain hq | ⟨hm, ht⟩ := telemetryStep_cases (s.params.num.ofBits now)
        (setOutcome .ok { s with env := { s.env with lastNow := some (s.params.num.ofBits now) } })
      · exact .quiet now rfl (e.trans hq)
      · exact .telemetry now rfl hm (e.trans ht)

end Sys2Proof.Machine
end

section
/-! SUPPORT. The statements about power-on, the config messages and the modes (40_mode_controller.md,
70_reset_and_hazards.md). -/

namespace Sys2Proof.Machine

/-! ## Power-on (70_reset_and_hazards.md R130) -/

/-- The idle default at the parameters of the test vectors. -/
theorem idleRegs_default : idleRegs .default = ⟨1, 36000, 360⟩ := by decide +kernel

/-- Settles O7: each row is a field of `State.powerOn`; the triple is the idle default, evaluated once. -/
theorem powerOnState : Obligations.PowerOnState := by
  refine ⟨fun _ _ _ _ _ _ => ⟨rfl, rfl, rfl, rfl, rfl, rfl, rfl, rfl, rfl, rfl, rfl, rfl, rfl, rfl, rfl, rfl⟩, ?_⟩
  rw [State.reset, State.powerOn, idleRegs_default]

/-- Settles O8: the registers are the idle default, which `idleRegs_range` keeps in range for every parameter set; the
other parts are about empty memories and cleared bits. -/
theorem resetMeetsInvariant : Obligations.ResetMeetsInvariant where
  instanceOk := by decide
  memories := ⟨rfl, rfl, rfl⟩
  regs := idleRegs_range .default
  positions := ⟨Nat.zero_le _, Nat.zero_le _, by decide⟩
  runBits := ⟨rfl, rfl, rfl, nofun, nofun⟩
  record := trivial
  send := nofun
  buffers := ⟨fun _ => Or.inl rfl, fun _ => rfl⟩
  numbers := ⟨nofun, nofun, nofun, nofun⟩

/-! ## Config messages (R79 to R86) -/

/-- A config operation completes where nothing is being sent, and leaves the configured state. -/
theorem configure_configured {s : State} (hw : s.params.wf = true) (ho : s.blk.hk.outbox = none) (reg : Regulator)
    (regs : Option PwmRegs) (running : Bool) :
    ∃ t, configure reg regs running s = .next t ∧ Configured s t reg (regs.getD (idleRegs s.params)) running :=
  ⟨_, configure_none ho reg regs running, transition_configured (Params.ringCap_pos hw) reg regs running⟩

/-- Settles O9: the message is a transition to the record of its payload. -/
theorem cfgPwmInstallsPassthrough : Obligations.CfgPwmInstallsPassthrough := fun s freq duty running hw ho => by
  rw [exec_cfgPwm]
  exact configure_configured hw ho _ _ _

/-- Settles O10: the message is a transition to the record of its payload with a zero duty. -/
theorem cfgHystInstallsHysteretic : Obligations.CfgHystInstallsHysteretic :=
  fun s freq target step maxCompare running hw ho => by
    rw [exec_cfgHyst]
    exact configure_configured hw ho _ _ _

/-- Settles O11: the message is a transition to the record of its payload with zero integral, error and duty. -/
theorem cfgPidInstallsPid : Obligations.CfgPidInstallsPid :=
  fun s freq target kP kI kD maxIntegral maxDuty running hw ho => by
    rw [exec_cfgPid]
    exact configure_configured hw ho _ _ _

/-- Settles O12: the message is a transition that writes no triple after the reset. -/
theorem cfgCotInstallsConstantOnTime : Obligations.CfgCotInstallsConstantOnTime :=
  fun s target l iPeak startupFactor kP kI maxIntegral minCurrent csPeriod averageAge running hw ho => by
    rw [exec_cfgCot]
    exact configure_configured hw ho _ none _

/-! ## The mode after an event (R79) -/

theorem BackgroundCase.mode_eq {s t : State} {i : Instr} (h : BackgroundCase s i t) : t.mode = modeAfter i s.mode := by
  cases h with
  | config reg regs running c e => rw [e]; exact c.mode_eq
  | arm hi e => rw [hi, e]; rfl
  | flush now hi armed full e => rw [hi, e]; rfl
  | telemetry now hi active e => rw [hi, e]; rfl
  | quiet now hi e => rw [hi, e]; rfl

/-- Settles O15: a background event leads where `BackgroundCase` says, and a TICK keeps the mode. -/
theorem modeTransitionTable : Obligations.ModeTransitionTable := fun s t i h => by
  cases hb : i.periodic with
  | false => exact (exec_background_eq_next hb h).2.mode_eq
  | true =>
    cases i with
    | tick => exact (execTick_eq_next h).law.mode_eq
    | _ => cases hb

end Sys2Proof.Machine
end

section
/-! SUPPORT. What one step of the schedule is, and what every step keeps: parameters, memories, registers, run bits,
numbers, and the whole invariant of a run. -/

namespace Sys2Proof.Machine

/-! ## What a step is (60_exceptions.md R119, R120) -/

theorem midOperation_eq_false {s : State} : midOperation s = false ↔ s.env.background = .idle := by
  unfold midOperation; split <;> simp_all

theorem backgroundStep_idle {s : State} (h : s.env.background = .idle) : backgroundStep s = .next s := by
  simp [backgroundStep, h]

/-- Whose step it is, and what that agent does. -/
inductive StepCase (s : State) (r : Result) : Prop where
  /-- A pending TICK runs. -/
  | pending (h : s.blk.tickPending = true) (e : r = exec .tick s)
  /-- The operation the background context is in goes on. -/
  | continues (e : r = backgroundStep s)
  /-- The same, as an entry of the schedule. -/
  | background (elapsed : Bool) (rest : List Input) (hi : s.env.inputs = ⟨.background, elapsed⟩ :: rest)
    (e : r = backgroundStep (requestTick elapsed (setInputs rest s)))
  /-- Bytes that are no event. -/
  | undecodable (bytes : List Byte) (elapsed : Bool) (rest : List Input) (d : DecodeError)
    (hi : s.env.inputs = ⟨.event bytes, elapsed⟩ :: rest) (dec : decodeWhole s.params.disc bytes = .error d)
    (e : r = .refused (.undecodable d))
  /-- The event TICK. -/
  | tick (bytes : List Byte) (elapsed : Bool) (rest : List Input) (hi : s.env.inputs = ⟨.event bytes, elapsed⟩ :: rest)
    (dec : decodeWhole s.params.disc bytes = .ok .tick) (e : r = requestAfter elapsed (exec .tick (setInputs rest s)))
  /-- A background event. -/
  | event (bytes : List Byte) (elapsed : Bool) (rest : List Input) (i : Instr)
    (hi : s.env.inputs = ⟨.event bytes, elapsed⟩ :: rest) (dec : decodeWhole s.params.disc bytes = .ok i)
    (bg : i.periodic = false) (idle : s.env.background = .idle)
    (e : r = exec i (requestTick elapsed (setInputs rest s)))
  /-- The transport begins a `submit`. -/
  | submit (chunk : List Byte) (elapsed : Bool) (rest : List Input)
    (hi : s.env.inputs = ⟨.submit chunk, elapsed⟩ :: rest) (idle : s.env.background = .idle)
    (e : r = whenBackgroundFree s fun s => .next (startSubmit chunk (requestTick elapsed (setInputs rest s))))
  /-- The host answers a send attempt. -/
  | attempt (answer : Answer) (elapsed : Bool) (rest : List Input)
    (hi : s.env.inputs = ⟨.attempt answer, elapsed⟩ :: rest) (idle : s.env.background = .idle)
    (e : r = sendAttempt answer (requestTick elapsed (setInputs rest s)))
  /-- The engine delivers a sample. -/
  | sample (v : Half) (elapsed : Bool) (rest : List Input) (hi : s.env.inputs = ⟨.sample v, elapsed⟩ :: rest)
    (e : r = .next (requestTick elapsed (engineSample v (setInputs rest s))))
  /-- The timer counts. -/
  | count (v : Nat) (elapsed : Bool) (rest : List Input) (hi : s.env.inputs = ⟨.count v, elapsed⟩ :: rest)
    (e : r = .next (requestTick elapsed (timerCount v (setInputs rest s))))

theorem periodic_eq_true {i : Instr} (h : i.periodic = true) : i = .tick := by
  cases i with
  | tick => rfl
  | _ => cases h

theorem offerEvent_cases {s : State} {bytes : List Byte} {elapsed : Bool} {rest : List Input}
    (hi : s.env.inputs = ⟨.event bytes, elapsed⟩ :: rest) : StepCase s (offerEvent bytes elapsed rest s) := by
  unfold offerEvent
  split
  · exact .undecodable bytes elapsed rest _ hi (by assumption) rfl
  · rename_i i dec
    split
    · rename_i hp
      obtain rfl := periodic_eq_true hp
      exact .tick bytes elapsed rest hi dec rfl
    · rename_i hp
      split
      · exact .continues rfl
      · rename_i hm
        exact .event bytes elapsed rest i hi dec (by simpa using hp) (midOperation_eq_false.1 (by simpa using hm)) rfl

theorem turn_cases (s : State) : StepCase s (turn s) := by
  unfold turn
  split
  · split
    · exact .pending (by assumption) rfl
    · exact .continues rfl
  · rename_i i rest hi
    split
    · rename_i hp
      exact .pending (Bool.and_eq_true_iff.1 hp).1 rfl
    · obtain ⟨action, elapsed⟩ := i
      cases action with
      | event bytes => exact offerEvent_cases hi
      | submit chunk =>
        simp only [backgroundTurn, offerSubmit]
        split
        · exact .continues rfl
        · rename_i hm
          exact .submit chunk elapsed rest hi (midOperation_eq_false.1 (by simpa using hm)) rfl
      | background => exact .background elapsed rest hi rfl
      | attempt answer =>
        simp only [backgroundTurn, offerAttempt]
        split
        · exact .continues rfl
        · rename_i hm
          exact .attempt answer elapsed rest hi (midOperation_eq_false.1 (by simpa using hm)) rfl
      | sample v => exact .sample v elapsed rest hi rfl
      | count v => exact .count v elapsed rest hi rfl

theorem requestAfter_eq_next {elapsed : Bool} {r : Result} {t : State} (h : requestAfter elapsed r = .next t) :
    ∃ u, r = .next u ∧ t = requestTick elapsed u := by
  cases r with
  | next u => exact ⟨u, rfl, (Host.Outcome.next.inj h).symm⟩
  | fault f => cases h
  | refused e => cases h

theorem step_instance {s : State} (hw : s.params.wf = true) : step s = turn s := if_pos hw

theorem step_eq_next {s t : State} (h : step s = .next t) : s.params.wf = true ∧ StepCase s (.next t) := by
  by_cases hw : s.params.wf = true
  · rw [step_instance hw] at h
    exact ⟨hw, h ▸ turn_cases s⟩
  · rw [step, if_neg hw] at h
    cases h

/-- Settles O50: with no TICK pending the event port gets the bytes, and the decoded event chooses the branch. -/
theorem stepRunsTheDecodedEvent : Obligations.StepRunsTheDecodedEvent := by
  intro s bytes elapsed rest i hw hi hp dec
  rw [step_event hw hp hi, offerEvent, dec]
  refine ⟨fun hper => if_pos hper, fun hper hb => ?_, fun hper hb => ?_⟩
  · simp only [hper, midOperation_eq_false.2 hb]
    rfl
  · have hm : midOperation s = true := by rwa [← Bool.not_eq_false, midOperation_eq_false]
    simp [hper, hm]

/-- Settles O51: both branches of `turn` test the pending bit first. -/
theorem pendingTickGoesFirst : Obligations.PendingTickGoesFirst := by
  intro s hw hp hd
  rw [step_instance hw, turn]
  split
  · rw [if_pos hp]
  · rename_i i rest hi
    rw [hp, hd i rest hi]
    rfl

/-! ## The sampling engine (20_memory.md R52) -/

theorem engineSample_running {s : State} (h : s.hw.adcRun = true) (v : Half) :
    engineSample v s =
      { s with
        ring := s.ring.write (s.hw.dmaPos % s.params.ringCap) v
        hw := { s.hw with dmaPos := (s.hw.dmaPos + 1) % s.params.ringCap } } := if_pos h

theorem engineSample_stopped {s : State} (h : s.hw.adcRun = false) (v : Half) : engineSample v s = s := by
  simp [engineSample, h]

/-- Settles O52: a device's entry is taken in every case, a pending TICK included, and the write position is its own
remainder. -/
theorem engineWritesOneSample : Obligations.EngineWritesOneSample := by
  intro s v elapsed rest hw hring hpos hi
  have hstep : step s = .next (requestTick elapsed (engineSample v (setInputs rest s))) := by
    simp [step_instance hw, turn, hi, Action.device, backgroundTurn]
  refine ⟨_, hstep, by simp, ?_, by simp, fun ha => ?_, fun ha => ?_⟩
  · cases ha : s.hw.adcRun with
    | true => simp [engineSample_running (s := setInputs rest s) ha]
    | false => simp [engineSample_stopped (s := setInputs rest s) ha]
  · rw [engineSample_running (s := setInputs rest s) ha]
    simp only [requestTick_hw, requestTick_ring, setInputs_hw, setInputs_ring, setInputs_params, Nat.mod_eq_of_lt hpos]
    exact ⟨trivial, Memory.read_write_same hring _ _, fun a hne => Memory.read_write_other hring hne _⟩
  · simp [engineSample_stopped (s := setInputs rest s) ha]

/-! ## Ring and counter have one writer each (10_state.md R28, R31) -/

/-- Ring and elapsed-cycle counter are as before. -/
def KeepsDevices (s t : State) : Prop := t.ring = s.ring ∧ t.hw.ctrlCnt = s.hw.ctrlCnt

theorem exec_keepsDevices {s t : State} {i : Instr} (h : exec i s = .next t) : KeepsDevices s t := by
  cases hb : i.periodic with
  | true =>
    obtain rfl := periodic_eq_true hb
    have result := execTick_eq_next h
    exact ⟨(congrArg State.ring result.frame).trans rfl, (congrArg Hw.ctrlCnt result.law.hw_frame).trans rfl⟩
  | false =>
    obtain ⟨-, case⟩ := exec_background_eq_next hb h
    cases case with
    | config reg regs running c e => rw [e, transition_eq]; exact ⟨rfl, rfl⟩
    | arm hi e => rw [e]; exact ⟨rfl, rfl⟩
    | flush now hi armed full e => rw [e]; exact ⟨rfl, rfl⟩
    | telemetry now hi active e => rw [e]; exact ⟨rfl, rfl⟩
    | quiet now hi e => rw [e]; exact ⟨rfl, rfl⟩

theorem framerStep_keepsDevices {s t : State} (h : framerStep s = .next t) : KeepsDevices s t := by
  cases framerStep_cases h with
  | idle h e => rw [e]; exact ⟨rfl, rfl⟩
  | finish h w e => rw [e]; exact ⟨rfl, rfl⟩
  | copy left k h ne w hk fits e => rw [e]; exact ⟨rfl, rfl⟩
  | error left d h pos hd unknown e => rw [e]; exact ⟨rfl, rfl⟩
  | dispatch left d n i tail u h pos hd len whole dec bg ex e => rw [e]; exact exec_keepsDevices (t := u) ex

theorem resumeHk_keepsDevices (now : Quantity) (s : State) : KeepsDevices s (resumeHk now s) := by
  obtain e | ⟨-, e⟩ := resumeHk_cases now s <;> rw [e] <;> exact ⟨rfl, rfl⟩

theorem backgroundStep_keepsDevices {s t : State} (h : backgroundStep s = .next t) : KeepsDevices s t := by
  unfold backgroundStep at h
  split at h
  · cases h; exact ⟨rfl, rfl⟩
  · exact framerStep_keepsDevices h
  · cases h; exact resumeHk_keepsDevices _ s

theorem sendAttempt_keepsDevices {s t : State} {a : Answer} (h : sendAttempt a s = .next t) : KeepsDevices s t := by
  obtain ⟨o, -, ⟨-, e⟩ | ⟨-, -, e⟩ | ⟨-, -, now, -, e⟩⟩ := sendAttempt_eq_next h <;> rw [e] <;> exact ⟨rfl, rfl⟩

theorem keepsDevices_scheduled {s t : State} {elapsed : Bool} {rest : List Input}
    (h : KeepsDevices (requestTick elapsed (setInputs rest s)) t) : KeepsDevices s t := by
  simpa [KeepsDevices] using h

/-- Settles O53: of all that a step can be, only a sample writes the ring and only a count the counter. -/
theorem ringAndCounterHaveOneWriter : Obligations.RingAndCounterHaveOneWriter := by
  intro s t h
  have kept (k : KeepsDevices s t) :
      (t.ring ≠ s.ring →
        s.hw.adcRun = true ∧ ∃ v elapsed rest, s.env.inputs = ⟨.sample v, elapsed⟩ :: rest) ∧
      (t.hw.ctrlCnt ≠ s.hw.ctrlCnt →
        ∃ v elapsed rest, s.env.inputs = ⟨.count v, elapsed⟩ :: rest ∧ t.hw.ctrlCnt = v % 2 ^ s.params.ctrlCntBits) :=
    ⟨fun hr => absurd k.1 hr, fun hc => absurd k.2 hc⟩
  obtain ⟨-, case⟩ := step_eq_next h
  cases case with
  | pending h e => exact kept (exec_keepsDevices e.symm)
  | continues e => exact kept (backgroundStep_keepsDevices e.symm)
  | background elapsed rest hi e => exact kept (keepsDevices_scheduled (backgroundStep_keepsDevices e.symm))
  | undecodable bytes elapsed rest d hi dec e => cases e
  | tick bytes elapsed rest hi dec e =>
    obtain ⟨u, hu, rfl⟩ := requestAfter_eq_next e.symm
    have k := exec_keepsDevices hu
    exact kept (by simpa [KeepsDevices] using k)
  | event bytes elapsed rest i hi dec bg idle e => exact kept (keepsDevices_scheduled (exec_keepsDevices e.symm))
  | submit chunk elapsed rest hi idle e =>
    obtain ⟨-, e⟩ := whenBackgroundFree_eq_next e.symm
    cases e
    exact kept (by simp [KeepsDevices])
  | attempt answer elapsed rest hi idle e => exact kept (keepsDevices_scheduled (sendAttempt_keepsDevices e.symm))
  | sample v elapsed rest hi e =>
    cases e
    by_cases hadc : s.hw.adcRun = true
    · rw [engineSample_running (s := setInputs rest s) hadc]
      exact ⟨fun _ => ⟨hadc, v, elapsed, rest, hi⟩, fun hc => absurd (by simp) hc⟩
    · rw [engineSample_stopped (s := setInputs rest s) (Bool.not_eq_true _ ▸ hadc)] at kept ⊢
      exact kept (by simp [KeepsDevices])
  | count v elapsed rest hi e =>
    cases e
    exact ⟨fun hr => absurd (by simp) hr, fun _ => ⟨v, elapsed, rest, hi, by simp⟩⟩

end Sys2Proof.Machine
end

section
/-! SUPPORT. What every step keeps: parameters, mode, registers, run bits, memories, numbers, and the whole invariant of a
run (10_state.md, 20_memory.md). -/

namespace Sys2Proof.Machine

/-! ## The control side: parameters, record, registers and run bits

All of it changes only by a TICK or a config message. -/

/-- Parameters, record and registers are as before, but for the write position and the counter; and a TICK became pending
only if the timer runs. -/
structure SameControl (s t : State) : Prop where
  params : t.params = s.params
  reg : t.blk.reg = s.blk.reg
  running : t.blk.running = s.blk.running
  pending : t.blk.tickPending = true → s.blk.tickPending = true ∨ s.hw.ctrlRun = true
  hw : t.hw = { s.hw with dmaPos := t.hw.dmaPos, ctrlCnt := t.hw.ctrlCnt }

theorem SameControl.refl (s : State) : SameControl s s := ⟨rfl, rfl, rfl, Or.inl, rfl⟩

theorem sameControl_requestTick (s : State) (elapsed : Bool) : SameControl s (requestTick elapsed s) :=
  ⟨by simp, by simp, by simp, by simp; tauto, by simp⟩

theorem sameControl_engineSample (s : State) (v : Half) : SameControl s (engineSample v s) := by
  unfold engineSample
  split
  · exact ⟨rfl, rfl, rfl, Or.inl, rfl⟩
  · exact .refl s

theorem sameControl_resumeHk (now : Quantity) (s : State) : SameControl s (resumeHk now s) := by
  obtain e | ⟨-, e⟩ := resumeHk_cases now s <;> rw [e] <;> exact ⟨rfl, rfl, rfl, Or.inl, rfl⟩

theorem sameControl_sendAttempt {s t : State} {a : Answer} (h : sendAttempt a s = .next t) : SameControl s t := by
  obtain ⟨o, -, ⟨-, e⟩ | ⟨-, -, e⟩ | ⟨-, -, now, -, e⟩⟩ := sendAttempt_eq_next h <;> rw [e] <;>
    exact ⟨rfl, rfl, rfl, Or.inl, rfl⟩

/-- A property of the control side that every TICK and every config message keeps is kept by every step. -/
theorem step_preserves_control {P : State → Prop} (same : ∀ s t, SameControl s t → P s → P t)
    (tick : ∀ s t, s.params.wf = true → P s → TickResult s t → P t)
    (config : ∀ s i reg regs running, s.params.wf = true → P s → ConfigCase s i reg regs →
      P (transition reg regs running s))
    {s t : State} (hp : P s) (h : step s = .next t) : P t := by
  have background : ∀ s t i, s.params.wf = true → P s → i.periodic = false → exec i s = .next t → P t := by
    intro s t i hw hp hb h
    cases (exec_background_eq_next hb h).2 with
    | config reg regs running c e =>
      rw [e]
      exact same (transition reg regs running s) _ ⟨rfl, rfl, rfl, Or.inl, rfl⟩ (config s i reg regs running hw hp c)
    | arm hi e => rw [e]; exact same s _ ⟨rfl, rfl, rfl, Or.inl, rfl⟩ hp
    | flush now hi armed full e => rw [e]; exact same s _ ⟨rfl, rfl, rfl, Or.inl, rfl⟩ hp
    | telemetry now hi active e => rw [e]; exact same s _ ⟨rfl, rfl, rfl, Or.inl, rfl⟩ hp
    | quiet now hi e => rw [e]; exact same s _ ⟨rfl, rfl, rfl, Or.inl, rfl⟩ hp
  refine step_preserves (P := P) ?inputs ?request ?tick ?background ?framer ?resume ?submit ?send ?sample ?count hp h
  case inputs => exact fun s l hp => same s _ ⟨rfl, rfl, rfl, Or.inl, rfl⟩ hp
  case request => exact fun s b hp => same s _ (sameControl_requestTick s b) hp
  case tick => exact fun s t hw hp h => tick s t hw hp (execTick_eq_next h)
  case background => exact fun s t i hw hp hb _ h => background s t i hw hp hb h
  case framer =>
    intro s t hw hp h
    cases framerStep_cases h with
    | idle h e => rw [e]; exact hp
    | finish h w e => rw [e]; exact same s _ ⟨rfl, rfl, rfl, Or.inl, rfl⟩ hp
    | copy left k h ne w hk fits e => rw [e]; exact same s _ ⟨rfl, rfl, rfl, Or.inl, rfl⟩ hp
    | error left d h pos hd unknown e => rw [e]; exact same s _ ⟨rfl, rfl, rfl, Or.inl, rfl⟩ hp
    | dispatch left d n i tail u h pos hd len whole dec bg ex e =>
      rw [e]; exact same u _ ⟨rfl, rfl, rfl, Or.inl, rfl⟩ (background s u i hw hp bg ex)
  case resume => exact fun s now _ hp _ => same s _ (sameControl_resumeHk now s) hp
  case submit => exact fun s c hp _ _ => same s _ ⟨rfl, rfl, rfl, Or.inl, rfl⟩ hp
  case send => exact fun s t a _ hp h => same s t (sameControl_sendAttempt h) hp
  case sample => exact fun s v _ hp => same s _ (sameControl_engineSample s v) hp
  case count => exact fun s v hp => same s _ ⟨rfl, rfl, rfl, Or.inl, rfl⟩ hp

/-- Settles O54: neither a TICK nor a config message writes a parameter. -/
theorem parametersNeverChange : Obligations.ParametersNeverChange := fun s t h =>
  step_preserves_control (P := fun u => u.params = s.params) (fun _ _ same hp => same.params.trans hp)
    (fun _ _ _ hp result => (congrArg State.params result.frame).trans hp)
    (fun _ _ _ _ _ _ hp _ => by rw [transition_eq]; exact hp) rfl h

/-- Settles O16: outside Idle a TICK keeps the mode, and a config message installs another. -/
theorem noStepLeadsToIdle : Obligations.NoStepLeadsToIdle := by
  intro s t h ht
  by_contra hs
  refine step_preserves_control (P := fun u => u.mode ≠ .idle) ?_ ?_ ?_ hs h ht
  · exact fun s t same hp => by rw [mode_eq, same.reg]; exact hp
  · exact fun s t _ hp result => by rw [mode_eq, result.law.mode_eq]; exact hp
  · exact fun s i reg regs running _ _ c => by rw [transition_eq]; exact c.active

theorem exactTimer_arr {s : State} (h : RegsInRange s) (he : ExactTimer s.params) :
    s.params.num = .rational ∨ s.hw.pwmArr < 2 ^ 24 :=
  let ⟨_, harr, _, _⟩ := h
  Params.exact_of_le_tmax he harr

/-- The registers a TICK leaves are in range. -/
theorem TickCase.regs {s : State} {reg : Regulator} {hw : Hw} {o : OpOutcome} (h : TickCase s reg hw o)
    (hp : RegsInRange s) : RegsInRange { s with hw := hw } := by
  obtain ⟨hpsc, harr, hccr, hle⟩ := id hp
  cases h with
  | kept o ho => exact hp
  | hyst r r' c hr next =>
    refine ⟨hpsc, harr, registerValue_le_tmax _ _, fun he => ?_⟩
    obtain ⟨-, -, -, hc⟩ := hystNext_spec next
    obtain ⟨h0, h1⟩ := hc (exactTimer_arr hp he)
    simp only [registerValue_of_fits h0 (by omega : c ≤ s.params.tmax)]
    omega
  | pid r r' c hr next =>
    refine ⟨hpsc, harr, registerValue_le_tmax _ _, fun he => ?_⟩
    obtain ⟨-, -, hd, rfl, -⟩ := pidNext_spec next
    exact (registerValue_dutyCcr he harr hd.1 hd.2).2
  | cot r w hr next =>
    unfold cotHw
    split
    · rename_i g hg
      obtain ⟨f, d, hc⟩ := (cotNext_commit next).fromCalc g hg
      exact freqCalc_range hc
    · exact hp

/-- Settles O56: a control law's compare value is stored by its register, and a triple comes from FREQCALC or is the idle
default. -/
theorem stepKeepsRegistersInRange : Obligations.StepKeepsRegistersInRange := by
  intro s t hp h
  refine step_preserves_control (P := RegsInRange) ?_ ?_ ?_ hp h
  · intro s t same hp
    rw [RegsInRange, same.params, same.hw]
    exact hp
  · intro s t _ hp result
    rw [result.frame]
    exact result.law.regs hp
  · intro s i reg regs running _ _ c
    rw [transition_eq]
    cases regs with
    | none => exact idleRegs_range s.params
    | some g =>
      obtain ⟨f, d, hg⟩ := c.fromCalc g rfl
      exact freqCalc_range hg

/-- Settles O57: a config message sets every run bit and leaves Idle, a TICK keeps the bits and the mode, and a TICK is
requested only of a running timer. -/
theorem stepKeepsRunBits : Obligations.StepKeepsRunBits := by
  intro s t hp h
  refine step_preserves_control (P := RunBitsFollowMode) ?_ ?_ ?_ hp h
  · intro s t same hp
    obtain ⟨hctrl, hpwm, hadc, hpend, hoe⟩ := hp
    rw [RunBitsFollowMode, mode_eq, same.hw, same.reg, same.running]
    exact ⟨hctrl, hpwm, hadc, fun ht => (same.pending ht).elim hpend id, hoe⟩
  · intro s t _ hp result
    obtain ⟨hctrl, hpwm, hadc, hpend, hoe⟩ := hp
    have hm := result.law.mode_eq
    have hfr := result.law.hw_frame
    have hon := result.law.oe_of_running
    rw [result.frame, RunBitsFollowMode, mode_eq, hm]
    refine ⟨?_, ?_, ?_, nofun, fun ht => (hon ht).elim hoe id⟩
    · exact (congrArg Hw.ctrlRun hfr).trans hctrl
    · exact (congrArg Hw.pwmRun hfr).trans hpwm
    · exact (congrArg Hw.adcRun hfr).trans hadc
  · intro s i reg regs running _ _ c
    rw [transition_eq, RunBitsFollowMode, mode_eq]
    have ha : decide (reg.mode ≠ .idle) = true := decide_eq_true c.active
    exact ⟨ha.symm, ha.symm, ha.symm, nofun, fun hr => ⟨hr, c.active⟩⟩

/-- The record a TICK leaves is in its ranges. -/
theorem TickCase.inRange {s : State} {reg : Regulator} {hw : Hw} {o : OpOutcome} (h : TickCase s reg hw o)
    (hw' : s.params.wf = true) (hp : RecordInRange s) : RecordInRange { s with blk := { s.blk with reg := reg } } := by
  cases h with
  | kept o ho => exact hp
  | hyst r r' c hr next =>
    obtain ⟨-, hd, -, -⟩ := hystNext_spec next
    exact hd
  | pid r r' c hr next =>
    obtain ⟨e, -, hd, -, hi⟩ := pidNext_spec next
    refine ⟨hd, fun hm => ?_⟩
    rw [hi, e]
    rw [e] at hm
    exact clamp_within_bound hm _
  | cot r w hr next =>
    obtain ⟨-, -, hbelow, hticks⟩ := cotNext_commit next
    obtain ⟨-, -, -, hs, -⟩ := Params.wf_iff.1 hw'
    simp only [Params.skipOk, decide_eq_true_eq] at hs
    simp only [RecordInRange, hr] at hp
    exact ⟨hbelow hs.1 hp.1, hticks hp.2⟩

theorem step_keeps_recordInRange {s t : State} (hp : RecordInRange s) (h : step s = .next t) : RecordInRange t := by
  refine step_preserves_control (P := RecordInRange) ?_ ?_ ?_ hp h
  · intro s t same hp
    rw [RecordInRange, same.params, same.reg]
    exact hp
  · intro s t hw hp result
    rw [result.frame]
    exact result.law.inRange hw hp
  · intro s i reg regs running hw _ c
    exact c.inRange hw _ (by rw [transition_eq]) (by rw [transition_eq])

end Sys2Proof.Machine
end

section
/-! SUPPORT. What every step keeps of the memories and positions (20_memory.md, 10_state.md). -/

namespace Sys2Proof.Machine

/-! ## Memories -/

theorem BackgroundCase.memories {s t : State} {i : Instr} (h : BackgroundCase s i t) (hp : MemoriesCanonical s) :
    MemoriesCanonical t := by
  cases h with
  | config reg regs running c e => rw [e, transition_eq]; exact hp
  | arm hi e => rw [e]; exact hp
  | flush now hi armed full e => rw [e]; exact hp
  | telemetry now hi active e => rw [e]; exact hp
  | quiet now hi e => rw [e]; exact hp

theorem framerStep_memories {s t : State} (h : framerStep s = .next t) (hp : MemoriesCanonical s) :
    MemoriesCanonical t := by
  obtain ⟨hring, hcap, hagg⟩ := id hp
  cases framerStep_cases h with
  | idle h e => rw [e]; exact hp
  | finish h w e => rw [e]; exact hp
  | copy left k h ne w hk fits e => rw [e]; exact ⟨hring, hcap, Agg.appended_wf hagg⟩
  | error left d h pos hd unknown e => rw [e]; exact ⟨hring, hcap, Agg.compacted_wf hagg⟩
  | dispatch left d n i tail u h pos hd len whole dec bg ex e =>
    obtain ⟨hring, hcap, hagg⟩ := (exec_background_eq_next bg ex).2.memories hp
    rw [e]; exact ⟨hring, hcap, Agg.compacted_wf hagg⟩

/-- Settles O55: the ring is written by one write, the capture by a logged record, the aggregation buffer by range
writes; each of them keeps the canonical form. -/
theorem stepKeepsMemoriesCanonical : Obligations.StepKeepsMemoriesCanonical := by
  intro s t hp h
  refine step_preserves (P := MemoriesCanonical) ?inputs ?request ?tick ?background ?framer ?resume ?submit ?send ?sample
    ?count hp h
  case inputs => exact fun s l hp => hp
  case request => exact fun s b hp => by simpa [MemoriesCanonical] using hp
  case tick =>
    intro s t _ hp h
    have result := execTick_eq_next h
    rw [result.frame]
    exact ⟨hp.1, result.capture.buf_wf hp.2.1, hp.2.2⟩
  case background => exact fun s t i _ hp hb _ h => (exec_background_eq_next hb h).2.memories hp
  case framer => exact fun s t _ hp h => framerStep_memories h hp
  case resume =>
    intro s now _ hp _
    obtain e | ⟨-, e⟩ := resumeHk_cases now s <;> rw [e] <;> exact hp
  case submit => exact fun s c hp _ _ => hp
  case send =>
    intro s t a _ hp h
    obtain ⟨o, -, ⟨-, e⟩ | ⟨-, -, e⟩ | ⟨-, -, now, -, e⟩⟩ := sendAttempt_eq_next h <;> rw [e] <;> exact hp
  case sample =>
    intro s v _ hp
    unfold engineSample
    split
    · exact ⟨Memory.wf_write _ _ hp.1, hp.2⟩
    · exact hp
  case count => exact fun s v hp => hp

/-! ## Positions -/

theorem BackgroundCase.positions {s t : State} {i : Instr} (h : BackgroundCase s i t) (hw : s.params.wf = true)
    (hp : PositionsInRange s) : PositionsInRange t := by
  obtain ⟨hcur, hlen, hpos⟩ := id hp
  cases h with
  | config reg regs running c e =>
    rw [e, transition_eq]; exact ⟨hcur, hlen, Nat.mod_lt _ (Params.ringCap_pos hw)⟩
  | arm hi e => rw [e]; exact ⟨Nat.zero_le _, hlen, hpos⟩
  | flush now hi armed full e => rw [e]; exact hp
  | telemetry now hi active e => rw [e]; exact hp
  | quiet now hi e => rw [e]; exact hp

theorem framerStep_positions {s t : State} (h : framerStep s = .next t) (hw : s.params.wf = true)
    (hp : PositionsInRange s) : PositionsInRange t := by
  obtain ⟨hcur, hlen, hpos⟩ := id hp
  cases framerStep_cases h with
  | idle h e => rw [e]; exact hp
  | finish h w e => rw [e]; exact hp
  | copy left k h ne w hk fits e =>
    rw [e]
    refine ⟨hcur, ?_, hpos⟩
    simp only [setBackground_blk, Agg.appended, List.length_take]
    omega
  | error left d h pos hd unknown e => rw [e]; exact ⟨hcur, (Nat.sub_le _ _).trans hlen, hpos⟩
  | dispatch left d n i tail u h pos hd len whole dec bg ex e =>
    obtain ⟨hcur, hlen, hpos⟩ := (exec_background_eq_next bg ex).2.positions hw hp
    rw [e]; exact ⟨hcur, (Nat.sub_le _ _).trans hlen, hpos⟩

theorem step_keeps_positions {s t : State} (hp : PositionsInRange s) (h : step s = .next t) : PositionsInRange t := by
  refine step_preserves (P := PositionsInRange) ?inputs ?request ?tick ?background ?framer ?resume ?submit ?send ?sample
    ?count hp h
  case inputs => exact fun s l hp => hp
  case request => exact fun s b hp => by simpa [PositionsInRange] using hp
  case tick =>
    intro s t _ hp h
    have result := execTick_eq_next h
    have hd := (congrArg Hw.dmaPos result.law.hw_frame).trans rfl
    rw [result.frame]
    exact ⟨result.capture.cursor_le hp.1, hp.2.1, hd ▸ hp.2.2⟩
  case background => exact fun s t i hw hp hb _ h => (exec_background_eq_next hb h).2.positions hw hp
  case framer => exact fun s t hw hp h => framerStep_positions h hw hp
  case resume =>
    intro s now _ hp _
    obtain e | ⟨-, e⟩ := resumeHk_cases now s <;> rw [e] <;> exact hp
  case submit => exact fun s c hp _ _ => hp
  case send =>
    intro s t a _ hp h
    obtain ⟨o, -, ⟨-, e⟩ | ⟨-, -, e⟩ | ⟨-, -, now, -, e⟩⟩ := sendAttempt_eq_next h <;> rw [e] <;> exact hp
  case sample =>
    intro s v hw hp
    unfold engineSample
    split
    · exact ⟨hp.1, hp.2.1, Nat.mod_lt _ (Params.ringCap_pos hw)⟩
    · exact hp
  case count => exact fun s v hp => hp

/-! ## The send and the buffers (45_housekeeping.md, 10_state.md R33) -/

/-- A send is consistent, and so are the buffers. -/
def PortsConsistent (s : State) : Prop := SendConsistent s ∧ BuffersConsistent s

theorem sendConsistent_none {s : State} (ho : s.blk.hk.outbox = none) :
    SendConsistent s ↔ ∀ now, s.env.background = .housekeeping now → s.env.lastNow = some now := by
  simp [SendConsistent, ho]

theorem sendConsistent_blob {s : State} {bytes : List Byte} (ho : s.blk.hk.outbox = some ⟨.blob, bytes⟩) :
    SendConsistent s ↔
      s.env.background = .idle ∧ s.env.lastNow ≠ none ∧ s.blk.cap.armed = true ∧ s.blk.cap.full = true ∧
        bytes = s.params.disc.captureBlob :: s.blk.cap.buf.readRange 0 s.params.capCapacity := by
  simp [SendConsistent, ho]

theorem sendConsistent_telemetry {s : State} {bytes : List Byte} (ho : s.blk.hk.outbox = some ⟨.telemetry, bytes⟩) :
    SendConsistent s ↔ s.env.background = .idle ∧ s.env.lastNow ≠ none ∧ s.mode ≠ .idle := by
  simp [SendConsistent, ho]

/-- While the background context is in an operation nothing is being sent. -/
theorem SendConsistent.outbox_eq_none {s : State} (h : SendConsistent s) (hb : s.env.background ≠ .idle) :
    s.blk.hk.outbox = none := by
  unfold SendConsistent at h
  split at h
  · assumption
  · exact absurd h.1 hb

/-- A TICK keeps a send: a blob is being sent only of a full capture, which takes no record. -/
theorem TickResult.sendConsistent {s t : State} (h : TickResult s t) (hp : SendConsistent s) : SendConsistent t := by
  have hm : t.blk.reg.mode = s.mode := h.law.mode_eq
  have hfull := h.capture.of_full
  rw [h.frame]
  cases ho : s.blk.hk.outbox with
  | none =>
    rw [sendConsistent_none ho] at hp
    exact Iff.mpr (sendConsistent_none ho) hp
  | some o =>
    obtain ⟨kind, bytes⟩ := o
    cases kind with
    | blob =>
      obtain ⟨hb, hn, ha, hf, hbytes⟩ := (sendConsistent_blob ho).1 hp
      rw [hfull hf]
      exact Iff.mpr (sendConsistent_blob ho) ⟨hb, hn, ha, hf, hbytes⟩
    | telemetry =>
      obtain ⟨hb, hn, ha⟩ := (sendConsistent_telemetry ho).1 hp
      exact Iff.mpr (sendConsistent_telemetry ho) ⟨hb, hn, fun h => ha (hm.symm.trans h)⟩

theorem TickResult.buffersConsistent {s t : State} (h : TickResult s t) (hp : BuffersConsistent s) :
    BuffersConsistent t := by
  have hm : t.blk.reg.mode = s.mode := h.law.mode_eq
  have hcap := h.inIdle
  rw [h.frame]
  refine ⟨hp.1, fun hi => ?_⟩
  have hi' : s.mode = .idle := hm.symm.trans hi
  have hr : s.blk.reg = .idle := by
    cases hr : s.blk.reg <;> simp [hr, Regulator.mode] at hi' ⊢
  exact hcap hr ▸ hp.2 hi'

/-- A background event starts only while nothing is being sent, and only HK starts a send. -/
theorem BackgroundCase.sendConsistent {s t : State} {i : Instr} (h : BackgroundCase s i t) (ho : s.blk.hk.outbox = none)
    (hb : s.env.background = .idle) (hp : SendConsistent s) : SendConsistent t := by
  rw [sendConsistent_none ho] at hp
  cases h with
  | config reg regs running c e => rw [e, transition_eq]; exact Iff.mpr (sendConsistent_none ho) hp
  | arm hi e => rw [e]; exact Iff.mpr (sendConsistent_none ho) hp
  | flush now hi armed full e =>
    rw [e]; exact Iff.mpr (sendConsistent_blob rfl) ⟨hb, nofun, armed, full, rfl⟩
  | telemetry now hi active e => rw [e]; exact Iff.mpr (sendConsistent_telemetry rfl) ⟨hb, nofun, active⟩
  | quiet now hi e =>
    rw [e]; exact Iff.mpr (sendConsistent_none ho) fun x hx => nomatch hb.symm.trans hx

theorem BackgroundCase.buffersConsistent {s t : State} {i : Instr} (h : BackgroundCase s i t)
    (hp : BuffersConsistent s) : BuffersConsistent t := by
  cases h with
  | config reg regs running c e => rw [e, transition_eq]; exact ⟨hp.1, fun hi => absurd hi c.active⟩
  | arm hi e => rw [e]; exact ⟨hp.1, fun _ => rfl⟩
  | flush now hi armed full e => rw [e]; exact hp
  | telemetry now hi active e => rw [e]; exact hp
  | quiet now hi e => rw [e]; exact hp

/-- What a message leaves as it was: parameters, ring, housekeeping, aggregation buffer, and of the environment's side all
but the outcome and the count of draws. -/
structure MessageFrame (s u : State) : Prop where
  params : u.params = s.params
  ring : u.ring = s.ring
  hk : u.blk.hk = s.blk.hk
  agg : u.blk.agg = s.blk.agg
  env : u.env = { s.env with outcome := u.env.outcome, draws := u.env.draws }

theorem background_of_message {i : Instr} (hk : kindByte i = 0) : i.periodic = false := by
  cases i with
  | tick => cases hk
  | _ => rfl

theorem exec_message_frame {s u : State} {i : Instr} (hk : kindByte i = 0) (h : exec i s = .next u) :
    MessageFrame s u := by
  have no_hk {now : Word} (hi : i = .hk now) : False := by rw [hi] at hk; cases hk
  cases (exec_background_eq_next (background_of_message hk) h).2 with
  | config reg regs running c e => rw [e, transition_eq]; exact ⟨rfl, rfl, rfl, rfl, rfl⟩
  | arm hi e => rw [e]; exact ⟨rfl, rfl, rfl, rfl, rfl⟩
  | flush now hi armed full e => exact (no_hk hi).elim
  | telemetry now hi active e => exact (no_hk hi).elim
  | quiet now hi e => exact (no_hk hi).elim

theorem framerStep_ports {s t : State} (h : framerStep s = .next t) (hp : PortsConsistent s) : PortsConsistent t := by
  obtain ⟨hsend, hagg, hidle⟩ := hp
  have no_send {left : List Byte} (h : s.env.background = .submitting left) : s.blk.hk.outbox = none :=
    hsend.outbox_eq_none (by rw [h]; nofun)
  cases framerStep_cases h with
  | idle h e => rw [e]; exact ⟨hsend, hagg, hidle⟩
  | finish h w e => rw [e]; exact ⟨Iff.mpr (sendConsistent_none (no_send h)) (fun _ h => nomatch h), fun _ => w, hidle⟩
  | copy left k h ne w hk fits e =>
    rw [e]; exact ⟨Iff.mpr (sendConsistent_none (no_send h)) (fun _ h => nomatch h), fun hb => absurd rfl (hb _), hidle⟩
  | error left d h pos hd unknown e =>
    rw [e]; exact ⟨Iff.mpr (sendConsistent_none (no_send h)) (by simp [h]), fun hb => absurd h (hb _), hidle⟩
  | dispatch left d n i tail u h pos hd len whole dec bg ex e =>
    have frame := exec_message_frame (decodeMessage_eq_ok dec).1 ex
    have hub : u.env.background = .submitting left := by rw [frame.env]; exact h
    have huo : u.blk.hk.outbox = none := by rw [frame.hk]; exact no_send h
    rw [e]
    exact ⟨Iff.mpr (sendConsistent_none huo) (fun _ hx => nomatch hub.symm.trans hx), fun hb => absurd hub (hb _),
      ((exec_background_eq_next bg ex).2.buffersConsistent ⟨hagg, hidle⟩).2⟩

theorem resumeHk_ports {now : Quantity} {s : State} (hb : s.env.background = .housekeeping now)
    (hp : PortsConsistent s) : PortsConsistent (resumeHk now s) := by
  obtain ⟨hsend, hagg, hidle⟩ := hp
  have ho : s.blk.hk.outbox = none := hsend.outbox_eq_none (by rw [hb]; nofun)
  have hn : s.env.lastNow = some now := (sendConsistent_none ho).1 hsend now hb
  have hagg' : AwaitsBytes s.params.disc s.blk.agg := hagg (by rw [hb]; nofun)
  obtain e | ⟨hm, e⟩ := resumeHk_cases now s <;> rw [e]
  · exact ⟨Iff.mpr (sendConsistent_none ho) (fun _ h => nomatch h), fun _ => hagg', hidle⟩
  · exact ⟨Iff.mpr (sendConsistent_telemetry rfl) ⟨rfl, by simp [hn], hm⟩, fun _ => hagg', hidle⟩

theorem sendAttempt_ports {s t : State} {a : Answer} (h : sendAttempt a s = .next t) (hp : PortsConsistent s) :
    PortsConsistent t := by
  obtain ⟨hsend, hagg, hidle⟩ := hp
  obtain ⟨⟨kind, bytes⟩, ho, ⟨-, e⟩ | ⟨-, -, e⟩ | ⟨-, -, now, hn, e⟩⟩ := sendAttempt_eq_next h
  · rw [e]; exact ⟨hsend, hagg, hidle⟩
  all_goals
    have hb : s.env.background = .idle := by
      unfold SendConsistent at hsend
      rw [ho] at hsend
      exact hsend.1
    have hagg' : AwaitsBytes s.params.disc s.blk.agg := hagg (by rw [hb]; nofun)
    rw [e]
  · exact ⟨Iff.mpr (sendConsistent_none rfl) (fun _ h => nomatch hb.symm.trans h), fun _ => hagg', hidle⟩
  · exact ⟨Iff.mpr (sendConsistent_none rfl) (fun x h => by cases h; exact hn), fun _ => hagg', hidle⟩

theorem step_keeps_ports {s t : State} (hp : PortsConsistent s) (h : step s = .next t) : PortsConsistent t := by
  refine step_preserves (P := PortsConsistent) ?inputs ?request ?tick ?background ?framer ?resume ?submit ?send ?sample
    ?count hp h
  case inputs => exact fun s l hp => hp
  case request => exact fun s b hp => by unfold requestTick; split <;> exact hp
  case tick =>
    intro s t _ hp h
    have result := execTick_eq_next h
    exact ⟨result.sendConsistent hp.1, result.buffersConsistent hp.2⟩
  case background =>
    intro s t i _ hp hi hb h
    obtain ⟨ho, case⟩ := exec_background_eq_next hi h
    exact ⟨case.sendConsistent ho hb hp.1, case.buffersConsistent hp.2⟩
  case framer => exact fun s t _ hp h => framerStep_ports h hp
  case resume => exact fun s now _ hp hb => resumeHk_ports hb hp
  case submit =>
    intro s c hp _ ho
    exact ⟨Iff.mpr (sendConsistent_none ho) (fun _ h => nomatch h), fun hb => absurd rfl (hb c), hp.2.2⟩
  case send => exact fun s t a _ hp h => sendAttempt_ports h hp
  case sample => exact fun s v _ hp => by unfold engineSample; split <;> exact hp
  case count => exact fun s v hp => hp

end Sys2Proof.Machine
end

section
/-! SUPPORT. Every quantity stays a value of the domain; the whole invariant; and no step of a run faults
(00_scope.md R10, 60_exceptions.md R118). -/

namespace Sys2Proof.Machine

/-! ## Quantities -/

theorem has_scale {s : State} (hw : s.params.wf = true) (c : Nat) : s.params.num.has (scale s c) = true := by
  obtain ⟨-, -, -, -, -, hn⟩ := Params.wf_iff.1 hw
  simp only [Params.numbersOk, Params.numbers, Bool.and_eq_true, List.all_eq_true] at hn
  have hv : ∀ x ∈ s.params.vscale, s.params.num.has x = true := fun x hx => hn.1 x (by simp [hx])
  unfold scale
  rw [List.getD_eq_getElem?_getD]
  cases h : s.params.vscale[c]? with
  | none => rfl
  | some x => exact hv x (List.mem_of_getElem? h)

theorem has_channelAvg (s : State) (c : Nat) : s.params.num.has (channelAvg s c) = true :=
  has_div (has_num _ _) (has_num _ _)

theorem has_vout {s : State} (hw : s.params.wf = true) : s.params.num.has (feedback s).vout = true :=
  has_mul (has_channelAvg s 0) (has_scale hw 0)

theorem has_vin {s : State} (hw : s.params.wf = true) : s.params.num.has (feedback s).vin = true :=
  has_mul (has_channelAvg s 1) (has_scale hw 1)

/-! ### The hysteretic law in closed form (42_hysteretic.md R97) -/

/-- The duty after the clamp to `[0, 1]`. -/
def hystClamped (dom : NumDomain) (r : HystRec) (vout : Quantity) : Quantity :=
  clamp (hystStep r vout) (dom.num 0) (dom.num 1)

/-- The duty a tick commits: the clamped one, or the maximum compare value as a duty where that binds. -/
def hystDuty (dom : NumDomain) (r : HystRec) (arr : Nat) (vout : Quantity) : Quantity :=
  if (r.maxCompare.toNat : Int) < dutyCcr dom arr (hystClamped dom r vout) then
    (dom.num r.maxCompare.toNat).div (dom.num arr)
  else hystClamped dom r vout

/-- The compare value a tick commits. -/
def hystCompare (dom : NumDomain) (r : HystRec) (arr : Nat) (vout : Quantity) : Int :=
  min (dutyCcr dom arr (hystClamped dom r vout)) r.maxCompare.toNat

theorem hystNext_eq (dom : NumDomain) (r : HystRec) (arr : Nat) (vout : Quantity) :
    hystNext dom r arr vout =
      if (hystStep r vout).finite = true ∧ (hystDuty dom r arr vout).finite = true then
        some ({ r with duty := hystDuty dom r arr vout }, hystCompare dom r arr vout)
      else none := by
  have hc : hystCompare dom r arr vout =
      if (r.maxCompare.toNat : Int) < dutyCcr dom arr (hystClamped dom r vout) then (r.maxCompare.toNat : Int)
      else dutyCcr dom arr (hystClamped dom r vout) := by
    unfold hystCompare
    split <;> omega
  rw [hc]
  simp only [hystNext, allFinite, Bool.and_true, Bool.and_eq_true]
  rfl

theorem hystNext_eq_some {dom : NumDomain} {r r' : HystRec} {arr : Nat} {c : Int} {vout : Quantity}
    (h : hystNext dom r arr vout = some (r', c)) :
    (hystStep r vout).finite = true ∧ (hystDuty dom r arr vout).finite = true ∧
      r' = { r with duty := hystDuty dom r arr vout } ∧ c = hystCompare dom r arr vout := by
  rw [hystNext_eq] at h
  split at h
  · rename_i hf
    cases h
    exact ⟨hf.1, hf.2, rfl, rfl⟩
  · cases h

theorem has_hystStep {dom : NumDomain} {r : HystRec} {vout : Quantity} (hd : dom.has r.duty = true)
    (hs : dom.has r.step = true) : dom.has (hystStep r vout) = true := by
  unfold hystStep
  split
  · exact has_add hd hs
  · split
    · exact has_sub hd hs
    · exact hd

theorem has_hystClamped {dom : NumDomain} {r : HystRec} {vout : Quantity} (hd : dom.has r.duty = true)
    (hs : dom.has r.step = true) : dom.has (hystClamped dom r vout) = true :=
  has_clamp (has_hystStep hd hs) (has_num dom 0) (has_num dom 1)

theorem hystNext_numbers {dom : NumDomain} {r r' : HystRec} {arr : Nat} {c : Int} {vout : Quantity}
    (h : hystNext dom r arr vout = some (r', c)) (hr : ∀ x ∈ recordNumbers (.hyst r), dom.has x = true) :
    ∀ x ∈ recordNumbers (.hyst r'), dom.has x = true := by
  obtain ⟨-, -, rfl, -⟩ := hystNext_eq_some h
  simp only [recordNumbers, List.forall_mem_cons] at hr ⊢
  obtain ⟨hf, ht, hs, hd, -⟩ := hr
  refine ⟨hf, ht, hs, ?_, nofun⟩
  unfold hystDuty
  split
  · exact has_div (has_num dom _) (has_num dom _)
  · exact has_hystClamped hd hs

/-! ### The PID law (43_pid.md R99) -/

theorem pidNext_eq (dom : NumDomain) (r : PidRec) (arr : Nat) (vout : Quantity) :
    pidNext dom r arr vout =
      (let e := r.target.sub vout
       let i1 := clamp (r.integral.add e) r.maxIntegral.neg r.maxIntegral
       let df := e.sub r.prevError
       let u := ((e.mul r.kP).add (i1.mul r.kI)).add (df.mul r.kD)
       let hi := clamp r.maxDuty (dom.num 0) (dom.num 1)
       let d := clamp u (dom.num 0) hi
       if e.finite = true ∧ i1.finite = true ∧ df.finite = true ∧ u.finite = true ∧ hi.finite = true ∧ d.finite = true then
         some ({ r with integral := i1, prevError := e, duty := d }, dutyCcr dom arr d)
       else none) := by
  simp only [pidNext, allFinite, Bool.and_true, Bool.and_eq_true]

theorem pidNext_numbers {dom : NumDomain} {r r' : PidRec} {arr : Nat} {c : Int} {vout : Quantity}
    (h : pidNext dom r arr vout = some (r', c)) (hv : dom.has vout = true)
    (hr : ∀ x ∈ recordNumbers (.pid r), dom.has x = true) : ∀ x ∈ recordNumbers (.pid r'), dom.has x = true := by
  rw [pidNext_eq] at h
  dsimp only at h
  split at h
  · cases h
    simp only [recordNumbers, List.forall_mem_cons] at hr ⊢
    obtain ⟨hf, ht, hkp, hki, hkd, hmi, hmd, hi, hpe, -, -⟩ := hr
    have he := has_sub ht hv
    have hi1 := has_clamp (has_add hi he) (has_neg hmi) hmi
    have hu := has_add (has_add (has_mul he hkp) (has_mul hi1 hki)) (has_mul (has_sub he hpe) hkd)
    have hd := has_clamp hu (has_num dom 0) (has_clamp hmd (has_num dom 0) (has_num dom 1))
    exact ⟨hf, ht, hkp, hki, hkd, hmi, hmd, hi1, he, hd, nofun⟩
  · cases h

/-! ### Constant on-time (44_cot.md) -/

theorem has_emaAdd {dom : NumDomain} {m : Ema} {x : Quantity} (hx : dom.has x = true) (ha : dom.has m.avg = true)
    (hv : dom.has m.var = true) (hl : dom.has m.alpha = true) :
    dom.has (emaAdd dom m x).avg = true ∧ dom.has (emaAdd dom m x).var = true ∧ dom.has (emaAdd dom m x).alpha = true := by
  have hdiff := has_sub hx ha
  have hincr := has_mul hl hdiff
  unfold emaAdd
  split
  · exact ⟨has_add ha hincr, has_mul (has_sub (has_num dom 1) hl) (has_add hv (has_mul hdiff hincr)), hl⟩
  · exact ⟨hx, has_num dom 0, hl⟩

/-- The record a ConstantOnTime tick commits: the settings stay, the statistic takes the sample, and the integral stays,
is the stepped one, or is reinitialized (R106, R107). -/
structure CotRecordCase (dom : NumDomain) (r : CotRec) (vout vin : Quantity) (m : Ema) (r' : CotRec) : Prop where
  frame :
    r' =
      { r with
        sub := r'.sub
        integral := r'.integral
        belowCount := r'.belowCount
        pwmOnTicks := r'.pwmOnTicks
        cycleEnable := r'.cycleEnable
        ema := m }
  integral :
    r'.integral = r.integral ∨
      r'.integral = clamp (r.integral.add (r.kI.mul (r.target.sub vout))) r.maxIntegral.neg r.maxIntegral ∨
      r'.integral = calculateCurrent dom r (fallTime r vout vin) r.csPeriod

theorem cotStep_record {p : Params} {running : Bool} {r : CotRec} {vout vin : Quantity} {m : Ema} {w : CotWrite}
    (h : cotStep p running r vout vin (r.target.sub vout) m = some w) : CotRecordCase p.num r vout vin m w.record := by
  unfold cotStep at h
  dsimp only at h
  generalize (if Quantity.lt _ _ then r.belowCount + 1 else 0) = b1 at h
  split at h
  · split at h
    · cases h; exact ⟨rfl, Or.inr (Or.inl rfl)⟩
    · cases h
  · split at h
    · cases h
    · split at h
      · cases h; exact ⟨rfl, Or.inr (Or.inl rfl)⟩
      · cases h

theorem csStep_record {p : Params} {running : Bool} {r : CotRec} {vout vin e : Quantity} {m : Ema} {w : CotWrite}
    (h : csStep p running r vout vin e m = some w) : CotRecordCase p.num r vout vin m w.record := by
  unfold csStep at h
  dsimp only at h
  split at h
  · cases h
  · split at h
    · split at h
      · split at h
        · cases h; exact ⟨rfl, Or.inr (Or.inr rfl)⟩
        · cases h
      · cases h; exact ⟨rfl, Or.inl rfl⟩
    · cases h

theorem cotNext_record {p : Params} {running : Bool} {r : CotRec} {vout vin : Quantity} {w : CotWrite}
    (h : cotNext p running r vout vin = some w) :
    CotRecordCase p.num r vout vin (emaAdd p.num r.ema vout) w.record := by
  unfold cotNext at h
  cases hs : r.sub with
  | cot => rw [hs] at h; exact cotStep_record h
  | cs => rw [hs] at h; exact csStep_record h

theorem cotNext_numbers {p : Params} {running : Bool} {r : CotRec} {vout vin : Quantity} {w : CotWrite}
    (h : cotNext p running r vout vin = some w) (hv : p.num.has vout = true) (hi : p.num.has vin = true)
    (hr : ∀ x ∈ recordNumbers (.cot r), p.num.has x = true) :
    ∀ x ∈ recordNumbers (.cot w.record), p.num.has x = true := by
  obtain ⟨frame, hint⟩ := cotNext_record h
  simp only [recordNumbers, List.forall_mem_cons] at hr
  obtain ⟨ht, hl, hip, hsf, hkp, hki, hmi, hmc, hcs, hage, hin, ha, hvar, hal, -⟩ := hr
  obtain ⟨ha', hvar', hal'⟩ := has_emaAdd hv ha hvar hal
  have hfall : p.num.has (fallTime r vout vin) = true :=
    has_div (has_mul hl hip) (has_sub (has_max hv (has_mul hi hsf)) hi)
  have hin' : p.num.has w.record.integral = true := by
    obtain e | e | e := hint <;> rw [e]
    · exact hin
    · exact has_clamp (has_add hin (has_mul hki (has_sub ht hv))) (has_neg hmi) hmi
    · exact has_div (has_mul hip hfall) (has_mul (has_num _ 2) hcs)
  rw [frame]
  simp only [recordNumbers, List.forall_mem_cons]
  exact ⟨ht, hl, hip, hsf, hkp, hki, hmi, hmc, hcs, hage, hin', ha', hvar', hal', nofun⟩

/-! ### Steps -/

theorem TickCase.numbers {s : State} {reg : Regulator} {hw : Hw} {o : OpOutcome} (h : TickCase s reg hw o)
    (hp : s.params.wf = true) (hr : ∀ x ∈ recordNumbers s.blk.reg, s.params.num.has x = true) :
    ∀ x ∈ recordNumbers reg, s.params.num.has x = true := by
  cases h with
  | kept o ho => exact hr
  | hyst r r' c hreg next => exact hystNext_numbers next (hreg ▸ hr)
  | pid r r' c hreg next => exact pidNext_numbers next (has_vout hp) (hreg ▸ hr)
  | cot r w hreg next => exact cotNext_numbers next (has_vout hp) (has_vin hp) (hreg ▸ hr)

theorem some_has {d : NumDomain} {now x : Quantity} (hn : d.has now = true) (h : some now = some x) :
    d.has x = true := by cases h; exact hn

theorem BackgroundCase.numbers {s t : State} {i : Instr} (h : BackgroundCase s i t) (hw : s.params.wf = true)
    (hp : NumbersInDomain s) : NumbersInDomain t := by
  obtain ⟨hr, ht, hn, hf⟩ := id hp
  cases h with
  | config reg regs running c e => rw [e, transition_eq]; exact ⟨c.numbers hw, ht, hn, hf⟩
  | arm hi e => rw [e]; exact ⟨hr, ht, hn, hf⟩
  | flush now hi armed full e => rw [e]; exact ⟨hr, ht, fun _ => some_has (has_ofBits _ now), hf⟩
  | telemetry now hi active e =>
    rw [e]; exact ⟨hr, fun _ => some_has (has_ofBits _ now), fun _ => some_has (has_ofBits _ now), hf⟩
  | quiet now hi e => rw [e]; exact ⟨hr, ht, fun _ => some_has (has_ofBits _ now), hf⟩

theorem framerStep_numbers {s t : State} (h : framerStep s = .next t) (hw : s.params.wf = true)
    (hp : NumbersInDomain s) : NumbersInDomain t := by
  obtain ⟨hr, ht, hn, hf⟩ := id hp
  cases framerStep_cases h with
  | idle h e => rw [e]; exact hp
  | finish h w e => rw [e]; exact ⟨hr, ht, hn, fun _ h => nomatch h⟩
  | copy left k h ne w hk fits e => rw [e]; exact ⟨hr, ht, hn, fun _ h => nomatch h⟩
  | error left d h pos hd unknown e => rw [e]; exact ⟨hr, ht, hn, hf⟩
  | dispatch left d n i tail u h pos hd len whole dec bg ex e =>
    obtain ⟨hr, ht, hn, hf⟩ := (exec_background_eq_next bg ex).2.numbers hw hp
    rw [e]; exact ⟨hr, ht, hn, hf⟩

/-- Settles O58: the arithmetic stays in the domain, a field is one of its values, and every time held is an HK's
operand. -/
theorem stepKeepsNumbersInDomain : Obligations.StepKeepsNumbersInDomain := by
  intro s t hp h
  refine step_preserves (P := NumbersInDomain) ?inputs ?request ?tick ?background ?framer ?resume ?submit ?send ?sample
    ?count hp h
  case inputs => exact fun s l ⟨hr, ht, hn, hf⟩ => ⟨hr, ht, hn, hf⟩
  case request =>
    intro s b ⟨hr, ht, hn, hf⟩
    unfold requestTick
    split <;> exact ⟨hr, ht, hn, hf⟩
  case tick =>
    intro s t hw ⟨hr, ht, hn, hf⟩ h
    have result := execTick_eq_next h
    have hr' := result.law.numbers hw hr
    rw [result.frame]
    exact ⟨hr', ht, hn, hf⟩
  case background => exact fun s t i hw hp hb _ h => (exec_background_eq_next hb h).2.numbers hw hp
  case framer => exact fun s t hw hp h => framerStep_numbers h hw hp
  case resume =>
    intro s now _ ⟨hr, ht, hn, hf⟩ hb
    obtain e | ⟨-, e⟩ := resumeHk_cases now s <;> rw [e]
    · exact ⟨hr, ht, hn, fun _ h => nomatch h⟩
    · exact ⟨hr, fun _ => some_has (hf now hb), hn, fun _ h => nomatch h⟩
  case submit => exact fun s c ⟨hr, ht, hn, _⟩ _ _ => ⟨hr, ht, hn, fun _ h => nomatch h⟩
  case send =>
    intro s t a _ ⟨hr, ht, hn, hf⟩ h
    obtain ⟨o, -, ⟨-, e⟩ | ⟨-, -, e⟩ | ⟨-, -, now, hnow, e⟩⟩ := sendAttempt_eq_next h <;> rw [e]
    · exact ⟨hr, ht, hn, hf⟩
    · exact ⟨hr, ht, hn, hf⟩
    · exact ⟨hr, ht, hn, fun x hx => by cases hx; exact hn now hnow⟩
  case sample =>
    intro s v _ ⟨hr, ht, hn, hf⟩
    unfold engineSample
    split <;> exact ⟨hr, ht, hn, hf⟩
  case count => exact fun s v ⟨hr, ht, hn, hf⟩ => ⟨hr, ht, hn, hf⟩

/-! ## The whole invariant -/

/-- Settles O59: every part of the invariant is kept by its own step lemma; the send and the buffers are kept together. -/
theorem stepKeepsInvariant : Obligations.StepKeepsInvariant := by
  intro s t hp h
  have ports : PortsConsistent t := step_keeps_ports ⟨hp.send, hp.buffers⟩ h
  exact
    { instanceOk := parametersNeverChange s t h ▸ hp.instanceOk
      memories := stepKeepsMemoriesCanonical s t hp.memories h
      regs := stepKeepsRegistersInRange s t hp.regs h
      positions := step_keeps_positions hp.positions h
      runBits := stepKeepsRunBits s t hp.runBits h
      record := step_keeps_recordInRange hp.record h
      send := ports.1
      buffers := ports.2
      numbers := stepKeepsNumbersInDomain s t hp.numbers h }

end Sys2Proof.Machine
end

section
/-! SUPPORT. The statements about housekeeping and the send loop (45_housekeeping.md). -/

namespace Sys2Proof.Machine

/-! ## HK (R111 to R113) -/

theorem clockBehind_eq_false {s : State} {x : Quantity} :
    clockBehind s x = false ↔ ∀ last, s.env.lastNow = some last → x.lt last = false := by
  unfold clockBehind
  split <;> simp_all

theorem execHk_of_behind {s : State} {now : Word} (ho : s.blk.hk.outbox = none)
    (hb : clockBehind s (s.params.num.ofBits now) = true) : execHk now s = .refused .clockWentBack := by
  simp [execHk, whenBackgroundFree_none ho, hb]

/-- The state in which an HK goes on: time and outcome are recorded. -/
def hkEntered (x : Quantity) (s : State) : State := { s with env := { s.env with outcome := .ok, lastNow := some x } }

theorem execHk_of_not_behind {s : State} {now : Word} (ho : s.blk.hk.outbox = none)
    (hb : clockBehind s (s.params.num.ofBits now) = false) :
    execHk now s = flushOrTelemetry (s.params.num.ofBits now) (hkEntered (s.params.num.ofBits now) s) := by
  simp only [execHk, whenBackgroundFree_none ho, hb]
  rfl

theorem telemetryDue_iff {s : State} {x : Quantity} :
    telemetryDue s x = true ↔
      ∀ last, s.blk.hk.lastTelemetry = some last → s.params.telemetryIntervalS.le (x.sub last) = true := by
  unfold telemetryDue
  split <;> simp_all

/-- Telemetry is due (R113). -/
def Due (s : State) (x : Quantity) : Prop :=
  s.mode ≠ .idle ∧ ∀ last, s.blk.hk.lastTelemetry = some last → s.params.telemetryIntervalS.le (x.sub last) = true

theorem telemetryStep_due {s : State} {x : Quantity} (h : Due s x) :
    telemetryStep x s =
      { s with
        blk :=
          { s.blk with
            hk :=
              { lastTelemetry := some x
                outbox := some ⟨.telemetry, s.params.disc.telemetry :: Config.telemetry s.blk s.hw⟩ } } } :=
  if_pos ⟨h.1, telemetryDue_iff.2 h.2⟩

theorem telemetryStep_not_due {s : State} {x : Quantity} (h : ¬Due s x) : telemetryStep x s = s :=
  if_neg fun h' => h ⟨h'.1, telemetryDue_iff.1 h'.2⟩

/-- Settles O41: with `armed` and `full` set HK takes the flush branch, which reads the whole capture. -/
theorem hkStartsTheFlush : Obligations.HkStartsTheFlush := by
  intro s now ho hb ha hf
  rw [exec_hk, execHk_of_not_behind ho (clockBehind_eq_false.2 hb), flushOrTelemetry_eq]
  simp only [hkEntered, ha, hf, Bool.and_self, if_true]
  rfl

/-- Settles O42: a time that went back is refused by the guard; else, without a full armed capture, HK is its telemetry
step. -/
theorem hkSendsTelemetryWhenDue : Obligations.HkSendsTelemetryWhenDue := by
  intro s now ho
  refine ⟨fun last hl hlt => ?_, fun hb hc => ?_⟩
  · refine execHk_of_behind ho ?_
    simp [clockBehind, hl, hlt]
  · have hc' : (s.blk.cap.armed && s.blk.cap.full) = false := by simpa using hc
    rw [exec_hk, execHk_of_not_behind ho (clockBehind_eq_false.2 hb), flushOrTelemetry_eq]
    simp only [hkEntered, hc', Bool.false_eq_true, if_false]
    exact ⟨fun hd => congrArg _ (telemetryStep_due hd), fun hd => congrArg _ (telemetryStep_not_due hd)⟩

/-! ## The send loop (R110) -/

theorem sendAttempt_busy {s : State} {o : Outbound} (ho : s.blk.hk.outbox = some o) :
    sendAttempt .busy s = .next (setOutcome .hardwareBusy s) := by simp [sendAttempt, ho]

theorem sendAttempt_sent {s : State} {o : Outbound} (ho : s.blk.hk.outbox = some o) :
    sendAttempt .sent s = sendAccepted o s := by simp [sendAttempt, ho]

/-- Settles O43: the two answers of an attempt, the accepted one for telemetry. -/
theorem sendAttemptAnswers : Obligations.SendAttemptAnswers := by
  refine fun s o ho => ⟨sendAttempt_busy ho, fun hk => ?_⟩
  rw [sendAttempt_sent ho, sendAccepted, hk]
  rfl

/-- What the accepted blob leaves (R112). -/
def blobSent (now : Quantity) (bytes : List Byte) (s : State) : State :=
  { s with
    blk :=
      { s.blk with
        cap := { s.blk.cap with armed := false }
        hk := { s.blk.hk with outbox := none } }
    env :=
      { s.env with
        outputs := s.env.outputs ++ [.message bytes], outcome := .ok, background := .housekeeping now } }

/-- Busy answers change only the outcome, which the accepting one overwrites. -/
theorem sendAttempts_blob {s : State} {bytes : List Byte} {now : Quantity} (n : Nat)
    (ho : s.blk.hk.outbox = some ⟨.blob, bytes⟩) (hn : s.env.lastNow = some now) :
    sendAttempts (List.replicate n .busy ++ [.sent]) s = .next (blobSent now bytes s) := by
  induction n generalizing s with
  | zero =>
    simp only [List.replicate_zero, List.nil_append, sendAttempts, sendAttempt_sent ho, sendAccepted, setOutcome_env,
      emit_env, hn]
    rfl
  | succ n ih =>
    simp only [List.replicate_succ, List.cons_append, sendAttempts, sendAttempt_busy ho]
    exact ih (s := setOutcome .hardwareBusy s) ho hn

theorem backgroundStep_housekeeping {s : State} {now : Quantity} (h : s.env.background = .housekeeping now) :
    backgroundStep s = .next (resumeHk now s) := by simp [backgroundStep, h]

theorem resumeHk_due {s : State} {x : Quantity} (h : Due s x) :
    resumeHk x s =
      { s with
        blk :=
          { s.blk with
            hk :=
              { lastTelemetry := some x
                outbox := some ⟨.telemetry, s.params.disc.telemetry :: Config.telemetry s.blk s.hw⟩ } }
        env := { s.env with outcome := .ok, background := .idle } } :=
  congrArg (setOutcome .ok) (telemetryStep_due (s := setBackground .idle s) h)

theorem resumeHk_not_due {s : State} {x : Quantity} (h : ¬Due s x) :
    resumeHk x s = { s with env := { s.env with outcome := .ok, background := .idle } } :=
  congrArg (setOutcome .ok) (telemetryStep_not_due (s := setBackground .idle s) h)

/-- Settles O44: HK starts the blob's send, an induction over the busy answers brings the accepting one, and the
telemetry step of the same HK is the background context's next. -/
theorem fullCaptureIsFlushedOnce : Obligations.FullCaptureIsFlushedOnce := by
  intro s now n ho hb ha hf x bytes v w due
  have hhk : { s.blk.hk with outbox := none } = s.blk.hk := by rw [← ho]
  refine ⟨by simp [bytes, Nat.add_comm], _, hkStartsTheFlush s now ho hb ha hf, ?_, fun hd => ?_, fun hd => ?_⟩
  · rw [sendAttempts_blob n rfl rfl, blobSent]
    simp only [hhk]
    rfl
  · exact (backgroundStep_housekeeping rfl).trans (congrArg _ (resumeHk_due (s := v) hd))
  · exact (backgroundStep_housekeeping rfl).trans (congrArg _ (resumeHk_not_due (s := v) hd))

/-! ## While a message is being sent (60_exceptions.md R118, 70_reset_and_hazards.md R139) -/

theorem whenBackgroundFree_busy {s : State} (op : State → Result) (h : s.blk.hk.outbox ≠ none) :
    whenBackgroundFree s op = .refused .backgroundBusy :=
  if_pos (Option.isSome_iff_ne_none.2 h)

theorem configure_busy {s : State} (reg : Regulator) (regs : Option PwmRegs) (running : Bool)
    (h : s.blk.hk.outbox ≠ none) : configure reg regs running s = .refused .backgroundBusy :=
  whenBackgroundFree_busy _ h

theorem exec_background_busy {s : State} {i : Instr} (hb : i.periodic = false) (h : s.blk.hk.outbox ≠ none) :
    exec i s = .refused .backgroundBusy := by
  cases i with
  | cfgPwm freq duty running => exact (exec_cfgPwm freq duty running s).trans (configure_busy _ _ _ h)
  | cfgHyst freq target step maxCompare running =>
    exact (exec_cfgHyst freq target step maxCompare running s).trans (configure_busy _ _ _ h)
  | cfgPid freq target kP kI kD maxIntegral maxDuty running =>
    exact (exec_cfgPid freq target kP kI kD maxIntegral maxDuty running s).trans (configure_busy _ _ _ h)
  | cfgCot target l iPeak startupFactor kP kI maxIntegral minCurrent csPeriod averageAge running =>
    exact
      (exec_cfgCot target l iPeak startupFactor kP kI maxIntegral minCurrent csPeriod averageAge running s).trans
        (configure_busy _ _ _ h)
  | cmdArm => exact (exec_cmdArm s).trans (whenBackgroundFree_busy _ h)
  | tick => cases hb
  | hk now => exact (exec_hk now s).trans (by unfold execHk; exact whenBackgroundFree_busy _ h)

/-- Settles O45: every background operation has the same guard, and a TICK does not touch the housekeeping state. -/
theorem sendStallsTheBackground : Obligations.SendStallsTheBackground := by
  intro s o hw ho
  have hne : s.blk.hk.outbox ≠ none := by simp [ho]
  refine ⟨fun i hb => exec_background_busy hb hne, fun chunk elapsed rest hb hp hi => ?_, fun hc => ?_⟩
  · rw [step_instance hw, turn, hi]
    simp only [hp, Bool.false_and, Bool.false_eq_true, if_false, backgroundTurn, offerSubmit, midOperation_eq_false.2 hb]
    exact whenBackgroundFree_busy _ hne
  · obtain ⟨t, ht⟩ := execTick_completes hc
    exact ⟨t, ht, (congrArg (fun u => u.blk.hk) (execTick_eq_next ht).frame).trans rfl⟩

end Sys2Proof.Machine
end

section
/-! SUPPORT. The message port (40_mode_controller.md R73 to R78): each step of the framer completes, and what it takes off
the front of the buffer. -/

namespace Sys2Proof

/-! ## Fields are read where there are bytes enough -/

theorem exists_bytes16 {bs : List Byte} {n : Nat} (h : bs.length = n + 2) :
    ∃ v rest, bs = bytes16 v ++ rest ∧ rest.length = n := by
  match bs, h with
  | b0 :: b1 :: rest, h => exact ⟨_, rest, take16_eq_some.1 rfl, by simpa using h⟩

theorem exists_bytes32 {bs : List Byte} {n : Nat} (h : bs.length = n + 4) :
    ∃ v rest, bs = bytes32 v ++ rest ∧ rest.length = n := by
  match bs, h with
  | b0 :: b1 :: b2 :: b3 :: rest, h => exact ⟨_, rest, take32_eq_some.1 rfl, by simpa using h⟩

theorem takeCfgPwm_of_length {bs : List Byte} (h : bs.length = 9) : ∃ i, takeCfgPwm bs = some (i, []) := by
  obtain ⟨freq, _, rfl, h1⟩ := exists_bytes32 (n := 5) h
  obtain ⟨duty, _, rfl, h2⟩ := exists_bytes32 (n := 1) h1
  obtain ⟨running, rfl⟩ := List.length_eq_one_iff.1 h2
  exact ⟨_, takeCfgPwm_eq_some.2 ⟨freq, duty, running, rfl, by simp [operandBytes]⟩⟩

theorem takeCfgHyst_of_length {bs : List Byte} (h : bs.length = 15) : ∃ i, takeCfgHyst bs = some (i, []) := by
  obtain ⟨freq, _, rfl, h1⟩ := exists_bytes32 (n := 11) h
  obtain ⟨target, _, rfl, h2⟩ := exists_bytes32 (n := 7) h1
  obtain ⟨step, _, rfl, h3⟩ := exists_bytes32 (n := 3) h2
  obtain ⟨maxCompare, _, rfl, h4⟩ := exists_bytes16 (n := 1) h3
  obtain ⟨running, rfl⟩ := List.length_eq_one_iff.1 h4
  exact ⟨_, takeCfgHyst_eq_some.2 ⟨freq, target, step, maxCompare, running, rfl, by simp [operandBytes]⟩⟩

theorem takeCfgPid_of_length {bs : List Byte} (h : bs.length = 29) : ∃ i, takeCfgPid bs = some (i, []) := by
  obtain ⟨freq, _, rfl, h1⟩ := exists_bytes32 (n := 25) h
  obtain ⟨target, _, rfl, h2⟩ := exists_bytes32 (n := 21) h1
  obtain ⟨kP, _, rfl, h3⟩ := exists_bytes32 (n := 17) h2
  obtain ⟨kI, _, rfl, h4⟩ := exists_bytes32 (n := 13) h3
  obtain ⟨kD, _, rfl, h5⟩ := exists_bytes32 (n := 9) h4
  obtain ⟨maxIntegral, _, rfl, h6⟩ := exists_bytes32 (n := 5) h5
  obtain ⟨maxDuty, _, rfl, h7⟩ := exists_bytes32 (n := 1) h6
  obtain ⟨running, rfl⟩ := List.length_eq_one_iff.1 h7
  exact ⟨_, takeCfgPid_eq_some.2 ⟨freq, target, kP, kI, kD, maxIntegral, maxDuty, running, rfl,
    by simp [operandBytes]⟩⟩

theorem takeCfgCot_of_length {bs : List Byte} (h : bs.length = 41) : ∃ i, takeCfgCot bs = some (i, []) := by
  obtain ⟨target, _, rfl, h1⟩ := exists_bytes32 (n := 37) h
  obtain ⟨l, _, rfl, h2⟩ := exists_bytes32 (n := 33) h1
  obtain ⟨iPeak, _, rfl, h3⟩ := exists_bytes32 (n := 29) h2
  obtain ⟨startupFactor, _, rfl, h4⟩ := exists_bytes32 (n := 25) h3
  obtain ⟨kP, _, rfl, h5⟩ := exists_bytes32 (n := 21) h4
  obtain ⟨kI, _, rfl, h6⟩ := exists_bytes32 (n := 17) h5
  obtain ⟨maxIntegral, _, rfl, h7⟩ := exists_bytes32 (n := 13) h6
  obtain ⟨minCurrent, _, rfl, h8⟩ := exists_bytes32 (n := 9) h7
  obtain ⟨csPeriod, _, rfl, h9⟩ := exists_bytes32 (n := 5) h8
  obtain ⟨averageAge, _, rfl, h10⟩ := exists_bytes32 (n := 1) h9
  obtain ⟨running, rfl⟩ := List.length_eq_one_iff.1 h10
  exact ⟨_, takeCfgCot_eq_some.2 ⟨target, l, iPeak, startupFactor, kP, kI, maxIntegral, minCurrent,
    csPeriod, averageAge, running, rfl, by simp [operandBytes]⟩⟩

/-- A recognized discriminant with as many payload bytes as the table says is a message (30_encoding.md R69). -/
theorem decodeMessage_of_length {t : DiscTable} {d : Byte} {n : Nat} {bs : List Byte} (h : payloadLen t d = some n)
    (hl : bs.length = n) : ∃ i, decodeMessage t d bs = .ok (i, []) := by
  have ok {o : Option (Instr × List Byte)} (ho : ∃ i, o = some (i, [])) : ∃ i, orTruncated o = .ok (i, []) :=
    ho.imp fun _ => orTruncated_eq_ok.2
  unfold payloadLen at h
  unfold decodeMessage
  split at h
  · rw [if_pos (by assumption)]
    exact ok (takeCfgPwm_of_length (hl.trans (Option.some.inj h).symm))
  rw [if_neg (by assumption)]
  split at h
  · rw [if_pos (by assumption)]
    exact ok (takeCfgHyst_of_length (hl.trans (Option.some.inj h).symm))
  rw [if_neg (by assumption)]
  split at h
  · rw [if_pos (by assumption)]
    exact ok (takeCfgPid_of_length (hl.trans (Option.some.inj h).symm))
  rw [if_neg (by assumption)]
  split at h
  · rw [if_pos (by assumption)]
    exact ok (takeCfgCot_of_length (hl.trans (Option.some.inj h).symm))
  rw [if_neg (by assumption)]
  split at h
  · rw [if_pos (by assumption)]
    exact ⟨_, by rw [List.eq_nil_of_length_eq_zero (hl.trans (Option.some.inj h).symm)]⟩
  · cases h

/-- No payload is longer than the aggregation buffer holds beside its discriminant (00_scope.md R8). -/
theorem payloadLen_lt_aggCap {t : DiscTable} {d : Byte} {n : Nat} (h : payloadLen t d = some n) : n < aggCap := by
  unfold payloadLen at h
  unfold aggCap
  split at h
  · cases h; decide
  split at h
  · cases h; decide
  split at h
  · cases h; decide
  split at h
  · cases h; decide
  split at h
  · cases h; decide
  · cases h

end Sys2Proof

namespace Sys2Proof.Machine

/-! ## Messages complete where nothing is being sent -/

theorem exec_message_completes {s : State} {i : Instr} (hk : kindByte i = 0) (ho : s.blk.hk.outbox = none) :
    ∃ t, exec i s = .next t := by
  cases i with
  | cfgPwm freq duty running => exact ⟨_, (exec_cfgPwm freq duty running s).trans (configure_none ho _ _ _)⟩
  | cfgHyst freq target step maxCompare running =>
    exact ⟨_, (exec_cfgHyst freq target step maxCompare running s).trans (configure_none ho _ _ _)⟩
  | cfgPid freq target kP kI kD maxIntegral maxDuty running =>
    exact ⟨_, (exec_cfgPid freq target kP kI kD maxIntegral maxDuty running s).trans (configure_none ho _ _ _)⟩
  | cfgCot target l iPeak startupFactor kP kI maxIntegral minCurrent csPeriod averageAge running =>
    exact
      ⟨_, (exec_cfgCot target l iPeak startupFactor kP kI maxIntegral minCurrent csPeriod averageAge running s).trans
        (configure_none ho _ _ _)⟩
  | cmdArm => exact ⟨_, (exec_cmdArm s).trans (execCmdArm_none ho)⟩
  | tick => cases hk
  | hk now => cases hk

/-! ## The framer's steps, in terms of the buffered bytes -/

theorem Agg.read_zero {g : Agg} {d : Byte} {p : List Byte} (h : g.contents = d :: p) :
    g.bytes.read 0 = d ∧ g.length = 1 + p.length := by
  have hl : g.length = 1 + p.length := by rw [← Agg.contents_length, h, List.length_cons, Nat.add_comm]
  rw [Agg.contents, hl, Nat.add_comm, Memory.readRange] at h
  exact ⟨(List.cons.inj h).1, hl⟩

theorem Agg.readRange_one {g : Agg} {d : Byte} {p : List Byte} {n : Nat} (h : g.contents = d :: p) (hn : n ≤ p.length) :
    g.bytes.readRange 1 n = p.take n := by
  have hl := (Agg.read_zero h).2
  rw [Agg.contents, hl, Nat.add_comm, Memory.readRange] at h
  rw [← (List.cons.inj h).2, ← Nat.add_sub_cancel' hn, Memory.readRange_append]
  exact (List.take_left' (Memory.readRange_length _ _ _)).symm

/-- What an unrecognized byte leaves beside the buffer (R77). -/
def protocolErrored (d : Byte) (s : State) : State :=
  { s with env := { s.env with outcome := .protocolError d, outputs := s.env.outputs ++ [.protocolError d] } }

theorem framerStep_error {s : State} {left p : List Byte} {d : Byte} (hb : s.env.background = .submitting left)
    (hl : s.blk.agg.length ≤ aggCap) (hc : s.blk.agg.contents = d :: p) (hn : payloadLen s.params.disc d = none) :
    framerStep s =
      .next { protocolErrored d s with blk := { s.blk with agg := s.blk.agg.compacted 1 } } := by
  obtain ⟨hd, hlen⟩ := Agg.read_zero hc
  simp only [framerStep, hb, if_neg (by omega : ¬s.blk.agg.length = 0), hd, hn]
  exact compact_eq (by simp; omega) (by simpa using hl)

theorem framerStep_dispatch {s u : State} {left p : List Byte} {d : Byte} {n : Nat} {i : Instr}
    (hb : s.env.background = .submitting left) (hl : s.blk.agg.length ≤ aggCap) (hc : s.blk.agg.contents = d :: p)
    (hn : payloadLen s.params.disc d = some n) (hp : n ≤ p.length)
    (hdec : decodeMessage s.params.disc d (p.take n) = .ok (i, [])) (hu : exec i s = .next u) :
    framerStep s =
      .next
        { u with
          blk := { u.blk with agg := s.blk.agg.compacted (1 + n) }
          env := { u.env with outputs := s.env.outputs ++ [.dispatched i] } } := by
  obtain ⟨hd, hlen⟩ := Agg.read_zero hc
  have frame := exec_message_frame (decodeMessage_eq_ok hdec).1 hu
  have houts : u.env.outputs = s.env.outputs := (congrArg Env.outputs frame.env).trans rfl
  simp only [framerStep, hb, if_neg (by omega : ¬s.blk.agg.length = 0), hd, hn,
    if_neg (by omega : ¬s.blk.agg.length < 1 + n), dispatchMessage, Nat.add_sub_cancel_left, aggRead,
    if_pos (by omega : 1 + n ≤ aggCap), Agg.readRange_one hc hp, hdec, hu]
  rw [compact_eq (by simp [frame.agg]; omega) (by simpa [frame.agg] using hl)]
  simp [frame.agg, houts]

/-- The bytes are the beginning of a message that is not complete (10_state.md R33). -/
def Awaits (t : DiscTable) (bytes : List Byte) : Prop :=
  bytes = [] ∨ ∃ d p n, bytes = d :: p ∧ payloadLen t d = some n ∧ p.length < n

theorem Awaits.length_lt {t : DiscTable} {bytes : List Byte} (h : Awaits t bytes) : bytes.length < aggCap := by
  obtain rfl | ⟨d, p, n, rfl, hn, hp⟩ := h
  · decide
  · have := payloadLen_lt_aggCap hn
    simp only [List.length_cons]
    omega

/-- Where the buffered bytes are no complete message the framer copies. -/
theorem framerStep_awaiting {s : State} {left : List Byte} (hb : s.env.background = .submitting left)
    (h : Awaits s.params.disc s.blk.agg.contents) : framerStep s = copyChunk left s := by
  obtain h | ⟨d, p, n, hc, hn, hp⟩ := h
  · have hl : s.blk.agg.length = 0 := by rw [← Agg.contents_length, h]; rfl
    simp only [framerStep, hb, if_pos hl]
  · obtain ⟨hd, hlen⟩ := Agg.read_zero hc
    simp only [framerStep, hb, if_neg (by omega : ¬s.blk.agg.length = 0), hd, hn,
      if_pos (by omega : s.blk.agg.length < 1 + n)]

theorem copyChunk_nil (s : State) : copyChunk [] s = .next (setBackground .idle s) := rfl

/-- How many bytes one copy takes (R73). -/
def copied (left : List Byte) (s : State) : Nat := min left.length (aggCap - s.blk.agg.length)

theorem copyChunk_eq {left : List Byte} {s : State} (hne : left ≠ []) (hl : s.blk.agg.length ≤ aggCap) :
    copyChunk left s =
      .next (setBackground (.submitting (left.drop (copied left s)))
        { s with blk := { s.blk with agg := s.blk.agg.appended (left.take (copied left s)) } }) := by
  cases left with
  | nil => exact absurd rfl hne
  | cons a l =>
    have hk : copied (a :: l) s ≤ aggCap - s.blk.agg.length := Nat.min_le_right _ _
    have hlen : ((a :: l).take (copied (a :: l) s)).length = copied (a :: l) s := by
      rw [List.length_take]; exact Nat.min_eq_left (Nat.min_le_left _ _)
    have hw : aggWrite s s.blk.agg.length ((a :: l).take (copied (a :: l) s)) =
        some
          { s with
            blk :=
              { s.blk with
                agg :=
                  { s.blk.agg with
                    bytes :=
                      s.blk.agg.bytes.writeRange s.blk.agg.length ((a :: l).take (copied (a :: l) s)) } } } := by
      rw [aggWrite, hlen, if_pos (by omega)]
    unfold copyChunk
    simp only [copied] at hw hlen ⊢
    rw [hw]
    simp only [Agg.appended, hlen]

/-- What stands at the front of a byte stream: nothing yet to take, an unrecognized byte, or a message. -/
theorem stream_cases (t : DiscTable) (bytes : List Byte) :
    Awaits t bytes ∨ ∃ d p, bytes = d :: p ∧
      (payloadLen t d = none ∨
        ∃ n i, payloadLen t d = some n ∧ n ≤ p.length ∧ decodeMessage t d (p.take n) = .ok (i, [])) := by
  cases bytes with
  | nil => exact Or.inl (Or.inl rfl)
  | cons d p =>
    cases hn : payloadLen t d with
    | none => exact Or.inr ⟨d, p, rfl, Or.inl hn⟩
    | some n =>
      by_cases hp : n ≤ p.length
      · obtain ⟨i, hi⟩ := decodeMessage_of_length hn (List.length_take_of_le hp)
        exact Or.inr ⟨d, p, rfl, Or.inr ⟨n, i, hn, hp, hi⟩⟩
      · exact Or.inl (Or.inr ⟨d, p, n, rfl, hn, Nat.not_le.1 hp⟩)

/-- The framer never stops while nothing is being sent. -/
theorem framerStep_completes {s : State} {left : List Byte} (hb : s.env.background = .submitting left)
    (hl : s.blk.agg.length ≤ aggCap) (ho : s.blk.hk.outbox = none) : ∃ t, framerStep s = .next t := by
  obtain h | ⟨d, p, hc, hn | ⟨n, i, hn, hp, hdec⟩⟩ := stream_cases s.params.disc s.blk.agg.contents
  · rw [framerStep_awaiting hb h]
    by_cases hne : left = []
    · rw [hne]; exact ⟨_, copyChunk_nil s⟩
    · exact ⟨_, copyChunk_eq hne hl⟩
  · exact ⟨_, framerStep_error hb hl hc hn⟩
  · obtain ⟨u, hu⟩ := exec_message_completes (decodeMessage_eq_ok hdec).1 ho
    exact ⟨_, framerStep_dispatch hb hl hc hn hp hdec hu⟩

theorem Agg.contents_cons {g : Agg} (h : 0 < g.length) : g.contents = g.bytes.read 0 :: g.contents.drop 1 := by
  obtain ⟨k, hk⟩ : ∃ k, g.length = k + 1 := ⟨g.length - 1, by omega⟩
  rw [Agg.contents, hk]
  rfl

/-- Settles O46: the step is the compaction by one byte after the output. -/
theorem protocolErrorDropsOneByte : Obligations.ProtocolErrorDropsOneByte := by
  intro s left d hb hw hpos hl hd hn
  have hc := Agg.contents_cons hpos
  refine ⟨_, framerStep_error hb hl hc (hd ▸ hn), by simp [protocolErrored, hd], ?_, Agg.compacted_wf hw⟩
  rw [Agg.contents_compacted hw hpos, ← hd]
  exact hc

/-- Settles O47: the discriminant and its payload decode to the message, and the compaction takes out just them. -/
theorem completeMessageIsDispatched : Obligations.CompleteMessageIsDispatched := by
  intro s left i tail ht hb hw hl ho hk hc
  obtain ⟨u, hu⟩ := exec_message_completes hk ho
  have hlen : 1 + (operandBytes i).length ≤ s.blk.agg.length := by
    rw [← Agg.contents_length, hc, encodeMessage]
    simp
    omega
  have hdec := decodeMessage_operandBytes ht hk []
  refine ⟨u, _, hu, framerStep_dispatch hb hl hc (payloadLen_discByte ht hk) (by simp) (by simpa using hdec) hu, rfl, ?_,
    Agg.compacted_wf hw⟩
  rw [Agg.contents_compacted hw hlen, hc]
  exact List.drop_left' (by simp [encodeMessage, Nat.add_comm])

end Sys2Proof.Machine
end

section
/-! SUPPORT. What `submit` does to the stream of bytes, whatever chunks it comes in (40_mode_controller.md R76). -/

namespace Sys2Proof.Machine

/-! ## The machine without the message port's own data -/

/-- The state with an empty aggregation buffer and the background context in no operation. -/
def bare (s : State) : State :=
  { s with
    blk := { s.blk with agg := ⟨[], 0⟩ }
    env := { s.env with background := .idle } }

theorem eq_of_bare_eq {s t : State} (h : bare s = bare t) (hb : s.env.background = t.env.background) :
    s = { t with blk := { t.blk with agg := s.blk.agg } } := by
  have hs : s =
      { bare s with
        blk := { (bare s).blk with agg := s.blk.agg }
        env := { (bare s).env with background := s.env.background } } := rfl
  rw [h, hb] at hs
  exact hs

theorem configure_bare {s u : State} {reg : Regulator} {regs : Option PwmRegs} {running : Bool}
    (h : configure reg regs running s = .next u) : configure reg regs running (bare s) = .next (bare u) := by
  obtain ⟨ho, rfl⟩ := configure_eq_next h
  rw [configure_none (s := bare s) ho, transition_eq, transition_eq]
  rfl

/-- A message neither reads nor writes the message port's own data. -/
theorem exec_message_bare {s u : State} {i : Instr} (hk : kindByte i = 0) (h : exec i s = .next u) :
    exec i (bare s) = .next (bare u) := by
  cases i with
  | cfgPwm freq duty running => exact configure_bare h
  | cfgHyst freq target step maxCompare running => exact configure_bare h
  | cfgPid freq target kP kI kD maxIntegral maxDuty running => exact configure_bare h
  | cfgCot target l iPeak startupFactor kP kI maxIntegral minCurrent csPeriod averageAge running =>
    exact configure_bare h
  | cmdArm =>
    obtain ⟨ho, rfl⟩ := execCmdArm_eq_next h
    exact execCmdArm_none ho
  | tick => cases hk
  | hk now => cases hk

/-! ## Draining a stream -/

/-- From `s` and the bytes given, messages and unrecognized bytes are taken off the front as long as there are any: that
leads to `t` and leaves `left`. -/
inductive Drains : State → List Byte → State → List Byte → Prop where
  | stop {s : State} {p : List Byte} (h : Awaits s.params.disc p) : Drains s p s p
  | error {s t : State} {d : Byte} {p left : List Byte} (hn : payloadLen s.params.disc d = none)
    (next : Drains (protocolErrored d s) p t left) : Drains s (d :: p) t left
  | dispatch {s u t : State} {d : Byte} {p left : List Byte} {n : Nat} {i : Instr}
    (hn : payloadLen s.params.disc d = some n) (hp : n ≤ p.length)
    (hdec : decodeMessage s.params.disc d (p.take n) = .ok (i, [])) (hu : exec i s = .next u)
    (next : Drains (emit (.dispatched i) u) (p.drop n) t left) : Drains s (d :: p) t left

theorem Awaits.not_unknown {t : DiscTable} {d : Byte} {p : List Byte} (h : Awaits t (d :: p))
    (hn : payloadLen t d = none) : False := by
  obtain h | ⟨d', p', n, h, hn', -⟩ := h
  · cases h
  · cases h
    rw [hn] at hn'
    cases hn'

theorem Awaits.not_whole {t : DiscTable} {d : Byte} {p : List Byte} {n : Nat} (h : Awaits t (d :: p))
    (hn : payloadLen t d = some n) (hp : n ≤ p.length) : False := by
  obtain h | ⟨d', p', n', h, hn', hp'⟩ := h
  · cases h
  · cases h
    rw [hn] at hn'
    cases hn'
    omega

/-- A stream is drained in one way only. -/
theorem Drains.unique {s t t' : State} {p left left' : List Byte} (h : Drains s p t left) (h' : Drains s p t' left') :
    t = t' ∧ left = left' := by
  induction h generalizing t' left' with
  | stop ha =>
    cases h' with
    | stop ha' => exact ⟨rfl, rfl⟩
    | error hn next => exact (ha.not_unknown hn).elim
    | dispatch hn hp hdec hu next => exact (ha.not_whole hn hp).elim
  | error hn next ih =>
    cases h' with
    | stop ha' => exact (ha'.not_unknown hn).elim
    | error hn' next' => exact ih next'
    | dispatch hn' hp' hdec' hu' next' => rw [hn] at hn'; cases hn'
  | dispatch hn hp hdec hu next ih =>
    cases h' with
    | stop ha' => exact (ha'.not_whole hn hp).elim
    | error hn' next' => rw [hn] at hn'; cases hn'
    | dispatch hn' hp' hdec' hu' next' =>
      rw [hn] at hn'; cases hn'
      rw [hdec] at hdec'; cases hdec'
      rw [hu] at hu'; cases hu'
      exact ih next'

/-- Draining a first part, and then what it left with the second part behind it, drains the whole. -/
theorem Drains.append {s u t : State} {p q left left' : List Byte} (h : Drains s p u left)
    (h' : Drains u (left ++ q) t left') : Drains s (p ++ q) t left' := by
  induction h with
  | stop ha => exact h'
  | error hn next ih => exact .error hn (ih h')
  | dispatch hn hp hdec hu next ih =>
    rw [List.cons_append]
    refine .dispatch hn (hp.trans (by simp)) ?_ hu ?_
    · rwa [List.take_append_of_le_length hp]
    · rw [List.drop_append_of_le_length hp]
      exact ih h'

/-! ## A running `submit` drains what is buffered and what is still to come -/

/-- The aggregation buffer is sound and nothing is being sent. -/
structure PortReady (s : State) : Prop where
  wf : s.blk.agg.bytes.wf = true
  fits : s.blk.agg.length ≤ aggCap
  free : s.blk.hk.outbox = none

/-- `submit` ended in `t`, having drained the stream. -/
structure Submitted (s t : State) (stream : List Byte) : Prop where
  idle : t.env.background = .idle
  ready : PortReady t
  drains : Drains (bare s) stream (bare t) t.blk.agg.contents

theorem framerRun_idle {s : State} (h : s.env.background = .idle) (n : Nat) : framerRun n s = .next s := by
  cases n with
  | zero => rfl
  | succ n => simp [framerRun, h]

theorem framerRun_step {s t : State} {left : List Byte} (hb : s.env.background = .submitting left)
    (h : framerStep s = .next t) (n : Nat) : framerRun (n + 1) s = framerRun n t := by
  simp [framerRun, hb, h]

/-- A step of a running `submit` from `s` to `t`: it goes on with less to do, and whatever the stream of `t` drains to,
that of `s` does. -/
structure Progress (s : State) (left : List Byte) (t : State) (left' : List Byte) : Prop where
  submitting : t.env.background = .submitting left'
  ready : PortReady t
  less : 2 * left'.length + t.blk.agg.length < 2 * left.length + s.blk.agg.length
  drains : ∀ u rest, Drains (bare t) (t.blk.agg.contents ++ left') u rest →
    Drains (bare s) (s.blk.agg.contents ++ left) u rest

theorem progress_copy {s : State} {left : List Byte} (hr : PortReady s) (h : Awaits s.params.disc s.blk.agg.contents)
    (hne : left ≠ []) :
    Progress s left
      (setBackground (.submitting (left.drop (copied left s)))
        { s with blk := { s.blk with agg := s.blk.agg.appended (left.take (copied left s)) } })
      (left.drop (copied left s)) := by
  have hlt := h.length_lt
  rw [Agg.contents_length] at hlt
  have hpos : 0 < left.length := List.length_pos_iff.2 hne
  have hk : copied left s = min left.length (aggCap - s.blk.agg.length) := rfl
  refine ⟨rfl, ⟨Agg.appended_wf hr.wf, ?_, hr.free⟩, ?_, fun u rest hd => ?_⟩
  · simp [Agg.appended]; omega
  · simp [Agg.appended]; omega
  · rwa [setBackground_blk, Agg.contents_appended hr.wf, List.append_assoc, List.take_append_drop] at hd

theorem progress_error {s : State} {left p : List Byte} {d : Byte} (hb : s.env.background = .submitting left)
    (hr : PortReady s) (hc : s.blk.agg.contents = d :: p) (hn : payloadLen s.params.disc d = none) :
    Progress s left { protocolErrored d s with blk := { s.blk with agg := s.blk.agg.compacted 1 } } left := by
  have hlen := (Agg.read_zero hc).2
  refine ⟨hb, ⟨Agg.compacted_wf hr.wf, (Nat.sub_le _ _).trans hr.fits, hr.free⟩, ?_, fun u rest hd => ?_⟩
  · simp [Agg.compacted]; omega
  · rw [Agg.contents_compacted hr.wf (by omega), hc] at hd
    rw [hc]
    exact .error hn hd

theorem progress_dispatch {s u : State} {left p : List Byte} {d : Byte} {n : Nat} {i : Instr}
    (hb : s.env.background = .submitting left) (hr : PortReady s) (hc : s.blk.agg.contents = d :: p)
    (hn : payloadLen s.params.disc d = some n) (hp : n ≤ p.length)
    (hdec : decodeMessage s.params.disc d (p.take n) = .ok (i, [])) (hu : exec i s = .next u) :
    Progress s left
      { u with
        blk := { u.blk with agg := s.blk.agg.compacted (1 + n) }
        env := { u.env with outputs := s.env.outputs ++ [.dispatched i] } } left := by
  have hlen := (Agg.read_zero hc).2
  have hkind := (decodeMessage_eq_ok hdec).1
  have frame := exec_message_frame hkind hu
  have hub : u.env.background = .submitting left := by rw [frame.env]; exact hb
  have houts : u.env.outputs = s.env.outputs := by rw [frame.env]
  refine ⟨hub, ⟨Agg.compacted_wf hr.wf, (Nat.sub_le _ _).trans hr.fits, frame.hk ▸ hr.free⟩, ?_, fun v rest hd => ?_⟩
  · simp [Agg.compacted]; omega
  · rw [Agg.contents_compacted hr.wf (by omega), hc, Nat.add_comm 1 n, List.drop_succ_cons,
      ← List.drop_append_of_le_length hp, ← houts] at hd
    rw [hc, List.cons_append]
    refine .dispatch hn (hp.trans (by simp)) ?_ (exec_message_bare hkind hu) hd
    rwa [List.take_append_of_le_length hp]

/-- A step of a running `submit` ends it, or makes progress. -/
theorem framerStep_progress {s : State} {left : List Byte} (hb : s.env.background = .submitting left)
    (hr : PortReady s) :
    (left = [] ∧ Awaits s.params.disc s.blk.agg.contents ∧ framerStep s = .next (setBackground .idle s)) ∨
      ∃ t left', framerStep s = .next t ∧ Progress s left t left' := by
  obtain h | ⟨d, p, hc, hn | ⟨n, i, hn, hp, hdec⟩⟩ := stream_cases s.params.disc s.blk.agg.contents
  · have hstep := framerStep_awaiting hb h
    by_cases hne : left = []
    · subst hne
      exact Or.inl ⟨rfl, h, hstep.trans (copyChunk_nil s)⟩
    · exact Or.inr ⟨_, _, hstep.trans (copyChunk_eq hne hr.fits), progress_copy hr h hne⟩
  · exact Or.inr ⟨_, _, framerStep_error hb hr.fits hc hn, progress_error hb hr hc hn⟩
  · obtain ⟨u, hu⟩ := exec_message_completes (decodeMessage_eq_ok hdec).1 hr.free
    exact Or.inr ⟨_, _, framerStep_dispatch hb hr.fits hc hn hp hdec hu, progress_dispatch hb hr hc hn hp hdec hu⟩

theorem framerRun_submitted (n : Nat) {s : State} {left : List Byte} (hb : s.env.background = .submitting left)
    (hr : PortReady s) (hn : 2 * left.length + s.blk.agg.length + 1 ≤ n) :
    ∃ t, framerRun n s = .next t ∧ Submitted s t (s.blk.agg.contents ++ left) := by
  induction n generalizing s left with
  | zero => omega
  | succ n ih =>
    obtain ⟨rfl, h, hstep⟩ | ⟨u, left', hstep, progress⟩ := framerStep_progress hb hr
    · refine ⟨_, (framerRun_step hb hstep n).trans (framerRun_idle rfl n), rfl, ⟨hr.wf, hr.fits, hr.free⟩, ?_⟩
      rw [List.append_nil]
      exact .stop h
    · have hless := progress.less
      obtain ⟨t, ht, hidle, hready, hdrains⟩ := ih progress.submitting progress.ready (by omega)
      exact ⟨t, (framerRun_step hb hstep n).trans ht, hidle, hready, progress.drains _ _ hdrains⟩

/-- A whole `submit` drains the buffered bytes and the chunk. -/
theorem submitWhole_submitted {s : State} (hr : PortReady s) (chunk : List Byte) :
    ∃ t, submitWhole chunk s = .next t ∧ Submitted s t (s.blk.agg.contents ++ chunk) := by
  obtain ⟨t, ht, hidle, hready, hdrains⟩ :=
    framerRun_submitted _ (s := startSubmit chunk s) rfl ⟨hr.wf, hr.fits, hr.free⟩ (Nat.le_refl _)
  exact ⟨t, ht, hidle, hready, hdrains⟩

/-- Settles O49: both ways drain the same stream, in two parts or in one, and a stream is drained in one way only. -/
theorem chunkBoundariesDoNotMatter : Obligations.ChunkBoundariesDoNotMatter := by
  intro s a b ho hw hl _
  have hr : PortReady s := ⟨hw, hl, ho⟩
  obtain ⟨t, ht, whole⟩ := submitWhole_submitted hr (a ++ b)
  obtain ⟨u, hu, first⟩ := submitWhole_submitted hr a
  obtain ⟨v, hv, second⟩ := submitWhole_submitted first.ready b
  have parts := first.drains.append second.drains
  rw [List.append_assoc] at parts
  obtain ⟨hbare, hcontents⟩ := parts.unique whole.drains
  exact ⟨t, u, v, ht, hu, hv, hcontents, eq_of_bare_eq hbare (second.idle.trans whole.idle.symm)⟩

/-! ## One message and the beginning of another -/

theorem awaits_prefix {t : DiscTable} {j : Instr} (ht : t.wf = true) (hk : kindByte j = 0) {n : Nat}
    (hn : n < (encodeMessage t j).length) : Awaits t ((encodeMessage t j).take n) := by
  cases n with
  | zero => exact Or.inl rfl
  | succ n =>
    simp only [encodeMessage, List.length_cons] at hn
    exact Or.inr ⟨_, _, _, rfl, payloadLen_discByte ht hk, by simp; omega⟩

/-- A message in front of bytes that await more is dispatched, and they stay. -/
theorem drains_message {s u : State} {i : Instr} {rest : List Byte} (ht : s.params.disc.wf = true) (hk : kindByte i = 0)
    (hu : exec i s = .next u) (hr : Awaits s.params.disc rest) :
    Drains s (encodeMessage s.params.disc i ++ rest) (emit (.dispatched i) u) rest := by
  have frame := exec_message_frame hk hu
  have htake : List.take (operandBytes i).length (operandBytes i ++ rest) = operandBytes i := List.take_left
  have hdrop : List.drop (operandBytes i).length (operandBytes i ++ rest) = rest := List.drop_left
  have hdec := decodeMessage_operandBytes ht hk []
  rw [List.append_nil] at hdec
  rw [encodeMessage, List.cons_append]
  refine .dispatch (payloadLen_discByte ht hk) (by simp) (by rwa [htake]) hu ?_
  rw [hdrop]
  exact .stop (frame.params ▸ hr)

/-- Settles O48: the stream of the two is drained by one dispatch, and the beginning of the second awaits its other bytes. -/
theorem oneMessageAndAPrefix : Obligations.OneMessageAndAPrefix := by
  intro s i j n ht ho hl hw hi hj first second hn
  obtain ⟨u, hu⟩ := exec_message_completes hi ho
  obtain ⟨t, hsub, whole⟩ := submitWhole_submitted ⟨hw, by omega, ho⟩ (first ++ second.take n)
  have hc : s.blk.agg.contents = [] := List.eq_nil_of_length_eq_zero (by rw [Agg.contents_length, hl])
  have drains := whole.drains
  rw [hc, List.nil_append] at drains
  have message := drains_message (s := bare s) ht hi (exec_message_bare hi hu) (awaits_prefix ht hj hn)
  obtain ⟨hbare, hcontents⟩ := drains.unique message
  have frame := exec_message_frame hi hu
  have houts : u.env.outputs = s.env.outputs := by rw [frame.env]
  refine ⟨u, t, hu, hsub, ?_, hcontents, whole.idle, ?_, ?_, ?_, ?_⟩
  · rw [← houts]; exact congrArg (fun x => x.env.outputs) hbare
  · exact congrArg (fun x => x.blk.reg) hbare
  · exact congrArg (fun x => x.blk.running) hbare
  · exact congrArg (fun x => x.blk.cap) hbare
  · exact congrArg (fun x => x.hw) hbare

end Sys2Proof.Machine
end

section
/-! SUPPORT. No step of a run faults, and every refusal names what is wrong with the head of the schedule
(60_exceptions.md R118). -/

namespace Sys2Proof.Machine

/-- The result is a next state, or a refusal on the grounds that name it. -/
def Sound (s : State) : Result → Prop
  | .next _ => True
  | .fault _ => False
  | .refused e => RefusalGrounds s e

theorem sound_of_completes {s : State} {r : Result} (h : ∃ t, r = .next t) : Sound s r := by
  obtain ⟨t, rfl⟩ := h
  trivial

theorem kindByte_of_background {i : Instr} (h : i.periodic = false) : kindByte i = 0 ∨ ∃ now, i = .hk now := by
  cases i with
  | tick => cases h
  | hk now => exact Or.inr ⟨now, rfl⟩
  | _ => exact Or.inl rfl

/-- The operation the background context is in goes on. -/
theorem backgroundStep_completes {s : State} (hl : s.blk.agg.length ≤ aggCap)
    (ho : s.env.background ≠ .idle → s.blk.hk.outbox = none) : ∃ t, backgroundStep s = .next t := by
  cases hb : s.env.background with
  | idle => exact ⟨_, backgroundStep_idle hb⟩
  | submitting left =>
    have hstep : backgroundStep s = framerStep s := by simp [backgroundStep, hb]
    exact hstep ▸ framerStep_completes hb hl (ho (by rw [hb]; nofun))
  | housekeeping now => exact ⟨_, backgroundStep_housekeeping hb⟩

theorem tick_sound {s : State} {bytes : List Byte} {elapsed : Bool} {rest : List Input}
    (hi : s.env.inputs = ⟨.event bytes, elapsed⟩ :: rest) (dec : decodeWhole s.params.disc bytes = .ok .tick) :
    Sound s (requestAfter elapsed (exec .tick (setInputs rest s))) := by
  cases hc : s.hw.ctrlRun with
  | true =>
    obtain ⟨t, ht⟩ := execTick_completes (s := setInputs rest s) hc
    rw [exec_tick, ht]
    trivial
  | false =>
    rw [exec_tick, execTick_stopped (s := setInputs rest s) hc]
    exact ⟨_, _, _, hi, hc, bytes, rfl, dec⟩

/-- A background event is refused only during a send, or as an HK whose time went back. -/
theorem event_sound {s u : State} {bytes : List Byte} {elapsed : Bool} {rest : List Input} {i : Instr}
    (hi : s.env.inputs = ⟨.event bytes, elapsed⟩ :: rest) (dec : decodeWhole s.params.disc bytes = .ok i)
    (bg : i.periodic = false) (hp : u.params = s.params) (hhk : u.blk.hk = s.blk.hk)
    (hn : u.env.lastNow = s.env.lastNow) : Sound s (exec i u) := by
  by_cases ho : s.blk.hk.outbox = none
  · have hu : u.blk.hk.outbox = none := hhk ▸ ho
    obtain hk | ⟨now, rfl⟩ := kindByte_of_background bg
    · exact sound_of_completes (exec_message_completes hk hu)
    · rw [exec_hk]
      cases hb : clockBehind u (u.params.num.ofBits now) with
      | true =>
        rw [execHk_of_behind hu hb]
        simp only [clockBehind, hn, hp] at hb
        split at hb
        · cases hb
        · rename_i last hl
          exact ⟨_, _, _, hi, bytes, now, last, rfl, dec, hl, hb⟩
      | false =>
        rw [execHk_of_not_behind hu hb, flushOrTelemetry_eq]
        trivial
  · rw [exec_background_busy bg (hhk ▸ ho)]
    exact ⟨_, _, _, hi, ho, Or.inr ⟨bytes, i, rfl, dec, bg⟩⟩

theorem submit_sound {s : State} {chunk : List Byte} {elapsed : Bool} {rest : List Input} {op : State → Result}
    (hi : s.env.inputs = ⟨.submit chunk, elapsed⟩ :: rest) (hop : ∃ t, op s = .next t) :
    Sound s (whenBackgroundFree s op) := by
  by_cases ho : s.blk.hk.outbox = none
  · rw [whenBackgroundFree_none ho]
    exact sound_of_completes hop
  · rw [whenBackgroundFree_busy op ho]
    exact ⟨_, _, _, hi, ho, Or.inl ⟨chunk, rfl⟩⟩

/-- An accepted message is a telemetry message, or a blob whose HK has recorded its time. -/
theorem sendAccepted_completes {o : Outbound} {s : State} (hn : s.env.lastNow ≠ none) :
    ∃ t, sendAccepted o s = .next t := by
  obtain ⟨now, hnow⟩ := Option.ne_none_iff_exists'.1 hn
  obtain ⟨kind, bytes⟩ := o
  cases kind with
  | telemetry => exact ⟨_, rfl⟩
  | blob => simp [sendAccepted, hnow]

theorem attempt_sound {s u : State} {answer : Answer} {elapsed : Bool} {rest : List Input}
    (hi : s.env.inputs = ⟨.attempt answer, elapsed⟩ :: rest) (hhk : u.blk.hk = s.blk.hk)
    (hn : s.blk.hk.outbox ≠ none → u.env.lastNow ≠ none) : Sound s (sendAttempt answer u) := by
  cases ho : s.blk.hk.outbox with
  | none =>
    have hu : sendAttempt answer u = .refused .noSendInProgress := by simp [sendAttempt, hhk, ho]
    rw [hu]
    exact ⟨_, _, _, hi, ho, answer, rfl⟩
  | some o =>
    have hu : u.blk.hk.outbox = some o := hhk ▸ ho
    cases answer with
    | busy => rw [sendAttempt_busy hu]; trivial
    | sent => rw [sendAttempt_sent hu]; exact sound_of_completes (sendAccepted_completes (hn (by simp [ho])))

theorem SendConsistent.lastNow_ne_none {s : State} (h : SendConsistent s) (ho : s.blk.hk.outbox ≠ none) :
    s.env.lastNow ≠ none := by
  unfold SendConsistent at h
  split at h
  · exact absurd (by assumption) ho
  · exact h.2.1

theorem turn_sound {s : State} (hp : RunInvariant s) : Sound s (turn s) := by
  obtain ⟨-, hl, -⟩ := hp.positions
  obtain ⟨-, -, -, hpending, -⟩ := hp.runBits
  have ho : s.env.background ≠ .idle → s.blk.hk.outbox = none := hp.send.outbox_eq_none
  cases turn_cases s with
  | pending h e => exact e ▸ sound_of_completes (execTick_completes (hpending h))
  | continues e => exact e ▸ sound_of_completes (backgroundStep_completes hl ho)
  | background elapsed rest hi e =>
    exact e ▸ sound_of_completes (backgroundStep_completes (by simpa using hl) (by simpa using ho))
  | undecodable bytes elapsed rest d hi dec e => exact e ▸ ⟨_, _, _, hi, bytes, rfl, dec⟩
  | tick bytes elapsed rest hi dec e => exact e ▸ tick_sound hi dec
  | event bytes elapsed rest i hi dec bg idle e => exact e ▸ event_sound hi dec bg (by simp) (by simp) (by simp)
  | submit chunk elapsed rest hi idle e => exact e ▸ submit_sound hi ⟨_, rfl⟩
  | attempt answer elapsed rest hi idle e =>
    exact e ▸ attempt_sound hi (by simp) fun hne => by simpa using hp.send.lastNow_ne_none hne
  | sample v elapsed rest hi e => rw [e]; trivial
  | count v elapsed rest hi e => rw [e]; trivial

/-- Settles O60: each agent's step is sound, and the framer's guards are met while a `submit` runs. -/
theorem runsNeverFault : Obligations.RunsNeverFault := by
  intro s hp
  have sound := turn_sound hp
  obtain ⟨-, hl, -⟩ := hp.positions
  rw [step_instance hp.instanceOk]
  refine ⟨fun f hf => ?_, fun e he => ?_, fun left hb => ?_⟩
  · rw [hf] at sound; exact sound
  · rw [he] at sound; exact sound
  · exact framerStep_completes hb hl (hp.send.outbox_eq_none (by rw [hb]; nofun))

end Sys2Proof.Machine
end

section
/-! SUPPORT. The feedback (41_control_tick.md R90), and the result of a TICK in each regulating mode, step by step. -/

namespace Sys2Proof.Machine

/-! ## Feedback (R90) -/

/-- The window's sum as a sum over its sample numbers. -/
theorem windowSum_eq_sum (s : State) (base : Int) (c n : Nat) :
    windowSum s base c n =
      ((List.range n).map fun k =>
        (ringRead s (base - ((k + 1 : Nat) : Int) * (s.params.channels : Int) + (c : Int))).toNat).sum := by
  induction n with
  | zero => rfl
  | succ n ih => simp [windowSum, ih, List.range_succ]

/-- Settles O22: the recursive sum of the window is the sum over its sample numbers. -/
theorem feedbackIsTheWindowAverage : Obligations.FeedbackIsTheWindowAverage := by
  intro s
  simp only [feedback, channelAvg, windowSum_eq_sum]
  rfl

theorem windowSum_congr {s t : State} {base : Int} {c n : Nat}
    (h : ∀ k, 1 ≤ k → k ≤ n →
      ringRead s (base - (k : Int) * (s.params.channels : Int) + (c : Int)) =
        ringRead t (base - (k : Int) * (t.params.channels : Int) + (c : Int))) :
    windowSum s base c n = windowSum t base c n := by
  rw [windowSum_eq_sum, windowSum_eq_sum]
  refine congrArg List.sum (List.map_congr_left fun k hk => ?_)
  rw [h (k + 1) (Nat.succ_pos k) (List.mem_range.1 hk)]

/-- Settles O25: the feedback is made of the two sums of the window. -/
theorem feedbackSeesOnlyTheWindow : Obligations.FeedbackSeesOnlyTheWindow := by
  intro s t hp hd h
  have hbase : frameBase s = frameBase t := by simp only [frameBase, hp, hd]
  have havg (c : Nat) (hc : (c : Int) < 2) : channelAvg s c = channelAvg t c := by
    have hsum : windowSum s (frameBase s) c s.params.window = windowSum t (frameBase s) c s.params.window :=
      windowSum_congr fun k h1 h2 => (h k c h1 h2 hc).trans (by rw [hbase])
    rw [channelAvg, channelAvg, hsum, hp, hbase]
  simp only [feedback, havg 0 (by decide), havg 1 (by decide), scale, hp]

/-! ## Hysteretic (42_hysteretic.md R97) -/

theorem registerValue_cast {p : Params} {n : Int} (h0 : 0 ≤ n) (h : n ≤ p.tmax) : (registerValue p n : Int) = n := by
  rw [registerValue_of_fits h0 h, Int.toNat_of_nonneg h0]

theorem hystNext_of_finite (dom : NumDomain) (r : HystRec) (arr : Nat) (vout : Quantity)
    (h : (hystStep r vout).finite = true ∧ (hystDuty dom r arr vout).finite = true) :
    hystNext dom r arr vout = some ({ r with duty := hystDuty dom r arr vout }, hystCompare dom r arr vout) := by
  rw [hystNext_eq, if_pos h]

theorem hystNext_of_not_finite (dom : NumDomain) (r : HystRec) (arr : Nat) (vout : Quantity)
    (h : ¬((hystStep r vout).finite = true ∧ (hystDuty dom r arr vout).finite = true)) :
    hystNext dom r arr vout = none := by
  rw [hystNext_eq, if_neg h]

/-- Settles O26: the law commits exactly where the stepped duty and the new one are finite. -/
theorem hystereticTickResult : Obligations.HystereticTickResult := by
  intro s r hr hc hbuf
  refine ⟨_, registerValue s.params (hystCompare s.params.num r s.hw.pwmArr (feedback s).vout), execTick_hyst hc hr,
    registerValue_le_tmax _ _, registerValue_cast, fun hf => ?_, fun hf => ?_⟩
  · rw [hystNext_of_finite s.params.num r s.hw.pwmArr (feedback s).vout hf]
    exact tickedState_ticked hbuf _ _ _ _
  · rw [hystNext_of_not_finite s.params.num r s.hw.pwmArr (feedback s).vout hf]
    exact tickedState_ticked hbuf _ _ _ _

/-! ## PID (43_pid.md R99) -/

/-- Settles O30: the law commits exactly where every bound value is finite. -/
theorem pidTickResult : Obligations.PidTickResult := by
  intro s r hr hc hbuf dom e i1 df u hi d c ok
  refine ⟨_, registerValue s.params c, execTick_pid hc hr, registerValue_le_tmax _ _, registerValue_cast,
    fun hf => ?_, fun hf => ?_⟩
  · rw [pidNext_eq]
    dsimp only
    rw [if_pos hf]
    exact tickedState_ticked hbuf _ _ _ _
  · rw [pidNext_eq]
    dsimp only
    rw [if_neg hf]
    exact tickedState_ticked hbuf _ _ _ _

/-! ## Constant on-time (44_cot.md R105 to R107) -/

theorem cotNext_cot {p : Params} {running : Bool} {r : CotRec} {vout vin : Quantity} (h : r.sub = .cot) :
    cotNext p running r vout vin =
      cotStep p running r vout vin (r.target.sub vout) (emaAdd p.num r.ema vout) := by simp [cotNext, h]

theorem cotNext_cs {p : Params} {running : Bool} {r : CotRec} {vout vin : Quantity} (h : r.sub = .cs) :
    cotNext p running r vout vin =
      csStep p running r vout vin (r.target.sub vout) (emaAdd p.num r.ema vout) := by simp [cotNext, h]

/-- Settles O33: the three branches of `COT_STEP`. -/
theorem cotTickResult : Obligations.CotTickResult := by
  intro s r hr hsub hc hbuf dom vout vin a0 e m i1 current b1 li tOn vhi tFall ieff f0 fMax f dty ok1 ok2
  have finite1 : allFinite [e, i1, current, m.avg, m.var] = true ↔ ok1 := by simp [allFinite, ok1]
  have finite2 : allFinite [e, i1, current, m.avg, m.var, li, tOn, vhi, tFall, ieff, f0, fMax, f, dty] = true ↔
      ok1 ∧ ok2 := by
    simp only [allFinite, Bool.and_eq_true, Bool.and_true, ok1, ok2, and_assoc]
  refine ⟨_, execTick_cot hc hr, fun hb hok => ?_, fun g hb hok hg => ?_, fun hno => ?_⟩
  · rw [cotNext_cot hsub, cotStep_unfolded]
    dsimp only
    rw [if_pos hb, if_pos (finite1.2 hok)]
    exact tickedState_ticked hbuf _ _ _ _
  · rw [cotNext_cot hsub, cotStep_unfolded]
    dsimp only
    rw [if_neg (Nat.not_le.2 hb), hg]
    dsimp only
    rw [if_pos (finite2.2 hok)]
    exact tickedState_ticked hbuf _ _ _ _
  · have hnone : cotNext s.params s.blk.running r vout vin = none := by
      rw [cotNext_cot hsub, cotStep_unfolded]
      dsimp only
      by_cases hb : s.params.skipTicks ≤ b1
      · rw [if_pos hb, if_neg]
        exact fun hf => hno.elim (absurd (finite1.1 hf)) fun h => absurd h.1 (Nat.not_lt.2 hb)
      · rw [if_neg hb]
        cases hg : freqCalc s.params f dty with
        | none => rfl
        | some g =>
          dsimp only
          rw [if_neg]
          intro hf
          obtain ⟨h1, h2⟩ := finite2.1 hf
          exact hno.elim (absurd h1) fun h => h.2.elim (absurd h2) (by simp [hg])
    rw [hnone]
    exact tickedState_ticked hbuf _ _ _ _

/-- Settles O34: the branches of `CS_STEP`; the values of the return are asked to be finite only where it is taken. -/
theorem cycleSkippingTickResult : Obligations.CycleSkippingTickResult := by
  intro s r hr hsub hc hbuf dom vout vin a0 e m en p1 li tOn fcs dcs ee thr ret vhi tFall i0 ok
  have finite1 : allFinite [e, li, tOn, fcs, dcs, ee, thr, m.avg, m.var] = true ↔
      e.finite = true ∧ li.finite = true ∧ tOn.finite = true ∧ fcs.finite = true ∧ dcs.finite = true ∧
        ee.finite = true ∧ thr.finite = true ∧ m.avg.finite = true ∧ m.var.finite = true := by simp [allFinite]
  have finite2 : allFinite [vhi, tFall, i0] = true ↔ vhi.finite = true ∧ tFall.finite = true ∧ i0.finite = true := by
    simp [allFinite]
  have returns : (decide (s.params.csMinOn ≤ p1) && thr.lt ee) = true ↔ ret := by
    simp only [Bool.and_eq_true, decide_eq_true_eq, ret]
  refine ⟨_, execTick_cot hc hr, fun g hok hg => ?_, fun hno => ?_⟩
  · obtain ⟨he, hli, hon, hf, hd, hee, hthr, havg, hvar, hret⟩ := hok
    rw [cotNext_cs hsub, csStep_unfolded]
    dsimp only
    rw [hg]
    dsimp only
    rw [if_pos (finite1.2 ⟨he, hli, hon, hf, hd, hee, hthr, havg, hvar⟩)]
    refine ⟨fun hr => ?_, fun hr => ?_⟩
    · rw [if_pos (returns.2 hr), if_pos (finite2.2 (hret.resolve_left (absurd hr)))]
      exact tickedState_ticked hbuf _ _ _ _
    · rw [if_neg (mt returns.1 hr)]
      exact tickedState_ticked hbuf _ _ _ _
  · have hnone : cotNext s.params s.blk.running r vout vin = none := by
      rw [cotNext_cs hsub, csStep_unfolded]
      dsimp only
      cases hg : freqCalc s.params fcs dcs with
      | none => rfl
      | some g =>
        have hno : ¬ok := hno.resolve_right (by simp [hg])
        dsimp only
        split
        · rename_i h1
          obtain ⟨he, hli, hon, hf, hd, hee, hthr, havg, hvar⟩ := finite1.1 h1
          have hret : ¬(¬ret ∨ (vhi.finite = true ∧ tFall.finite = true ∧ i0.finite = true)) := fun hret =>
            hno ⟨he, hli, hon, hf, hd, hee, hthr, havg, hvar, hret⟩
          rw [not_or, not_not] at hret
          rw [if_pos (returns.2 hret.1), if_neg (mt finite2.1 hret.2)]
        · rfl
    rw [hnone]
    exact tickedState_ticked hbuf _ _ _ _

end Sys2Proof.Machine
end

section
/-! SUPPORT. The number formats (00_scope.md R10, R11, decision D1): rounding is to nearest even, the operations are the
exact ones rounded once, and the special values follow the standard. -/

namespace Sys2Proof

open Machine

/-! ## Rounding to nearest even -/

/-- The magnitude lands above `m` exactly from the midpoint after `m` on, and on it where `m` is odd. -/
theorem lt_roundMag_iff {n d m : Nat} (hd : 0 < d) :
    m < roundMag n d ↔
      d * (magValue m + magValue (m + 1)) ≤ 2 * n ∧ (2 * n = d * (magValue m + magValue (m + 1)) → m % 2 = 1) := by
  rw [← Nat.not_le, roundMag_le_iff hd]
  omega

/-- Every magnitude above the rounded one is farther from the quotient, or as far and then the rounded one is even. -/
theorem roundMag_nearest_above {n d m' : Nat} (hd : 0 < d) (h : roundMag n d < m') :
    (((magValue (roundMag n d) * d : Nat) : Int) - n).natAbs < (((magValue m' * d : Nat) : Int) - n).natAbs ∨
      ((((magValue (roundMag n d) * d : Nat) : Int) - n).natAbs = (((magValue m' * d : Nat) : Int) - n).natAbs ∧
        roundMag n d % 2 = 0) := by
  have hmid := (roundMag_le_iff (n := n) hd).1 (Nat.le_refl (roundMag n d))
  generalize roundMag n d = m at *
  have hlt := Nat.mul_lt_mul_of_pos_right (magValue_lt_iff.2 h) hd
  have hle := Nat.mul_le_mul_right d (magValue_le_iff.2 (show m + 1 ≤ m' from h))
  rw [Nat.mul_comm d, Nat.add_mul] at hmid
  omega

/-- Every magnitude below the rounded one is farther from the quotient, or as far and then the rounded one is even. -/
theorem roundMag_nearest_below {n d m' : Nat} (hd : 0 < d) (h : m' < roundMag n d) :
    (((magValue (roundMag n d) * d : Nat) : Int) - n).natAbs < (((magValue m' * d : Nat) : Int) - n).natAbs ∨
      ((((magValue (roundMag n d) * d : Nat) : Int) - n).natAbs = (((magValue m' * d : Nat) : Int) - n).natAbs ∧
        roundMag n d % 2 = 0) := by
  obtain ⟨k, hk⟩ : ∃ k, roundMag n d = k + 1 := ⟨roundMag n d - 1, by omega⟩
  have hmid := (lt_roundMag_iff (n := n) (m := k) hd).1 (by omega)
  rw [hk] at h ⊢
  have hlt := Nat.mul_lt_mul_of_pos_right (magValue_lt_iff.2 h) hd
  have hle := Nat.mul_le_mul_right d (magValue_le_iff.2 (Nat.le_of_lt_succ h))
  rw [Nat.mul_comm d, Nat.add_mul] at hmid
  omega

/-- Settles O36: the rounded magnitude lies between the midpoints on its two sides, the even one on a midpoint. -/
theorem roundingIsToNearestEven : Obligations.RoundingIsToNearestEven := by
  intro neg n d hd
  by_cases h : roundMag n d < 2139095040
  · refine Or.inl ⟨⟨roundMag n d, h⟩, Quantity.ofMag_lt h, fun m' hne => ?_⟩
    obtain hlt | hgt := Nat.lt_or_gt_of_ne hne
    · exact roundMag_nearest_below hd hlt
    · exact roundMag_nearest_above hd hgt
  · exact Or.inr ⟨dif_neg h, ((lt_roundMag_iff hd).1 (Nat.lt_of_succ_le (Nat.not_lt.1 h))).1⟩

/-! ## The operations on binary32 values -/

theorem add_fin {a b : Bool} {x y : Mag} (h : signedValue a x + signedValue b y ≠ 0) :
    (Quantity.fin a x).add (.fin b y) =
      Quantity.round (decide (signedValue a x + signedValue b y < 0)) (signedValue a x + signedValue b y).natAbs 1 :=
  if_neg h

theorem add_fin_of_zero_sum {a b : Bool} {x y : Mag} (h : signedValue a x + signedValue b y = 0) :
    (Quantity.fin a x).add (.fin b y) = .fin (a && b) ⟨0, by decide⟩ := if_pos h

theorem mul_fin (a b : Bool) (x y : Mag) :
    (Quantity.fin a x).mul (.fin b y) = Quantity.round (a ^^ b) (magValue x * magValue y) unit := rfl

theorem div_fin {a b : Bool} {x y : Mag} (h : y.val ≠ 0) :
    (Quantity.fin a x).div (.fin b y) = Quantity.round (a ^^ b) (magValue x * unit) (magValue y) := if_neg h

theorem div_fin_zero {a b : Bool} {x y : Mag} (h : y.val = 0) :
    (Quantity.fin a x).div (.fin b y) = if x.val = 0 then .nan else .inf (a ^^ b) := if_pos h

theorem magValue_pos {m : Nat} (h : m ≠ 0) : 0 < magValue m := magValue_lt_iff.2 (Nat.pos_of_ne_zero h)

/-- The sum of two finite binary32 values is the exact one, rounded once. -/
theorem add_nearest (a b : Bool) (x y : Mag) (h : signedValue a x + signedValue b y ≠ 0) :
    Nearest (decide (signedValue a x + signedValue b y < 0)) (signedValue a x + signedValue b y).natAbs 1
      ((Quantity.fin a x).add (.fin b y)) := by
  rw [add_fin h]
  exact roundingIsToNearestEven _ _ _ Nat.one_pos

/-- Settles O37: each operation is one rounding of the exact result. -/
theorem arithmeticIsExactThenRounded : Obligations.ArithmeticIsExactThenRounded := by
  refine ⟨fun a b x y => ⟨⟨add_nearest a b x y, add_fin_of_zero_sum⟩, ?_, ?_, fun h => ?_, div_fin_zero⟩, fun n => ?_⟩
  · have e : signedValue a x - signedValue b y = signedValue a x + signedValue (!b) y := by
      rw [signedValue_not, Int.sub_eq_add_neg]
    dsimp only
    rw [e]
    exact ⟨add_nearest a (!b) x y, add_fin_of_zero_sum⟩
  · exact roundingIsToNearestEven _ _ _ unit_pos
  · rw [div_fin h]
    exact roundingIsToNearestEven _ _ _ (magValue_pos h)
  · exact roundingIsToNearestEven _ _ _ Nat.one_pos

/-! ## Special values -/

/-- Finite binary32 values compare by value. -/
theorem lt_fin_iff {a b : Bool} {x y : Mag} :
    (Quantity.fin a x).lt (.fin b y) = true ↔ signedValue a x < signedValue b y :=
  decide_eq_true_iff.trans signedValue_lt_iff.symm

theorem le_fin_iff {a b : Bool} {x y : Mag} :
    (Quantity.fin a x).le (.fin b y) = true ↔ signedValue a x ≤ signedValue b y := by
  rw [← Int.not_lt, ← lt_fin_iff]
  simp [Quantity.le, Quantity.isNaN]

/-- Settles O38: the cases of each operation's definition. -/
theorem specialValuesFollowTheStandard : Obligations.SpecialValuesFollowTheStandard := by
  refine ⟨fun x => ?_, fun a b => ?_, fun a b x => ?_, fun a b x y => ⟨lt_fin_iff, le_fin_iff⟩⟩
  · cases x <;> exact ⟨rfl, rfl, rfl, rfl, rfl, rfl, rfl, rfl, rfl, rfl, rfl, rfl⟩
  · refine ⟨rfl, ?_, ?_, rfl⟩
    · cases a <;> cases b <;> rfl
    · rfl
  · refine ⟨rfl, rfl, rfl, rfl, ?_, ?_, rfl, ?_, rfl, rfl⟩
    · simp [Quantity.mul, Quantity.isZero, Quantity.sign]
    · simp [Quantity.mul, Quantity.isZero, Quantity.sign, Bool.xor_comm]
    · rw [Bool.xor_comm a b]
      rfl

/-! ## Compare values of a duty -/

/-- Settles O20: the product of an exact reload and a duty lies between 0 and the reload, and so does its rounding. -/
theorem dutyCompareValue : Obligations.DutyCompareValue := fun _ _ _ ha hd => ⟨rfl, dutyCcr_range ha hd.1 hd.2⟩

/-! ## Exact rationals -/

theorem lt_exact_iff (p q : ℚ) : (Quantity.exact p).lt (.exact q) = true ↔ p < q := decide_eq_true_iff

theorem le_exact_iff (p q : ℚ) : (Quantity.exact p).le (.exact q) = true ↔ p ≤ q := Quantity.le_iff_toRat rfl rfl

/-- `roundI` of a rational that is not negative lies within one half, above it at exactly one half. -/
theorem roundI_exact_near {q : ℚ} (h : 0 ≤ q) :
    q - 1 / 2 < roundI (.exact q) ∧ (roundI (.exact q) : ℚ) ≤ q + 1 / 2 := by
  have hlo := Rat.lt_floor_add_one (q + 1 / 2)
  have hhi := Rat.floor_le (q + 1 / 2)
  rw [roundI_exact, if_neg (not_lt.2 h)]
  push_cast at hlo
  exact ⟨by linarith, hhi⟩

theorem roundI_exact_neg {q : ℚ} (h : q < 0) : roundI (.exact q) = -roundI (.exact (-q)) := by
  rw [roundI_exact, roundI_exact, if_pos h, if_neg (not_lt.2 (neg_nonneg.2 h.le))]

/-- `roundI` of a rational: the nearest integer, half away from zero. -/
theorem roundI_exact_spec (q : ℚ) :
    |q - roundI (.exact q)| ≤ 1 / 2 ∧ (|q - roundI (.exact q)| = 1 / 2 → |q| < |(roundI (.exact q) : ℚ)|) := by
  have of_nonneg {x : ℚ} (hx : 0 ≤ x) :
      |x - roundI (.exact x)| ≤ 1 / 2 ∧ (|x - roundI (.exact x)| = 1 / 2 → |x| < |(roundI (.exact x) : ℚ)|) := by
    obtain ⟨hlo, hhi⟩ := roundI_exact_near hx
    refine ⟨abs_le.2 ⟨by linarith, by linarith⟩, fun he => ?_⟩
    have hd : x - roundI (.exact x) = -(1 / 2) := (abs_eq (by norm_num) |>.1 he).resolve_left fun e => by linarith
    rw [abs_of_nonneg hx, abs_of_nonneg (by linarith)]
    linarith
  obtain h | h := le_or_gt 0 q
  · exact of_nonneg h
  · have e : q - ((-roundI (.exact (-q)) : Int) : ℚ) = -(-q - roundI (.exact (-q))) := by push_cast; ring
    rw [roundI_exact_neg h, e, abs_neg, Int.cast_neg, abs_neg, ← abs_neg q]
    exact of_nonneg (neg_nonneg.2 h.le)

/-- In rationals a field stands for the rational its pattern is. -/
theorem rational_ofBits_fin {b : Word} {neg : Bool} {m : Mag} (h : Quantity.ofBits b = .fin neg m) :
    NumDomain.rational.ofBits b = .exact ((signedValue neg m : ℚ) / unit) := by
  rw [NumDomain.ofBits, h, ← toRat_fin]
  rfl

theorem rational_ofBits_of_not_finite {b : Word} (h : (Quantity.ofBits b).finite = false) :
    NumDomain.rational.ofBits b = Quantity.ofBits b := by
  unfold NumDomain.ofBits
  cases hx : Quantity.ofBits b with
  | nan => rfl
  | inf s => rfl
  | fin s m => rw [hx] at h; cases h
  | exact q => rw [hx] at h; cases h

/-- Settles O40: on two rationals every operation is the one of the field of rationals. -/
theorem rationalArithmeticIsExact : Obligations.RationalArithmeticIsExact :=
  ⟨fun p q => ⟨rfl, sub_exact p q, rfl, rfl, div_exact, by rw [div_exact_zero]; exact overZero_not_finite p,
      lt_exact_iff p q, le_exact_iff p q⟩,
    fun _ => rfl, fun _ => ⟨rational_ofBits_of_not_finite, fun _ _ => rational_ofBits_fin⟩,
    fun q => ⟨Rat.le_ceil, fun _ => Rat.ceil_le_iff.2, roundI_exact_spec q⟩⟩

/-! ## Bit patterns -/

theorem ofBits_fin {b : Word} (h : b.toNat % 2 ^ 31 < 2139095040) :
    Quantity.ofBits b = .fin (decide (b.toNat / 2 ^ 31 = 1)) ⟨b.toNat % 2 ^ 31, h⟩ := dif_pos h

theorem ofBits_inf {b : Word} (h : b.toNat % 2 ^ 31 = 2139095040) :
    Quantity.ofBits b = .inf (decide (b.toNat / 2 ^ 31 = 1)) := by
  rw [Quantity.ofBits, dif_neg (by omega), if_pos h]

theorem ofBits_nan {b : Word} (h : 2139095040 < b.toNat % 2 ^ 31) : Quantity.ofBits b = .nan := by
  rw [Quantity.ofBits, dif_neg (by omega), if_neg (by omega)]

/-- A pattern is NaN exactly above the magnitude of infinity. -/
theorem ofBits_isNaN_iff (b : Word) : (Quantity.ofBits b).isNaN = true ↔ 0x7F800000 < b.toNat % 2 ^ 31 := by
  obtain h | h | h := lt_trichotomy (b.toNat % 2 ^ 31) 2139095040
  · rw [ofBits_fin h]
    exact ⟨fun hn => Bool.noConfusion hn, fun hn => by omega⟩
  · rw [ofBits_inf h]
    exact ⟨fun hn => Bool.noConfusion hn, fun hn => by omega⟩
  · rw [ofBits_nan h]
    exact ⟨fun _ => h, fun _ => rfl⟩

/-- A pattern that is not NaN comes back from its value: sign bit and magnitude are its two parts. -/
theorem toBits_ofBits {b : Word} (h : (Quantity.ofBits b).isNaN = false) : (Quantity.ofBits b).toBits = b := by
  have hb := b.isLt
  obtain hm | hm | hm := lt_trichotomy (b.toNat % 2 ^ 31) 2139095040
  · rw [ofBits_fin hm]
    apply BitVec.eq_of_toNat_eq
    rw [Quantity.toBits, BitVec.toNat_ofNat]
    simp only [decide_eq_true_eq]
    split <;> omega
  · rw [ofBits_inf hm]
    apply BitVec.eq_of_toNat_eq
    simp only [Quantity.toBits, decide_eq_true_eq]
    split
    · exact (show 4286578688 = b.toNat by omega)
    · exact (show 2139095040 = b.toNat by omega)
  · rw [ofBits_nan hm] at h
    cases h

/-- The pattern of a finite value has the value's sign bit and magnitude. -/
theorem ofBits_toBits_fin (s : Bool) (m : Mag) : Quantity.ofBits (Quantity.fin s m).toBits = .fin s m := by
  have hm := m.isLt
  have e : ((Quantity.fin s m).toBits).toNat = (if s then 2 ^ 31 else 0) + m.val := by
    rw [Quantity.toBits, BitVec.toNat_ofNat]
    split <;> omega
  have hlow : (Quantity.fin s m).toBits.toNat % 2 ^ 31 = m.val := by
    rw [e]
    split <;> omega
  have hsign : decide ((Quantity.fin s m).toBits.toNat / 2 ^ 31 = 1) = s := by
    rw [e]
    cases s <;> simp <;> omega
  rw [ofBits_fin (by omega), hsign]
  exact congrArg _ (Fin.ext hlow)

/-- Every value of the binary32 domain comes back from its pattern. -/
theorem ofBits_toBits {x : Quantity} (h : NumDomain.binary32.has x = true) : Quantity.ofBits x.toBits = x := by
  cases x with
  | nan => decide
  | inf s => cases s <;> decide
  | fin s m => exact ofBits_toBits_fin s m
  | exact q => cases h

theorem binary32_ofBits (b : Word) : NumDomain.binary32.ofBits b = Quantity.ofBits b := rfl

/-- Settles O5: the sign bit and the magnitude of a pattern are those of its value, below infinity and at it. -/
theorem patternsAndValuesAgree : Obligations.PatternsAndValuesAgree :=
  ⟨ofBits_isNaN_iff, fun _ => toBits_ofBits, fun _ => ofBits_toBits, binary32_ofBits⟩

end Sys2Proof
end

section
/-! SUPPORT. Comparing with a rounded value (00_scope.md R10): on binary32 values the order of the signed magnitudes
decides, overflow included; and the integer roundings of R11. -/

namespace Sys2Proof

open Machine

/-! ## Comparing with a rounded value -/

/-- The signed magnitude of what `± n / d` rounds to, overflow included. -/
def roundKey (neg : Bool) (n d : Nat) : Int := if neg then -(roundMag n d : Int) else roundMag n d

theorem round_cases (neg : Bool) (n d : Nat) :
    (∃ h : roundMag n d < 2139095040, Quantity.round neg n d = .fin neg ⟨roundMag n d, h⟩) ∨
      (2139095040 ≤ roundMag n d ∧ Quantity.round neg n d = .inf neg) := by
  by_cases h : roundMag n d < 2139095040
  · exact Or.inl ⟨h, Quantity.ofMag_lt h⟩
  · exact Or.inr ⟨Nat.not_lt.1 h, dif_neg h⟩

theorem round_isNaN (neg : Bool) (n d : Nat) : (Quantity.round neg n d).isNaN = false := by
  obtain ⟨h, e⟩ | ⟨-, e⟩ := round_cases neg n d <;> rw [e] <;> rfl

theorem magKey_bounds (s : Bool) (m : Mag) : -2139095040 < magKey s m ∧ magKey s m < 2139095040 := by
  have := m.isLt
  unfold magKey
  split <;> omega

theorem fin_le_round {s neg : Bool} {m : Mag} {n d : Nat} :
    (Quantity.fin s m).le (Quantity.round neg n d) = true ↔ magKey s m ≤ roundKey neg n d := by
  obtain ⟨hlo, hhi⟩ := magKey_bounds s m
  obtain ⟨h, e⟩ | ⟨h, e⟩ := round_cases neg n d <;> rw [e]
  · simp [Quantity.le, Quantity.lt, Quantity.isNaN, roundKey, magKey]
  · cases neg <;> simp [Quantity.le, Quantity.lt, Quantity.isNaN, roundKey] <;> omega

theorem round_le_fin {s neg : Bool} {m : Mag} {n d : Nat} :
    (Quantity.round neg n d).le (.fin s m) = true ↔ roundKey neg n d ≤ magKey s m := by
  obtain ⟨hlo, hhi⟩ := magKey_bounds s m
  obtain ⟨h, e⟩ | ⟨h, e⟩ := round_cases neg n d <;> rw [e]
  · simp [Quantity.le, Quantity.lt, Quantity.isNaN, roundKey, magKey]
  · cases neg <;> simp [Quantity.le, Quantity.lt, Quantity.isNaN, roundKey] <;> omega

/-! ## `ceilI` and `roundI` of binary32 values -/

theorem ceilDiv_le_iff {a b n : Nat} (hb : 0 < b) : ceilDiv a b ≤ n ↔ a ≤ n * b := by
  rw [ceilDiv, ← Nat.lt_succ_iff, Nat.div_lt_iff_lt_mul hb, Nat.succ_mul]
  omega

theorem numInt_binary32 (n : Int) :
    NumDomain.binary32.numInt n = Quantity.round (decide (n < 0)) (n.natAbs * unit) 1 := rfl

/-- A magnitude is at most that of an integer exactly from the midpoint below it on, the midpoint included at an even
one. -/
theorem le_roundMag_nat {m n : Nat} (hm : m ≠ 0) :
    m ≤ roundMag (n * unit) 1 ↔
      magValue (m - 1) + magValue m ≤ n * (2 * unit) ∧ (n * (2 * unit) = magValue (m - 1) + magValue m → m % 2 = 0) := by
  obtain ⟨k, rfl⟩ := Nat.exists_eq_succ_of_ne_zero hm
  have e : n * (2 * unit) = 2 * (n * unit) := by rw [Nat.mul_left_comm]
  rw [Nat.succ_le_iff, lt_roundMag_iff Nat.one_pos, Nat.one_mul, e, Nat.succ_eq_add_one, Nat.add_sub_cancel]
  omega

theorem roundMag_nat_le {m n : Nat} :
    roundMag (n * unit) 1 ≤ m ↔
      n * (2 * unit) ≤ magValue m + magValue (m + 1) ∧ (n * (2 * unit) = magValue m + magValue (m + 1) → m % 2 = 0) := by
  have e : n * (2 * unit) = 2 * (n * unit) := by rw [Nat.mul_left_comm]
  rw [roundMag_le_iff Nat.one_pos, Nat.one_mul, e]
  omega

theorem roundMag_nat_pos {n : Nat} (h : 0 < n) : 0 < roundMag (n * unit) 1 := by
  refine Nat.lt_of_lt_of_le (by decide : 0 < 0x3F800000) (le_roundMag Nat.one_pos ?_)
  rw [magValue_one, Nat.one_mul]
  exact Nat.le_mul_of_pos_left _ h

theorem roundKey_of_nonneg {n : Int} (h : 0 ≤ n) :
    roundKey (decide (n < 0)) (n.natAbs * unit) 1 = roundMag (n.toNat * unit) 1 := by
  rw [roundKey, if_neg (by simpa using h), show n.natAbs = n.toNat by omega]

theorem roundKey_of_neg {n : Int} (h : n < 0) :
    roundKey (decide (n < 0)) (n.natAbs * unit) 1 = -roundMag ((-n).toNat * unit) 1 ∧
      0 < roundMag ((-n).toNat * unit) 1 := by
  rw [roundKey, if_pos (decide_eq_true h), show n.natAbs = (-n).toNat by omega]
  exact ⟨rfl, roundMag_nat_pos (by omega)⟩

/-- `ceilI` of a value that is not negative. -/
theorem ceilI_pos_le_iff {m : Mag} {n : Nat} (hm : m.val ≠ 0) :
    ceilI (.fin false m) ≤ n ↔ m.val ≤ roundMag (n * unit) 1 := by
  have hu : 0 < 2 * unit := by decide
  rw [le_roundMag_nat hm, ceilI, if_neg hm]
  dsimp only
  generalize magValue (m.val - 1) + magValue m.val = s
  split
  · rw [Nat.cast_le, ceilDiv_le_iff hu]
    omega
  · have := Nat.div_lt_iff_lt_mul (x := s) (y := n) hu
    rw [Nat.cast_le, Nat.succ_le_iff, this]
    omega

/-- `ceilI` of a negative value, whose integer is `-n`. -/
theorem le_neg_ceilI_iff {m : Mag} {n : Nat} :
    (n : Int) ≤ -ceilI (.fin true m) ↔ roundMag (n * unit) 1 ≤ m.val := by
  have hu : 0 < 2 * unit := by decide
  have hs : 0 < magValue m.val + magValue (m.val + 1) := Nat.add_pos_right _ (magValue_pos (Nat.succ_ne_zero _))
  rw [roundMag_nat_le, ceilI]
  generalize magValue m.val + magValue (m.val + 1) = s at *
  split
  · rw [Int.neg_neg, Nat.cast_le, Nat.le_div_iff_mul_le hu]
    omega
  · have := ceilDiv_le_iff (a := s) (n := n) hu
    have h0 := ceilDiv_le_iff (a := s) (n := 0) hu
    rw [Int.neg_neg, Nat.cast_le]
    omega

theorem ceilI_pos_nonneg (m : Mag) : 0 ≤ ceilI (.fin false m) := by
  rw [ceilI]
  split
  · exact Int.le_refl 0
  · dsimp only
    split <;> exact Int.natCast_nonneg _

theorem ceilI_neg_nonpos (m : Mag) : ceilI (.fin true m) ≤ 0 := by
  have h := (le_neg_ceilI_iff (m := m) (n := 0)).2 (by rw [Nat.zero_mul, roundMag_zero]; exact Nat.zero_le _)
  omega

/-- `ceilI` of a binary32 value is the least integer whose `num` is not below it. -/
theorem ceilI_fin_le_iff (s : Bool) (m : Mag) (n : Int) :
    ceilI (.fin s m) ≤ n ↔ (Quantity.fin s m).le (NumDomain.binary32.numInt n) = true := by
  rw [numInt_binary32, fin_le_round]
  obtain hn | hn := Int.lt_or_le n 0
  · obtain ⟨hk, hpos⟩ := roundKey_of_neg hn
    rw [hk]
    cases s
    · have := ceilI_pos_nonneg m
      simp only [magKey, Bool.false_eq_true, if_false]
      omega
    · have := le_neg_ceilI_iff (m := m) (n := (-n).toNat)
      simp only [magKey, if_true]
      omega
  · rw [roundKey_of_nonneg hn]
    cases s
    · by_cases hm : m.val = 0
      · rw [show ceilI (.fin false m) = 0 from if_pos hm, magKey, hm]
        simpa using hn
      · have := ceilI_pos_le_iff (n := n.toNat) hm
        simp only [magKey, Bool.false_eq_true, if_false]
        omega
    · have := ceilI_neg_nonpos m
      simp only [magKey, if_true]
      omega

/-- `roundI` of a binary32 value lies within one half, and at exactly one half lies farther from zero. -/
theorem roundI_fin_spec (s : Bool) (m : Mag) :
    (2 * (signedValue s m - roundI (.fin s m) * unit)).natAbs ≤ unit ∧
      ((2 * (signedValue s m - roundI (.fin s m) * unit)).natAbs = unit →
        (signedValue s m).natAbs < (roundI (.fin s m) * unit).natAbs) := by
  have hu : 0 < 2 * unit := by decide
  have hdiv := Nat.div_add_mod (2 * magValue m.val + unit) (2 * unit)
  have hmod := Nat.mod_lt (2 * magValue m.val + unit) hu
  rw [Nat.mul_assoc, Nat.mul_comm unit] at hdiv
  have hpos : 0 < unit := by decide
  cases s
  · simp only [signedValue, roundI, Bool.false_eq_true, if_false]
    generalize (2 * magValue m.val + unit) % (2 * unit) = w at *
    generalize (2 * magValue m.val + unit) / (2 * unit) = r at *
    rw [← Nat.cast_mul]
    generalize r * unit = ru at *
    omega
  · simp only [signedValue, roundI, if_true]
    generalize (2 * magValue m.val + unit) % (2 * unit) = w at *
    generalize (2 * magValue m.val + unit) / (2 * unit) = r at *
    rw [Int.neg_mul, ← Nat.cast_mul]
    generalize r * unit = ru at *
    omega

/-- Settles O39: `ceilI` and the comparison with `num` of an integer agree, and `roundI` is a division with remainder. -/
theorem integerRoundings : Obligations.IntegerRoundings := fun neg m =>
  ⟨(ceilI_fin_le_iff neg m _).1 (Int.le_refl _), fun n => (ceilI_fin_le_iff neg m n).2, roundI_fin_spec neg m⟩

end Sys2Proof
end

section
/-! SUPPORT. FREQCALC (41_control_tick.md R92): its result in closed form, and what it gives and when. -/

namespace Sys2Proof

open Machine

/-! ## `ceilI` against `num` -/

theorem num_eq_numInt (dom : NumDomain) (n : Nat) : dom.num n = dom.numInt n := by
  cases dom with
  | rational => rfl
  | binary32 =>
    rw [numInt_binary32, Int.natAbs_natCast, decide_eq_false (Int.not_lt.2 (Int.natCast_nonneg n))]
    rfl

/-- In either domain `ceilI` is the least integer whose `num` is not below the value. -/
theorem ceilI_le_iff {dom : NumDomain} {q : Quantity} (hd : dom.has q = true) (hf : q.finite = true) (n : Int) :
    ceilI q ≤ n ↔ q.le (dom.numInt n) = true := by
  cases q with
  | nan => cases hf
  | inf s => cases hf
  | fin s m =>
    obtain rfl : dom = .binary32 := by simpa using hd
    exact ceilI_fin_le_iff s m n
  | exact q =>
    obtain rfl : dom = .rational := by simpa using hd
    exact Rat.ceil_le_iff.trans (le_exact_iff q n).symm

/-! ## FREQCALC in closed form -/

/-- `q` of R92: the prescaled period that the frequency asks for. -/
def freqQuotient (p : Params) (f : Quantity) : Quantity :=
  (p.num.num p.clockHz).div ((p.num.num (2 ^ p.timerBits)).mul f)

/-- The prescaler of R92. -/
def freqPrescaler (p : Params) (f : Quantity) : Nat := (ceilI (freqQuotient p f) - 1).toNat

/-- The reload of R92. -/
def freqReload (p : Params) (f : Quantity) : Nat :=
  min (roundI ((p.num.num p.clockHz).div ((p.num.num (freqPrescaler p f + 1)).mul f))).toNat p.tmax

/-- The triple of R92. -/
def freqRegs (p : Params) (f d : Quantity) : PwmRegs :=
  ⟨freqPrescaler p f, freqReload p f,
    registerValue p (dutyCcr p.num (freqReload p f) (clamp d (p.num.num 0) (p.num.num 1)))⟩

/-- Where FREQCALC answers (decisions D10 to D12). -/
def FreqDomain (p : Params) (f d : Quantity) : Prop :=
  f.finite = true ∧ (p.num.num 0).lt f = true ∧ d.isNaN = false ∧ (freqQuotient p f).finite = true ∧
    freqPrescaler p f ≤ p.tmax

theorem freqCalc_eq (p : Params) (f d : Quantity) :
    freqCalc p f d =
      if !f.finite || !(p.num.num 0).lt f || d.isNaN then none
      else if !(freqQuotient p f).finite then none
      else if p.tmax < freqPrescaler p f then none
      else some (freqRegs p f d) := rfl

theorem freqCalc_of_domain {p : Params} {f d : Quantity} (h : FreqDomain p f d) :
    freqCalc p f d = some (freqRegs p f d) := by
  obtain ⟨hf, hpos, hd, hq, hp⟩ := h
  rw [freqCalc_eq, if_neg (by simp [hf, hpos, hd]), if_neg (by simp [hq]), if_neg (Nat.not_lt.2 hp)]

theorem freqCalc_of_not_domain {p : Params} {f d : Quantity} (h : ¬FreqDomain p f d) : freqCalc p f d = none := by
  rw [freqCalc_eq]
  split
  · rfl
  · split
    · rfl
    · split
      · rfl
      · refine absurd ?_ h
        rename_i hpre hq hp
        simp [and_assoc] at hpre hq
        obtain ⟨hf, hpos, hd⟩ := hpre
        exact ⟨hf, hpos, hd, hq, Nat.not_lt.1 hp⟩

theorem freqCalc_eq_none_iff {p : Params} {f d : Quantity} : freqCalc p f d = none ↔ ¬FreqDomain p f d := by
  refine ⟨fun h hd => ?_, freqCalc_of_not_domain⟩
  rw [freqCalc_of_domain hd] at h
  cases h

theorem freqCalc_eq_some {p : Params} {f d : Quantity} {r : PwmRegs} (h : freqCalc p f d = some r) :
    FreqDomain p f d ∧ r = freqRegs p f d := by
  have hd : FreqDomain p f d := by
    by_contra hn
    rw [freqCalc_of_not_domain hn] at h
    cases h
  rw [freqCalc_of_domain hd] at h
  exact ⟨hd, (Option.some.inj h).symm⟩

theorem has_freqQuotient {p : Params} {f : Quantity} (h : p.num.has f = true) : p.num.has (freqQuotient p f) = true :=
  has_div (has_num _ _) (has_mul (has_num _ _) h)

/-- The prescaler is the least whose timer reaches the frequency. -/
theorem freqPrescaler_le_iff {p : Params} {f : Quantity} (h : p.num.has f = true)
    (hq : (freqQuotient p f).finite = true) (k : Nat) :
    freqPrescaler p f ≤ k ↔ (freqQuotient p f).le (p.num.num (k + 1)) = true := by
  rw [num_eq_numInt, ← ceilI_le_iff (has_freqQuotient h) hq, freqPrescaler]
  push_cast
  omega

/-- Settles O21: the closed form, with the prescaler's comparison. -/
theorem freqCalcResult : Obligations.FreqCalcResult := by
  intro p f d hf
  refine ⟨?_, fun r hr => ?_⟩
  · rw [freqCalc_eq_none_iff, not_iff_not]
    constructor
    · rintro ⟨hfin, hpos, hd, hq, hp⟩
      exact ⟨hfin, hpos, hd, hq, (freqPrescaler_le_iff hf hq _).1 hp⟩
    · rintro ⟨hfin, hpos, hd, hq, hp⟩
      exact ⟨hfin, hpos, hd, hq, (freqPrescaler_le_iff hf hq _).2 hp⟩
  · obtain ⟨⟨hfin, hpos, hd, hq, hp⟩, rfl⟩ := freqCalc_eq_some hr
    have hle := freqPrescaler_le_iff hf hq
    have hcl := clamp_within d (num_zero_le_one p.num)
    refine ⟨(hle _).1 (Nat.le_refl _), fun k hk => ?_, hp, rfl, fun h0 h1 => ?_, registerValue_le_tmax _ _, fun hx => ?_⟩
    · exact Bool.eq_false_iff.2 fun h => Nat.not_lt.2 ((hle k).2 h) hk
    · exact registerValue_cast h0 h1
    · exact registerValue_dutyCcr hx (Nat.min_le_right _ _) hcl.1 hcl.2

/-! ## A quotient that is not finite -/

theorem sign_round_false (n d : Nat) : (Quantity.round false n d).sign = false := by
  obtain ⟨h, e⟩ | ⟨-, e⟩ := round_cases false n d <;> rw [e] <;> rfl

/-- Binary32 values without a sign: NaN, infinity and the magnitudes. -/
theorem unsigned_cases {a : Quantity} (ha : NumDomain.binary32.has a = true) (hs : a.sign = false) :
    a = .nan ∨ a = .inf false ∨ ∃ m, a = .fin false m := by
  cases a with
  | nan => exact Or.inl rfl
  | exact q => cases ha
  | inf s => exact Or.inr (Or.inl (congrArg Quantity.inf hs))
  | fin s m => exact Or.inr (Or.inr ⟨m, congrArg (Quantity.fin · m) hs⟩)

/-- Factors without a sign have a product without one. -/
theorem sign_mul {a b : Quantity} (ha : NumDomain.binary32.has a = true) (hb : NumDomain.binary32.has b = true)
    (hsa : a.sign = false) (hsb : b.sign = false) : (a.mul b).sign = false := by
  obtain rfl | rfl | ⟨m, rfl⟩ := unsigned_cases ha hsa <;> obtain rfl | rfl | ⟨n, rfl⟩ := unsigned_cases hb hsb
  case inr.inr.inr.inr => exact sign_round_false _ _
  case inr.inl.inr.inr => simp only [Quantity.mul]; split <;> rfl
  case inr.inr.inr.inl => simp only [Quantity.mul]; split <;> rfl
  all_goals rfl

/-- Terms without a sign have a quotient without one. -/
theorem sign_div {a b : Quantity} (ha : NumDomain.binary32.has a = true) (hb : NumDomain.binary32.has b = true)
    (hsa : a.sign = false) (hsb : b.sign = false) : (a.div b).sign = false := by
  obtain rfl | rfl | ⟨m, rfl⟩ := unsigned_cases ha hsa <;> obtain rfl | rfl | ⟨n, rfl⟩ := unsigned_cases hb hsb
  case inr.inr.inr.inr =>
    by_cases h : n.val = 0
    · rw [div_fin_zero h]
      split <;> rfl
    · rw [div_fin h]
      exact sign_round_false _ _
  all_goals rfl

theorem sign_num (n : Nat) : (NumDomain.binary32.num n).sign = false := sign_round_false _ _

/-- A positive value has no sign and is not zero. -/
theorem sign_of_pos {x : Quantity} (hx : NumDomain.binary32.has x = true)
    (h : (NumDomain.binary32.num 0).lt x = true) : x.sign = false ∧ x.isZero = false := by
  have h0 : NumDomain.binary32.num 0 = .fin false ⟨0, by decide⟩ := by decide
  rw [h0] at h
  cases x with
  | nan => cases h
  | inf s => exact ⟨(Bool.not_eq_true' s).mp h, rfl⟩
  | fin s m =>
    simp only [Quantity.lt, decide_eq_true_eq, magKey, Bool.false_eq_true, if_false] at h
    cases s <;> simp [Quantity.sign, Quantity.isZero] at h ⊢ <;> omega
  | exact q => cases hx

/-- A finite value over positive infinity is finite. -/
theorem div_inf_finite {x : Quantity} (h : x.finite = true) (s : Bool) : (x.div (.inf s)).finite = true := by
  cases x with
  | nan => cases h
  | inf s => cases h
  | fin s m => rfl
  | exact q => rfl

theorem inf_mul_of_pos {x : Quantity} (hf : x.finite = true) (hs : x.sign = false) (hz : x.isZero = false) :
    (Quantity.inf false).mul x = .inf false := by
  cases x with
  | nan => cases hf
  | inf s => cases hf
  | fin s m => simp [Quantity.mul, hs, hz]
  | exact q => simp [Quantity.mul, hs, hz]

/-- Infinity is below no finite value. -/
theorem not_finite_of_inf_le {x : Quantity} (h : (Quantity.inf false).le x = true) : x.finite = false := by
  cases x with
  | nan => rfl
  | inf s => rfl
  | fin s m => cases h
  | exact q => cases h

/-- In rationals the quotient of R92 at a positive frequency is finite. -/
theorem freqQuotient_finite_of_rational {p : Params} {q : ℚ} (hp : p.num = .rational) (hpos : 0 < q) :
    (freqQuotient p (.exact q)).finite = true := by
  have hne : ((2 ^ p.timerBits : Nat) : ℚ) * q ≠ 0 := by positivity
  have e : freqQuotient p (.exact q) = .exact ((p.clockHz : ℚ) / (((2 ^ p.timerBits : Nat) : ℚ) * q)) := by
    rw [freqQuotient, hp]
    exact div_exact hne
  rw [e]
  rfl

/-- In binary32 a quotient of R92 that is not finite is NaN or positive infinity, and NaN where the timer's full count
is infinite: either way it is not within that count. -/
theorem freqQuotient_finite_of_binary32 {p : Params} {f : Quantity} (hp : p.num = .binary32)
    (hd : p.num.has f = true) (hf : f.finite = true) (hpos : (p.num.num 0).lt f = true)
    (h : (freqQuotient p f).le (p.num.num (p.tmax + 1)) = true) : (freqQuotient p f).finite = true := by
  have ht : p.tmax + 1 = 2 ^ p.timerBits := Nat.sub_add_cancel Nat.one_le_two_pow
  have hmulHas := has_mul (has_num p.num (2 ^ p.timerBits)) hd
  have hqHas := has_freqQuotient hd
  rw [ht] at h
  rw [hp] at hd hpos hmulHas hqHas
  obtain ⟨hfs, hfz⟩ := sign_of_pos hd hpos
  have hsign : (freqQuotient p f).sign = false := by
    rw [freqQuotient, hp]
    exact sign_div (has_num _ _) hmulHas (sign_num _) (sign_mul (has_num _ _) hd (sign_num _) hfs)
  obtain e | e | ⟨m, e⟩ := unsigned_cases hqHas hsign
  · rw [e] at h
    cases h
  · obtain hfin | hinf := num_finite_or_inf p.num (2 ^ p.timerBits)
    · rw [e] at h
      exact absurd hfin (Bool.eq_false_iff.1 (not_finite_of_inf_le h))
    · have hq : freqQuotient p f = (p.num.num p.clockHz).div (.inf false) := by
        rw [freqQuotient, hinf, inf_mul_of_pos hf hfs hfz]
      obtain hc | hc := num_finite_or_inf p.num p.clockHz
      · rw [hq]
        exact div_inf_finite hc _
      · rw [hq, hc] at e
        cases e
  · rw [e]
    rfl

/-- A quotient of R92 within the timer's full count is finite. -/
theorem freqQuotient_finite_of_le {p : Params} {f : Quantity} (hd : p.num.has f = true) (hf : f.finite = true)
    (hpos : (p.num.num 0).lt f = true) (h : (freqQuotient p f).le (p.num.num (p.tmax + 1)) = true) :
    (freqQuotient p f).finite = true := by
  cases hp : p.num with
  | binary32 => exact freqQuotient_finite_of_binary32 hp hd hf hpos h
  | rational =>
    rw [hp] at hd hpos
    cases f with
    | nan => cases hf
    | inf s => cases hf
    | fin s m => cases hd
    | exact q =>
      refine freqQuotient_finite_of_rational hp ?_
      simpa using (lt_exact_iff _ _).1 hpos

/-- Settles O13: the two branches of `idleRegs`, the domain of FREQCALC, and the triple of the test vectors' parameters. -/
theorem idleRegisters : Obligations.IdleRegisters := by
  refine ⟨fun p => ⟨fun r h => ?_, fun h => ?_, fun hwf hf hpos hd => ?_⟩, by decide +kernel⟩
  · rw [idleRegs, h]
  · rw [idleRegs, h]
    exact ⟨rfl, rfl, fun h0 h1 => registerValue_cast h0 h1⟩
  · obtain ⟨-, -, -, -, -, hn⟩ := Params.wf_iff.1 hwf
    simp only [Params.numbersOk, Params.numbers, Bool.and_eq_true, List.all_eq_true] at hn
    have hhas : p.num.has p.idleFreqHz = true := hn.1 _ (by simp)
    have key := (freqCalcResult p p.idleFreqHz p.idleDuty hhas).1
    rw [key, not_iff_comm, Bool.not_eq_false]
    exact ⟨fun hle => ⟨hf, hpos, hd, freqQuotient_finite_of_le hhas hf hpos hle, hle⟩, fun ⟨_, _, _, _, hle⟩ => hle⟩

end Sys2Proof
end

section
/-! SUPPORT. Ticks in a row: what one TICK commits in the hysteretic and the PID mode, and the fixed point of a PID
regulator without error (43_pid.md R100 to R102). -/

namespace Sys2Proof

/-! ## Adding zero -/

theorem magValue_eq_zero_of_toRat {s : Bool} {m : Mag} (h : (Quantity.fin s m).toRat = 0) : m.val = 0 := by
  rw [toRat_fin, div_eq_zero_iff] at h
  have hv : signedValue s m = 0 := by exact_mod_cast h.resolve_right (ne_of_gt unit_pos_rat)
  by_contra hm
  have := magValue_pos hm
  unfold signedValue at hv
  split at hv <;> omega

theorem signedValue_zero {s : Bool} {m : Mag} (h : m.val = 0) : signedValue s m = 0 := by
  cases s <;> simp [signedValue, h]

theorem signedValue_natAbs (s : Bool) (m : Mag) : (signedValue s m).natAbs = magValue m := by
  cases s <;> simp [signedValue]

/-- A nonzero binary32 value plus a zero of either sign is the value. -/
theorem add_fin_zero {a b : Bool} {x y : Mag} (hx : x.val ≠ 0) (hy : y.val = 0) :
    (Quantity.fin a x).add (.fin b y) = .fin a x := by
  have hpos := magValue_pos hx
  have hsum : signedValue a x + signedValue b y = signedValue a x := by rw [signedValue_zero hy, Int.add_zero]
  have hne : signedValue a x ≠ 0 := by cases a <;> simp [signedValue] <;> omega
  have hsign : decide (signedValue a x < 0) = a := by cases a <;> simp [signedValue]; omega
  rw [add_fin (by rwa [hsum]), hsum, hsign, signedValue_natAbs, Quantity.round,
    roundMag_exact (m := x.val) Nat.one_pos (by rw [Nat.one_mul]), Quantity.ofMag_lt x.isLt]

theorem add_zeros {a b : Bool} {x y : Mag} (hx : x.val = 0) (hy : y.val = 0) :
    (Quantity.fin a x).add (.fin b y) = .fin (a && b) ⟨0, by decide⟩ :=
  add_fin_of_zero_sum (by rw [signedValue_zero hx, signedValue_zero hy]; rfl)

/-- Adding a zero keeps the value, up to the sign of a zero. -/
theorem add_zero_toRat {x e : Quantity} (hx : x.finite = true) (he : e.finite = true) (h0 : e.toRat = 0) :
    (x.add e).finite = true ∧ (x.add e).toRat = x.toRat := by
  cases x with
  | nan => cases hx
  | inf s => cases hx
  | exact p =>
    cases e with
    | nan => cases he
    | inf s => cases he
    | fin b y => exact ⟨rfl, (congrArg (p + ·) h0).trans (add_zero p)⟩
    | exact q => exact ⟨rfl, (congrArg (p + ·) h0).trans (add_zero p)⟩
  | fin a x =>
    cases e with
    | nan => cases he
    | inf s => cases he
    | exact q => exact ⟨rfl, (congrArg ((Quantity.fin a x).toRat + ·) h0).trans (add_zero _)⟩
    | fin b y =>
      have hy := magValue_eq_zero_of_toRat h0
      by_cases hx0 : x.val = 0
      · rw [add_zeros hx0 hy, toRat_fin_zero, toRat_fin, signedValue_zero hx0]
        exact ⟨rfl, by simp⟩
      · rw [add_fin_zero hx0 hy]
        exact ⟨rfl, rfl⟩

/-- Adding a zero a second time changes nothing, the sign of a zero included. -/
theorem add_zero_add_zero {x e : Quantity} (hx : x.finite = true) (he : e.finite = true) (h0 : e.toRat = 0) :
    (x.add e).add e = x.add e := by
  cases x with
  | nan => cases hx
  | inf s => cases hx
  | exact p =>
    cases e with
    | nan => cases he
    | inf s => cases he
    | fin b y => exact congrArg Quantity.exact ((congrArg (_ + ·) h0).trans (add_zero _))
    | exact q => exact congrArg Quantity.exact ((congrArg (_ + ·) h0).trans (add_zero _))
  | fin a x =>
    cases e with
    | nan => cases he
    | inf s => cases he
    | exact q => exact congrArg Quantity.exact ((congrArg (_ + ·) h0).trans (add_zero _))
    | fin b y =>
      have hy := magValue_eq_zero_of_toRat h0
      by_cases hx0 : x.val = 0
      · rw [add_zeros hx0 hy, add_zeros rfl hy, Bool.and_assoc, Bool.and_self]
      · rw [add_fin_zero hx0 hy, add_fin_zero hx0 hy]

/-! ## Clamping again -/

/-- Finite values with one rational compare alike. -/
theorem lt_congr_toRat {x y : Quantity} (hx : x.finite = true) (hy : y.finite = true) (h : x.toRat = y.toRat)
    (z : Quantity) : x.lt z = y.lt z ∧ z.lt x = z.lt y := by
  have ho : x.order = y.order := by rw [Quantity.order_of_finite hx, Quantity.order_of_finite hy, h]
  have hn : x.isNaN = y.isNaN := by rw [Quantity.isNaN_of_finite hx, Quantity.isNaN_of_finite hy]
  constructor <;> rw [Bool.eq_iff_iff, Quantity.lt_iff, Quantity.lt_iff, ho, hn]

theorem lt_self (x : Quantity) : x.lt x = false :=
  Bool.eq_false_iff.2 fun h => by
    obtain ⟨-, -, h⟩ := Quantity.lt_iff.1 h
    exact lt_irrefl _ h

/-- A clamped sum with a zero, taken again from its own result, is that result. -/
theorem clamp_add_zero_fixed {z e lo hi : Quantity} (hz : z.finite = true) (he : e.finite = true) (h0 : e.toRat = 0)
    (hw : (clamp (z.add e) lo hi).finite = true) :
    clamp ((clamp (z.add e) lo hi).add e) lo hi = clamp (z.add e) lo hi := by
  have again {w : Quantity} (hf : w.finite = true) (y : Quantity) :
      (w.add e).lt y = w.lt y ∧ y.lt (w.add e) = y.lt w := by
    obtain ⟨ha, hv⟩ := add_zero_toRat hf he h0
    exact lt_congr_toRat ha hf hv y
  have at_hi (hf : hi.finite = true) : clamp (hi.add e) lo hi = hi := by
    cases h : lo.lt hi <;> simp [clamp, Quantity.max, Quantity.min, again hf, lt_self, h]
  by_cases h1 : lo.lt (z.add e) = true
  · by_cases h2 : (z.add e).lt hi = true
    · have hc : clamp (z.add e) lo hi = z.add e := by simp [clamp, Quantity.max, Quantity.min, h1, h2]
      rw [hc, add_zero_add_zero hz he h0, hc]
    · have hc : clamp (z.add e) lo hi = hi := by simp [clamp, Quantity.max, Quantity.min, h1, h2]
      rw [hc] at hw ⊢
      exact at_hi hw
  · by_cases h2 : lo.lt hi = true
    · have hc : clamp (z.add e) lo hi = lo := by simp [clamp, Quantity.max, Quantity.min, h1, h2]
      rw [hc] at hw ⊢
      have := (again hw lo).2
      simp [clamp, Quantity.max, Quantity.min, this, lt_self, h2]
    · have hc : clamp (z.add e) lo hi = hi := by simp [clamp, Quantity.max, Quantity.min, h1, h2]
      rw [hc] at hw ⊢
      exact at_hi hw

end Sys2Proof

namespace Sys2Proof.Machine

/-! ## One PID tick -/

/-- What a PID tick leaves: the law's commit, or the record and registers as they were. -/
theorem exec_tick_pid {s t : State} {r r' : PidRec} (h : exec .tick s = .next t) (hr : s.blk.reg = .pid r)
    (hr' : t.blk.reg = .pid r') :
    (∃ c, pidNext s.params.num r s.hw.pwmArr (feedback s).vout = some (r', c) ∧ t.env.outcome = .ok ∧
        t.hw = { s.hw with pwmCcr := registerValue s.params c }) ∨
      (t.env.outcome = .tickNoop ∧ r' = r ∧ t.hw = s.hw) := by
  have ht := (execTick_pid (execTick_eq_next h).running hr).symm.trans h
  cases hn : pidNext s.params.num r s.hw.pwmArr (feedback s).vout with
  | none =>
    rw [hn] at ht
    cases ht
    cases hr'
    exact Or.inr ⟨rfl, rfl, rfl⟩
  | some next =>
    rw [hn] at ht
    cases ht
    cases hr'
    exact Or.inl ⟨next.2, rfl, rfl, rfl⟩

/-- Settles O31: both clamps land in their bounds, and the compare register holds the value of the committed duty. -/
theorem pidTickKeepsBounds : Obligations.PidTickKeepsBounds := by
  rintro s t r r' dom ⟨-, harr, -⟩ hr h hr'
  obtain ⟨c, hn, ho, hhw⟩ | ⟨ho, rfl, hhw⟩ := exec_tick_pid h hr hr'
  · obtain ⟨-, hw, hunit, rfl, hi⟩ := pidNext_spec hn
    refine ⟨fun _ => ⟨fun hb => ?_, hw, ?_, fun hx => ?_⟩, fun hno => ?_⟩
    · rw [hi]
      exact clamp_within_bound hb _
    · rw [hhw]
      exact registerValue_le_tmax _ _
    · rw [hhw]
      exact registerValue_dutyCcr hx harr hunit.1 hunit.2
    · rw [ho] at hno
      cases hno
  · refine ⟨fun hok => ?_, fun _ => ⟨rfl, hhw⟩⟩
    rw [ho] at hok
    cases hok

/-! ## The fixed point of a PID regulator without error -/

/-- A value between zero and zero is a zero. -/
theorem zero_of_le_of_le {dom : NumDomain} {e : Quantity} (h0 : (dom.num 0).le e = true) (h1 : e.le (dom.num 0) = true) :
    e.finite = true ∧ e.toRat = 0 := by
  obtain ⟨hf, hnonneg, -⟩ := within_unit h0 (Quantity.le_trans h1 (num_zero_le_one dom))
  rw [Quantity.le_iff_toRat hf (num_zero dom).1, (num_zero dom).2] at h1
  exact ⟨hf, le_antisymm h1 hnonneg⟩

/-- What a committing tick makes of the integral and the previous error. -/
theorem pidNext_eq_some {dom : NumDomain} {r r' : PidRec} {arr : Nat} {c : Int} {vout : Quantity}
    (h : pidNext dom r arr vout = some (r', c)) :
    r' =
        { r with
          integral := clamp (r.integral.add (r.target.sub vout)) r.maxIntegral.neg r.maxIntegral
          prevError := r.target.sub vout
          duty := r'.duty } ∧
      r'.integral.finite = true := by
  rw [pidNext_eq] at h
  dsimp only at h
  split at h
  · rename_i hok
    obtain ⟨-, hi, -⟩ := hok
    cases h
    exact ⟨rfl, hi⟩
  · cases h

/-- The stored duty has no part in the law, and the stored integral only through the clamped one. -/
theorem pidNext_congr {dom : NumDomain} {r : PidRec} {i d : Quantity} {arr : Nat} {vout : Quantity}
    (h : clamp (i.add (r.target.sub vout)) r.maxIntegral.neg r.maxIntegral =
      clamp (r.integral.add (r.target.sub vout)) r.maxIntegral.neg r.maxIntegral) :
    pidNext dom { r with integral := i, duty := d } arr vout = pidNext dom r arr vout := by
  rw [pidNext_eq, pidNext_eq]
  dsimp only
  rw [h]

/-- Where the error is zero, a second commit is repeated by a third tick. -/
theorem pidNext_fixed {dom : NumDomain} {r r1 r2 : PidRec} {arr : Nat} {c1 c2 : Int} {vout : Quantity}
    (he : (r.target.sub vout).finite = true) (h0 : (r.target.sub vout).toRat = 0)
    (h1 : pidNext dom r arr vout = some (r1, c1)) (h2 : pidNext dom r1 arr vout = some (r2, c2)) :
    pidNext dom r2 arr vout = some (r2, c2) := by
  obtain ⟨e1, hf1⟩ := pidNext_eq_some h1
  obtain ⟨e2, hf2⟩ := pidNext_eq_some h2
  have ht : r1.target = r.target := by rw [e1]
  have hp : r1.target.sub vout = r1.prevError := by rw [ht, e1]
  have hi : r2.integral = clamp (r1.integral.add (r1.target.sub vout)) r1.maxIntegral.neg r1.maxIntegral := by rw [e2]
  have hr2 : r2 = { r1 with integral := r2.integral, duty := r2.duty } := by
    have e : r2 = { r1 with integral := r2.integral, prevError := r1.target.sub vout, duty := r2.duty } := by
      rw [hi]
      exact e2
    rw [hp] at e
    exact e
  rw [hr2, pidNext_congr, h2, ← hr2]
  rw [hi] at hf2 ⊢
  rw [← ht] at he h0
  exact clamp_add_zero_fixed hf1 he h0 hf2

/-- The record a PID tick leaves. -/
def pidRecordAfter (r : PidRec) : Option (PidRec × Int) → PidRec
  | some (r', _) => r'
  | none => r

/-- A PID tick leaves what the next one reads as it was, but for the record. -/
theorem pidTicked_keeps (s : State) (r : PidRec) (next : Option (PidRec × Int)) :
    (pidTicked s r next).params = s.params ∧ feedback (pidTicked s r next) = feedback s ∧
      (pidTicked s r next).hw.ctrlRun = s.hw.ctrlRun ∧ (pidTicked s r next).hw.pwmArr = s.hw.pwmArr ∧
      (pidTicked s r next).blk.reg = .pid (pidRecordAfter r next) := by
  cases next <;> exact ⟨rfl, feedback_congr rfl rfl rfl, rfl, rfl, rfl⟩

/-- A TICK in PID, by the law applied to the record, for a state that agrees with `s` on what the law reads. -/
theorem exec_tick_of_agrees {s t : State} {r : PidRec} (hp : t.params = s.params) (hf : feedback t = feedback s)
    (hc : t.hw.ctrlRun = true) (ha : t.hw.pwmArr = s.hw.pwmArr) (hr : t.blk.reg = .pid r) :
    exec .tick t = .next (pidTicked t r (pidNext s.params.num r s.hw.pwmArr (feedback s).vout)) := by
  rw [← hp, ← hf, ← ha]
  exact execTick_pid hc hr

/-- A commit again of what the last tick committed leaves record and registers. -/
theorem pidTicked_again (s : State) (r r' : PidRec) (next : Option (PidRec × Int))
    (h : pidRecordAfter r next = r') :
    (pidTicked (pidTicked s r next) r' next).blk.reg = (pidTicked s r next).blk.reg ∧
      (pidTicked (pidTicked s r next) r' next).hw = (pidTicked s r next).hw := by
  subst h
  cases next <;> exact ⟨rfl, rfl⟩

/-- The law repeats its second answer where the error is zero. -/
theorem pidNext_third {dom : NumDomain} {r r1 r2 : PidRec} {arr : Nat} {vout : Quantity}
    (he : (r.target.sub vout).finite = true) (h0 : (r.target.sub vout).toRat = 0)
    (h1 : r1 = pidRecordAfter r (pidNext dom r arr vout)) (h2 : r2 = pidRecordAfter r1 (pidNext dom r1 arr vout)) :
    pidNext dom r2 arr vout = pidNext dom r1 arr vout := by
  cases hn1 : pidNext dom r1 arr vout with
  | none =>
    rw [hn1] at h2
    exact (congrArg (pidNext dom · arr vout) h2).trans hn1
  | some next =>
    rw [hn1] at h2
    cases hn : pidNext dom r arr vout with
    | none =>
      rw [hn] at h1
      rw [h1] at hn1
      exact absurd (hn.symm.trans hn1) nofun
    | some first =>
      rw [hn] at h1
      subst h1 h2
      exact pidNext_fixed he h0 hn hn1

/-- Settles O32: three ticks read the same feedback, and the law's third answer is its second. -/
theorem pidZeroErrorFixedPoint : Obligations.PidZeroErrorFixedPoint := by
  intro s r hr hc hle hge
  obtain ⟨he, h0⟩ := zero_of_le_of_le hge hle
  obtain ⟨hp1, hf1, hc1, ha1, hr1⟩ := pidTicked_keeps s r (pidNext s.params.num r s.hw.pwmArr (feedback s).vout)
  generalize ht1 : pidTicked s r (pidNext s.params.num r s.hw.pwmArr (feedback s).vout) = t1 at *
  generalize hr1' : pidRecordAfter r (pidNext s.params.num r s.hw.pwmArr (feedback s).vout) = r1 at *
  have e2 := exec_tick_of_agrees hp1 hf1 (hc1.trans hc) ha1 hr1
  obtain ⟨hp2, hf2, hc2, ha2, hr2⟩ := pidTicked_keeps t1 r1 (pidNext s.params.num r1 s.hw.pwmArr (feedback s).vout)
  have e3 := exec_tick_of_agrees (hp2.trans hp1) (hf2.trans hf1) (hc2.trans (hc1.trans hc)) (ha2.trans ha1) hr2
  rw [pidNext_third he h0 hr1'.symm rfl] at e3
  exact ⟨t1, _, _, ht1 ▸ execTick_pid hc hr, e2, e3, pidTicked_again _ _ _ _ rfl⟩

end Sys2Proof.Machine
end

section
/-! SUPPORT. Rounding as an order fact (00_scope.md R10): the result of an operation on finite values lies on the same
side of every value of the domain as the exact result. -/

namespace Sys2Proof

open Machine

/-! ## What rounding keeps -/

/-- `r` lies on the same side of every finite value of the domain as the exact result `q`, or on it. -/
structure RoundsTo (dom : NumDomain) (q : ℚ) (r : Quantity) : Prop where
  notNaN : r.isNaN = false
  lower : ∀ c : Quantity, dom.has c = true → c.finite = true → c.toRat ≤ q → c.le r = true
  upper : ∀ c : Quantity, dom.has c = true → c.finite = true → q ≤ c.toRat → r.le c = true

theorem roundsTo_of_toRat {dom : NumDomain} {q : ℚ} {r : Quantity} (hr : r.finite = true) (h : r.toRat = q) :
    RoundsTo dom q r where
  notNaN := Quantity.isNaN_of_finite hr
  lower _ _ hc hq := (Quantity.le_iff_toRat hc hr).2 (h ▸ hq)
  upper _ _ hc hq := (Quantity.le_iff_toRat hr hc).2 (h ▸ hq)

/-- `± n` as an integer. -/
def signedNat (neg : Bool) (n : Nat) : Int := if neg then -(n : Int) else n

theorem signedValue_mul (s : Bool) (m : Mag) (d : Nat) : signedValue s m * d = signedNat s (d * magValue m) := by
  cases s <;> simp [signedValue, signedNat, mul_comm]

theorem eq_zero_of_mul_magValue {m : Mag} {d : Nat} (hd : 0 < d) (h : d * magValue m = 0) : m.val = 0 := by
  by_contra hm
  exact absurd h (Nat.pos_iff_ne_zero.1 (Nat.mul_pos hd (magValue_pos hm)))

theorem magKey_le_roundKey {s neg : Bool} {m : Mag} {n d : Nat} (hd : 0 < d)
    (h : signedValue s m * d ≤ signedNat neg n) : magKey s m ≤ roundKey neg n d := by
  rw [signedValue_mul] at h
  have hlo : d * magValue m ≤ n → m.val ≤ roundMag n d := le_roundMag hd
  have hhi : n ≤ d * magValue m → roundMag n d ≤ m.val := roundMag_le hd
  have h0 : d * magValue m = 0 → m.val = 0 := eq_zero_of_mul_magValue hd
  have hz : n = 0 → roundMag n d = 0 := fun e => by rw [e, roundMag_zero]
  unfold magKey roundKey
  generalize d * magValue m = v at *
  generalize m.val = k at *
  generalize roundMag n d = r at *
  cases s <;> cases neg <;> simp [signedNat] at h ⊢ <;> omega

theorem roundKey_le_magKey {s neg : Bool} {m : Mag} {n d : Nat} (hd : 0 < d)
    (h : signedNat neg n ≤ signedValue s m * d) : roundKey neg n d ≤ magKey s m := by
  rw [signedValue_mul] at h
  have hlo : d * magValue m ≤ n → m.val ≤ roundMag n d := le_roundMag hd
  have hhi : n ≤ d * magValue m → roundMag n d ≤ m.val := roundMag_le hd
  have h0 : d * magValue m = 0 → m.val = 0 := eq_zero_of_mul_magValue hd
  have hz : n = 0 → roundMag n d = 0 := fun e => by rw [e, roundMag_zero]
  unfold magKey roundKey
  generalize d * magValue m = v at *
  generalize m.val = k at *
  generalize roundMag n d = r at *
  cases s <;> cases neg <;> simp [signedNat] at h ⊢ <;> omega

/-- The rational `± n / d` units. -/
def signedQuotient (neg : Bool) (n d : Nat) : ℚ := (signedNat neg n : ℚ) / (d * unit)

theorem eq_fin_of_has {c : Quantity} (hb : NumDomain.binary32.has c = true) (hf : c.finite = true) :
    ∃ s m, c = .fin s m := by
  cases c with
  | fin s m => exact ⟨s, m, rfl⟩
  | exact q => cases hb
  | inf s => cases hf
  | nan => cases hf

theorem toRat_fin_mul (s : Bool) (m : Mag) {d : Nat} (hd : 0 < d) :
    (Quantity.fin s m).toRat = ((signedValue s m * d : Int) : ℚ) / (d * unit) := by
  have hd' : (d : ℚ) ≠ 0 := Nat.cast_ne_zero.2 (Nat.pos_iff_ne_zero.1 hd)
  have hu := ne_of_gt unit_pos_rat
  rw [toRat_fin]
  push_cast
  field_simp

theorem roundsTo_round {n d : Nat} (neg : Bool) (hd : 0 < d) :
    RoundsTo .binary32 (signedQuotient neg n d) (Quantity.round neg n d) where
  notNaN := round_isNaN neg n d
  lower c hb hf hq := by
    obtain ⟨s, m, rfl⟩ := eq_fin_of_has hb hf
    have hpos : (0 : ℚ) < d * unit := mul_pos (Nat.cast_pos.2 hd) unit_pos_rat
    rw [toRat_fin_mul s m hd, signedQuotient, div_le_div_iff_of_pos_right hpos, Int.cast_le] at hq
    exact fin_le_round.2 (magKey_le_roundKey hd hq)
  upper c hb hf hq := by
    obtain ⟨s, m, rfl⟩ := eq_fin_of_has hb hf
    have hpos : (0 : ℚ) < d * unit := mul_pos (Nat.cast_pos.2 hd) unit_pos_rat
    rw [toRat_fin_mul s m hd, signedQuotient, div_le_div_iff_of_pos_right hpos, Int.cast_le] at hq
    exact round_le_fin.2 (roundKey_le_magKey hd hq)

/-! ## The operations -/

/-- Finite values of a domain are of its own kind. -/
theorem finite_cases {dom : NumDomain} {x : Quantity} (hd : dom.has x = true) (hf : x.finite = true) :
    (dom = .binary32 ∧ ∃ s m, x = .fin s m) ∨ (dom = .rational ∧ ∃ q, x = .exact q) := by
  cases x with
  | nan => cases hf
  | inf s => cases hf
  | fin s m => exact Or.inl ⟨by simpa using hd, s, m, rfl⟩
  | exact q => exact Or.inr ⟨by simpa using hd, q, rfl⟩

theorem signedNat_natAbs (z : Int) : signedNat (decide (z < 0)) z.natAbs = z := by
  by_cases h : z < 0
  · rw [signedNat, if_pos (decide_eq_true h)]
    omega
  · rw [signedNat, if_neg (by simpa using h)]
    omega

theorem signedNat_xor (a b : Bool) (m n : Nat) : signedNat (a ^^ b) (m * n) = signedNat a m * signedNat b n := by
  cases a <;> cases b <;> simp [signedNat]

section
variable {dom : NumDomain} {x y : Quantity} (hdx : dom.has x = true) (hdy : dom.has y = true) (hx : x.finite = true)
  (hy : y.finite = true)
include hdx hdy hx hy

theorem roundsTo_add : RoundsTo dom (x.toRat + y.toRat) (x.add y) := by
  obtain ⟨rfl, s, m, rfl⟩ | ⟨rfl, p, rfl⟩ := finite_cases hdx hx
  · obtain ⟨-, t, n, rfl⟩ | ⟨h, -⟩ := finite_cases hdy hy
    · by_cases h : signedValue s m + signedValue t n = 0
      · refine roundsTo_of_toRat (by rw [add_fin_of_zero_sum h]; rfl) ?_
        rw [add_fin_of_zero_sum h, toRat_fin_zero, toRat_fin, toRat_fin, ← add_div, ← Int.cast_add, h]
        simp
      · have hr := roundsTo_round (decide (signedValue s m + signedValue t n < 0))
          (n := (signedValue s m + signedValue t n).natAbs) Nat.one_pos
        rw [signedQuotient, signedNat_natAbs] at hr
        rw [add_fin h, toRat_fin, toRat_fin, ← add_div, ← Int.cast_add]
        simpa using hr
    · cases h
  · obtain ⟨h, -⟩ | ⟨-, q, rfl⟩ := finite_cases hdy hy
    · cases h
    · exact roundsTo_of_toRat rfl rfl

theorem roundsTo_mul : RoundsTo dom (x.toRat * y.toRat) (x.mul y) := by
  obtain ⟨rfl, s, m, rfl⟩ | ⟨rfl, p, rfl⟩ := finite_cases hdx hx
  · obtain ⟨-, t, n, rfl⟩ | ⟨h, -⟩ := finite_cases hdy hy
    · have hr := roundsTo_round (s ^^ t) (n := magValue m * magValue n) unit_pos
      rw [signedQuotient, signedNat_xor, Int.cast_mul, mul_div_mul_comm] at hr
      rw [mul_fin, toRat_fin, toRat_fin]
      exact hr
    · cases h
  · obtain ⟨h, -⟩ | ⟨-, q, rfl⟩ := finite_cases hdy hy
    · cases h
    · exact roundsTo_of_toRat rfl rfl

theorem roundsTo_div (h0 : y.toRat ≠ 0) : RoundsTo dom (x.toRat / y.toRat) (x.div y) := by
  obtain ⟨rfl, s, m, rfl⟩ | ⟨rfl, p, rfl⟩ := finite_cases hdx hx
  · obtain ⟨-, t, n, rfl⟩ | ⟨h, -⟩ := finite_cases hdy hy
    · have hn : n.val ≠ 0 := fun h => h0 (by rw [toRat_fin, signedValue_zero h]; simp)
      have hr := roundsTo_round (s ^^ t) (n := magValue m * unit) (magValue_pos hn)
      have e : signedQuotient (s ^^ t) (magValue m * unit) (magValue n) =
          (Quantity.fin s m).toRat / (Quantity.fin t n).toRat := by
        have hv : ((magValue n : Nat) : ℚ) ≠ 0 := Nat.cast_ne_zero.2 (Nat.pos_iff_ne_zero.1 (magValue_pos hn))
        have hu := ne_of_gt unit_pos_rat
        rw [toRat_fin, toRat_fin]
        cases s <;> cases t <;> simp [signedQuotient, signedNat, signedValue] <;> field_simp
      rw [div_fin hn, ← e]
      exact hr
    · cases h
  · obtain ⟨h, -⟩ | ⟨-, q, rfl⟩ := finite_cases hdy hy
    · cases h
    · rw [div_exact (show q ≠ 0 from h0)]
      exact roundsTo_of_toRat rfl rfl

end

end Sys2Proof
end

section
/-! SUPPORT. Bounds of the feedback and of the hysteretic regulator (41_control_tick.md R90, 42_hysteretic.md R97, R98). -/

namespace Sys2Proof.Machine

/-! ## The raw average (R90) -/

theorem windowSum_le (s : State) (base : Int) (c n : Nat) : windowSum s base c n ≤ 65535 * n := by
  induction n with
  | zero => exact Nat.le_refl 0
  | succ n ih =>
    have := (ringRead s (base - ((n : Int) + 1) * (s.params.channels : Int) + (c : Int))).isLt
    rw [windowSum]
    omega

/-- A value that an exact result in `[lo, hi]` rounds to lies there, for bounds of the domain. -/
theorem within_of_roundsTo {dom : NumDomain} {q : ℚ} {x lo hi : Quantity} (h : RoundsTo dom q x)
    (hlo : dom.has lo = true) (hhi : dom.has hi = true) (flo : lo.finite = true) (fhi : hi.finite = true)
    (h0 : lo.toRat ≤ q) (h1 : q ≤ hi.toRat) : Within lo x hi :=
  ⟨h.lower lo hlo flo h0, h.upper hi hhi fhi h1⟩

/-- Settles O23: sum and window are exact, their quotient lies between two values of the domain, and rounds there. -/
theorem averageIsASampleValue : Obligations.AverageIsASampleValue := by
  intro s hw hx
  have hsum := windowSum_le s (frameBase s : Int) 0 s.params.window
  have small {n : Nat} (h : n ≤ 65535 * s.params.window) : s.params.num = .rational ∨ n < 2 ^ 24 :=
    hx.imp_right fun h256 => by omega
  obtain ⟨hsf, hsv⟩ := num_exact (small hsum)
  obtain ⟨hwf, hwv⟩ := num_exact (small (n := s.params.window) (by omega))
  obtain ⟨hcf, hcv⟩ := num_exact (dom := s.params.num) (n := 65535) (Or.inr (by decide))
  have hpos : (0 : ℚ) < s.params.window := by exact_mod_cast hw
  refine within_of_roundsTo
    (roundsTo_div (has_num _ _) (has_num _ _) hsf hwf (by rw [hwv]; exact ne_of_gt hpos))
    (has_num _ _) (has_num _ _) (num_zero _).1 hcf ?_ ?_
  · rw [hsv, hwv, (num_zero _).2]
    positivity
  · rw [hsv, hwv, hcv, div_le_iff₀ hpos]
    exact_mod_cast hsum

/-! ## One hysteretic tick -/

/-- What a hysteretic tick leaves: the law's commit, or the record and registers as they were. -/
theorem exec_tick_hyst {s t : State} {r r' : HystRec} (h : exec .tick s = .next t) (hr : s.blk.reg = .hyst r)
    (hr' : t.blk.reg = .hyst r') :
    (∃ c, hystNext s.params.num r s.hw.pwmArr (feedback s).vout = some (r', c) ∧ t.env.outcome = .ok ∧
        t.hw = { s.hw with pwmCcr := registerValue s.params c }) ∨
      (t.env.outcome = .tickNoop ∧ r' = r ∧ t.hw = s.hw) := by
  have ht := (execTick_hyst (execTick_eq_next h).running hr).symm.trans h
  cases hn : hystNext s.params.num r s.hw.pwmArr (feedback s).vout with
  | none =>
    rw [hn] at ht
    cases ht
    cases hr'
    exact Or.inr ⟨rfl, rfl, rfl⟩
  | some next =>
    rw [hn] at ht
    cases ht
    cases hr'
    exact Or.inl ⟨next.2, rfl, rfl, rfl⟩

/-! ## Monotonicity (R98) -/

theorem le_of_not_lt {a b : Quantity} (ha : a.isNaN = false) (hb : b.isNaN = false) (h : ¬a.lt b = true) :
    b.le a = true := by simp [Quantity.le, ha, hb, Bool.eq_false_iff.2 h]

theorem isNaN_of_le {a b : Quantity} (h : a.le b = true) : a.isNaN = false ∧ b.isNaN = false := by
  obtain ⟨ha, hb, -⟩ := Quantity.le_iff.1 h
  exact ⟨ha, hb⟩

/-- A clamped value is below what the value and the lower bound are below. -/
theorem clamp_le {x lo hi y : Quantity} (hx : x.le y = true) (hlo : lo.le y = true) (hb : lo.le hi = true) :
    (clamp x lo hi).le y = true := by
  have hm : (x.max lo).le y = true := by
    unfold Quantity.max
    split <;> assumption
  unfold clamp Quantity.min
  split
  · exact hm
  · exact Quantity.le_trans (le_of_not_lt (isNaN_of_le hm).1 (isNaN_of_le hb).2 ‹_›) hm

/-- A clamped value is above what the value and the upper bound are above. -/
theorem le_clamp {x lo hi y : Quantity} (hx : y.le x = true) (hhi : y.le hi = true) (hb : lo.le hi = true) :
    y.le (clamp x lo hi) = true := by
  have hm : y.le (x.max lo) = true := by
    unfold Quantity.max
    split
    · exact hx
    · exact Quantity.le_trans hx (le_of_not_lt (isNaN_of_le hb).1 (isNaN_of_le hx).2 ‹_›)
  unfold clamp Quantity.min
  split <;> assumption

/-- The duty stepped down is not above it, the duty stepped up is not below it. -/
theorem sub_le_self {dom : NumDomain} {d x : Quantity} (hd : dom.has d = true) (hx : dom.has x = true)
    (fd : d.finite = true) (fx : x.finite = true) (h0 : (dom.num 0).le x = true) : (d.sub x).le d = true := by
  rw [zero_le_iff fx] at h0
  refine (roundsTo_add hd (has_neg hx) fd (by simpa using fx)).upper d hd fd ?_
  rw [toRat_neg]
  linarith

theorem self_le_add {dom : NumDomain} {d x : Quantity} (hd : dom.has d = true) (hx : dom.has x = true)
    (fd : d.finite = true) (fx : x.finite = true) (h0 : (dom.num 0).le x = true) : d.le (d.add x) = true := by
  rw [zero_le_iff fx] at h0
  refine (roundsTo_add hd hx fd fx).lower d hd fd ?_
  linarith

theorem div_inf_zero {x : Quantity} (h : x.finite = true) (s : Bool) :
    (x.div (.inf s)).finite = true ∧ (x.div (.inf s)).toRat = 0 := by
  cases x with
  | nan => cases h
  | inf s => cases h
  | fin t m => exact ⟨rfl, toRat_fin_zero _⟩
  | exact q => exact ⟨rfl, rfl⟩

/-- A maximum compare value that a duty's compare value passes is a smaller duty (R97's rescaling). -/
theorem rescaled_le {dom : NumDomain} {limit : Half} {arr : Nat} {d : Quantity} (hd : dom.has d = true)
    (hw : Within (dom.num 0) d (dom.num 1)) (h : (limit.toNat : Int) < dutyCcr dom arr d) :
    ((dom.num limit.toNat).div (dom.num arr)).le d = true := by
  obtain ⟨fd, d0, d1⟩ := within_unit hw.1 hw.2
  obtain ⟨fl, hl⟩ := num_exact (dom := dom) (n := limit.toNat) (Or.inr (Nat.lt_of_lt_of_le limit.isLt (by decide)))
  obtain fa | ha := num_finite_or_inf dom arr
  · have hlt : (limit.toNat : ℚ) < (dom.num arr).toRat * d.toRat := by
      by_contra hle
      have hle' : (dom.num arr).toRat * d.toRat ≤ (dom.num limit.toNat).toRat := by rw [hl]; exact not_lt.1 hle
      obtain ⟨fm, -, -⟩ := mul_duty fa (num_nonneg dom arr) fd d0 d1
      have hp := (roundsTo_mul (has_num dom arr) hd fa fd).upper _ (has_num dom _) fl hle'
      rw [Quantity.le_iff_toRat fm fl, hl] at hp
      have := roundI_le fm hp
      unfold dutyCcr at h
      omega
    have hpos : 0 < (dom.num arr).toRat :=
      lt_of_le_of_lt (Nat.cast_nonneg _) (limit_lt_of_lt_dutyCcr fa hw.1 hw.2 h)
    refine (roundsTo_div (has_num dom _) (has_num dom _) fl fa (ne_of_gt hpos)).upper d hd fd ?_
    rw [hl, div_le_iff₀ hpos, mul_comm]
    exact hlt.le
  · obtain ⟨fq, hq⟩ := div_inf_zero fl false
    rw [ha, Quantity.le_iff_toRat fq fd, hq]
    exact d0

theorem hystStep_below {r : HystRec} {vout : Quantity} (h : vout.lt r.target = true) :
    hystStep r vout = r.duty.add r.step := if_pos h

theorem hystStep_above {r : HystRec} {vout : Quantity} (h : r.target.lt vout = true) :
    hystStep r vout = r.duty.sub r.step := by
  have hn : ¬vout.lt r.target = true := fun h' => by
    obtain ⟨-, -, h1⟩ := Quantity.lt_iff.1 h
    obtain ⟨-, -, h2⟩ := Quantity.lt_iff.1 h'
    exact lt_asymm h1 h2
  rw [hystStep, if_neg hn, if_pos h]

section
variable {dom : NumDomain} {r : HystRec} {arr : Nat} {vout : Quantity} (hd : dom.has r.duty = true)
  (hs : dom.has r.step = true) (hw : Within (dom.num 0) r.duty (dom.num 1)) (fs : r.step.finite = true)
  (h0 : (dom.num 0).le r.step = true)
include hd hs hw fs h0

/-- Above the target the committed duty is not above the one before. -/
theorem hystDuty_le (h : r.target.lt vout = true) : (hystDuty dom r arr vout).le r.duty = true := by
  obtain ⟨fd, -, -⟩ := within_unit hw.1 hw.2
  have hc : (hystClamped dom r vout).le r.duty = true := by
    rw [hystClamped, hystStep_above h]
    exact clamp_le (sub_le_self hd hs fd fs h0) hw.1 (num_zero_le_one dom)
  unfold hystDuty
  split
  · exact Quantity.le_trans
      (rescaled_le (has_hystClamped hd hs) (clamp_within _ (num_zero_le_one dom)) ‹_›) hc
  · exact hc

/-- Below the target the committed duty is not below the one before, where the maximum compare value cannot bind. -/
theorem le_hystDuty (harr : arr ≤ r.maxCompare.toNat) (h : vout.lt r.target = true) :
    r.duty.le (hystDuty dom r arr vout) = true := by
  obtain ⟨fd, -, -⟩ := within_unit hw.1 hw.2
  have hlim := r.maxCompare.isLt
  obtain ⟨hw0, hw1⟩ := clamp_within (hystStep r vout) (num_zero_le_one dom)
  obtain ⟨-, hle⟩ := dutyCcr_range (dom := dom) (arr := arr) (Or.inr (by omega)) hw0 hw1
  rw [hystDuty, if_neg (by unfold hystClamped; omega), hystClamped, hystStep_below h]
  exact le_clamp (self_le_add hd hs fd fs h0) hw.2 (num_zero_le_one dom)

end

/-- Settles O29: stepping, clamping and rescaling each keep the duty's side of the one before. -/
theorem hystereticDutyMonotone : Obligations.HystereticDutyMonotone := by
  intro s t r r' hdom hrec hr fs h0 h hr'
  have hw : Within (s.params.num.num 0) r.duty (s.params.num.num 1) := by
    rw [RecordInRange, hr] at hrec
    exact hrec
  have hnums := hdom.record
  rw [hr] at hnums
  have hd : s.params.num.has r.duty = true := hnums _ (by simp [recordNumbers])
  have hs : s.params.num.has r.step = true := hnums _ (by simp [recordNumbers])
  obtain ⟨c, hn, -, -⟩ | ⟨-, rfl, -⟩ := exec_tick_hyst h hr hr'
  · obtain ⟨-, -, rfl, -⟩ := hystNext_eq_some hn
    exact ⟨hystDuty_le hd hs hw fs h0, le_hystDuty hd hs hw fs h0⟩
  · have hrefl := Quantity.le_refl (isNaN_of_le hw.1).2
    exact ⟨fun _ => hrefl, fun _ _ => hrefl⟩

/-! ## The compare value of a rescaled duty (R97) -/

/-- `roundI` of a finite value lies within one half of it. -/
theorem roundI_near {x : Quantity} (h : x.finite = true) : |x.toRat - roundI x| ≤ 1 / 2 := by
  cases x with
  | nan => cases h
  | inf s => cases h
  | exact q => exact (roundI_exact_spec q).1
  | fin s m =>
    have hu := unit_pos_rat
    have hspec : |2 * ((signedValue s m : ℚ) - roundI (.fin s m) * unit)| ≤ unit := by
      have := (roundI_fin_spec s m).1
      rw [← Int.ofNat_le, Int.natCast_natAbs] at this
      exact_mod_cast this
    have e : (Quantity.fin s m).toRat - roundI (.fin s m) =
        (2 * ((signedValue s m : ℚ) - roundI (.fin s m) * unit)) / (2 * unit) := by
      rw [toRat_fin]
      field_simp
    rw [e, abs_div, abs_of_pos (by linarith : (0 : ℚ) < 2 * unit), div_le_div_iff₀ (by linarith) two_pos]
    linarith

/-- A value within a quarter of an integer rounds to it. -/
theorem roundI_eq_of_near {x : Quantity} {n : Int} (h : x.finite = true) (hn : |x.toRat - n| ≤ 1 / 4) : roundI x = n := by
  have hr := roundI_near h
  rw [abs_le] at hr hn
  obtain ⟨hr0, hr1⟩ := hr
  obtain ⟨hn0, hn1⟩ := hn
  have h1 : (roundI x : ℚ) < n + 1 := by linarith
  have h2 : (n : ℚ) < roundI x + 1 := by linarith
  have h1' : roundI x < n + 1 := by exact_mod_cast h1
  have h2' : n < roundI x + 1 := by exact_mod_cast h2
  omega

theorem magValue_add_exponent {m : Nat} (k : Nat) (h : 2 ^ 23 ≤ m) : magValue (m + k * 2 ^ 23) = magValue m * 2 ^ k := by
  have e : (m + k * 2 ^ 23) / 2 ^ 23 - 1 = (m / 2 ^ 23 - 1) + k := by omega
  rw [magValue, magValue, if_neg (by omega), if_neg (by omega), e, Nat.pow_add, Nat.add_mul_mod_self_right, Nat.mul_assoc]

/-- A fraction of fewer than 2^24 parts, each 2^-k, is a value of either domain. -/
theorem exists_dyadic (dom : NumDomain) {n k : Nat} (hn : n < 2 ^ 24) (hk : k ≤ 125) :
    ∃ c : Quantity, dom.has c = true ∧ c.finite = true ∧ c.toRat = n / 2 ^ k := by
  cases dom with
  | rational => exact ⟨.exact (n / 2 ^ k), rfl, rfl, rfl⟩
  | binary32 =>
    obtain rfl | hpos := Nat.eq_zero_or_pos n
    · exact ⟨.fin false ⟨0, by decide⟩, rfl, rfl, by rw [toRat_fin_zero]; simp⟩
    · obtain ⟨m, -, hm⟩ := Quantity.ofNat_exact hn
      have hbig : 0x3F800000 ≤ m.val := by
        rw [← magValue_le_iff, magValue_one, hm]
        exact Nat.le_mul_of_pos_left _ hpos
      have hv : magValue (m.val - k * 2 ^ 23) * 2 ^ k = n * unit := by
        rw [← magValue_add_exponent k (by omega), Nat.sub_add_cancel (by omega), hm]
      refine ⟨.fin false ⟨m.val - k * 2 ^ 23, by have := m.isLt; omega⟩, rfl, rfl, ?_⟩
      have hv' : (magValue (m.val - k * 2 ^ 23) : ℚ) * 2 ^ k = n * unit := by exact_mod_cast hv
      rw [toRat_fin, div_eq_div_iff (ne_of_gt unit_pos_rat) (by positivity)]
      exact hv'

section
variable {dom : NumDomain} {limit arr : Nat} (hlt : limit < arr) (harr : arr ≤ 65535)
include hlt harr

/-- The rounded ratio of two integers below 2^16 times the larger one is within a quarter of the smaller one. -/
theorem ratio_near : |(arr : ℚ) * ((dom.num limit).div (dom.num arr)).toRat - limit| ≤ 1 / 4 := by
  obtain ⟨fl, hl⟩ := num_exact (dom := dom) (n := limit) (Or.inr (by omega))
  obtain ⟨fa, ha⟩ := num_exact (dom := dom) (n := arr) (Or.inr (by omega))
  have hpos : (0 : ℚ) < arr := by exact_mod_cast Nat.lt_of_le_of_lt (Nat.zero_le _) hlt
  have hr := roundsTo_div (has_num dom limit) (has_num dom arr) fl fa (by rw [ha]; exact ne_of_gt hpos)
  obtain ⟨fd, -, -⟩ := div_ratio fl fa (num_nonneg dom _) (by rw [hl, ha]; exact_mod_cast hlt)
  generalize (dom.num limit).div (dom.num arr) = d at *
  rw [hl, ha] at hr
  have hdiv := Nat.div_add_mod (limit * 2 ^ 23) arr
  have hmod := Nat.mod_lt (limit * 2 ^ 23) (by omega : 0 < arr)
  have hk : limit * 2 ^ 23 / arr < 2 ^ 23 := Nat.div_lt_of_lt_mul (by omega)
  generalize limit * 2 ^ 23 / arr = k at *
  have hlo : (arr : ℚ) * k ≤ limit * 2 ^ 23 := by exact_mod_cast (show arr * k ≤ limit * 2 ^ 23 by omega)
  have hhi : (limit : ℚ) * 2 ^ 23 ≤ arr * (k + 1) := by
    exact_mod_cast (show limit * 2 ^ 23 ≤ arr * (k + 1) by rw [Nat.mul_succ]; omega)
  obtain ⟨c, hc, fc, ec⟩ := exists_dyadic dom (n := k) (k := 23) (by omega) (by decide)
  obtain ⟨c', hc', fc', ec'⟩ := exists_dyadic dom (n := k + 1) (k := 23) (by omega) (by decide)
  have h1 := (Quantity.le_iff_toRat fc fd).1 (hr.lower c hc fc (by rw [ec, div_le_div_iff₀ (by positivity) hpos]; linarith))
  have h2 := (Quantity.le_iff_toRat fd fc').1
    (hr.upper c' hc' fc' (by rw [ec', div_le_div_iff₀ hpos (by positivity)]; push_cast; linarith))
  rw [ec, div_le_iff₀ (by positivity)] at h1
  rw [ec', le_div_iff₀ (by positivity)] at h2
  push_cast at h2
  have hsmall : (arr : ℚ) ≤ 65535 := by exact_mod_cast harr
  have h1' := mul_le_mul_of_nonneg_left h1 hpos.le
  have h2' := mul_le_mul_of_nonneg_left h2 hpos.le
  rw [abs_le]
  constructor <;> linarith

/-- A maximum compare value below a reload of at most 16 bits comes back from the duty it is rescaled to. -/
theorem dutyCcr_ratio : dutyCcr dom arr ((dom.num limit).div (dom.num arr)) = limit := by
  have hnear := ratio_near (dom := dom) hlt harr
  obtain ⟨fl, hl⟩ := num_exact (dom := dom) (n := limit) (Or.inr (by omega))
  obtain ⟨fa, ha⟩ := num_exact (dom := dom) (n := arr) (Or.inr (by omega))
  obtain ⟨fd, d0, d1⟩ := div_ratio fl fa (num_nonneg dom _) (by rw [hl, ha]; exact_mod_cast hlt)
  have hd := has_div (has_num dom limit) (has_num dom arr)
  generalize (dom.num limit).div (dom.num arr) = d at *
  obtain ⟨fm, m0, -⟩ := mul_duty fa (num_nonneg dom arr) fd d0 d1
  have hr := roundsTo_mul (has_num dom arr) hd fa fd
  rw [ha] at hr
  unfold dutyCcr
  generalize (dom.num arr).mul d = x at *
  rw [abs_le] at hnear
  obtain ⟨hn0, hn1⟩ := hnear
  have hlo : (limit : ℚ) - 1 / 4 ≤ x.toRat := by
    obtain rfl | hpos := Nat.eq_zero_or_pos limit
    · push_cast
      linarith
    · obtain ⟨c, hc, fc, ec⟩ := exists_dyadic dom (n := 4 * limit - 1) (k := 2) (by omega) (by decide)
      rw [Nat.cast_sub (by omega)] at ec
      push_cast at ec
      have := (Quantity.le_iff_toRat fc fm).1 (hr.lower c hc fc (by linarith))
      linarith
  have hhi : x.toRat ≤ limit + 1 / 4 := by
    obtain ⟨c, hc, fc, ec⟩ := exists_dyadic dom (n := 4 * limit + 1) (k := 2) (by omega) (by decide)
    push_cast at ec
    have := (Quantity.le_iff_toRat fm fc).1 (hr.upper c hc fc (by linarith))
    linarith
  refine roundI_eq_of_near fm ?_
  rw [Int.cast_natCast, abs_le]
  constructor <;> linarith

end

/-! ## Bounds after a committed tick (R97) -/

/-- The committed compare value lies between 0 and the reload, at any width of the reload. -/
theorem hystCompare_range {dom : NumDomain} {r : HystRec} {arr : Nat} {vout : Quantity}
    (fa : (dom.num arr).finite = true) :
    0 ≤ hystCompare dom r arr vout ∧ hystCompare dom r arr vout ≤ arr ∧
      hystCompare dom r arr vout ≤ r.maxCompare.toNat := by
  obtain ⟨hw0, hw1⟩ := clamp_within (hystStep r vout) (num_zero_le_one dom)
  obtain ⟨fd, d0, d1⟩ := within_unit hw0 hw1
  obtain ⟨fm, m0, -⟩ := mul_duty fa (num_nonneg dom arr) fd d0 d1
  have h0 : 0 ≤ dutyCcr dom arr (hystClamped dom r vout) := roundI_nonneg fm m0
  have hlim := r.maxCompare.isLt
  have hle : arr < 2 ^ 24 → dutyCcr dom arr (hystClamped dom r vout) ≤ arr :=
    fun ha => (dutyCcr_range (Or.inr ha) hw0 hw1).2
  unfold hystCompare
  omega

/-- Where the maximum compare value binds, its value and the rescaled duty are what a tick commits. -/
theorem hystDuty_of_ne {dom : NumDomain} {r : HystRec} {arr : Nat} {vout : Quantity}
    (h : hystDuty dom r arr vout ≠ hystClamped dom r vout) :
    (r.maxCompare.toNat : Int) < dutyCcr dom arr (hystClamped dom r vout) ∧
      hystDuty dom r arr vout = (dom.num r.maxCompare.toNat).div (dom.num arr) ∧
      hystCompare dom r arr vout = r.maxCompare.toNat := by
  have hb : (r.maxCompare.toNat : Int) < dutyCcr dom arr (hystClamped dom r vout) := by
    by_contra hn
    exact h (if_neg hn)
  exact ⟨hb, if_pos hb, Int.min_eq_right hb.le⟩

/-- Settles O27: the compare value is a bounded one that its register holds, and where the maximum bound, the rescaled
duty's product with the reload is within a quarter of it. -/
theorem hystereticTickKeepsBounds : Obligations.HystereticTickKeepsBounds := by
  rintro s t r r' dom ⟨-, harr, -⟩ fa hr h hr' hok
  obtain ⟨c, hn, -, hhw⟩ | ⟨hno, -, -⟩ := exec_tick_hyst h hr hr'
  · obtain ⟨-, hw, -, -⟩ := hystNext_spec hn
    obtain ⟨-, -, rfl, rfl⟩ := hystNext_eq_some hn
    obtain ⟨h0, hle, hlim⟩ := hystCompare_range (dom := s.params.num) (r := r) (vout := (feedback s).vout) fa
    have hccr : (t.hw.pwmCcr : Int) = hystCompare s.params.num r s.hw.pwmArr (feedback s).vout := by
      rw [hhw]
      exact registerValue_cast h0 (by omega)
    refine ⟨hw, by omega, fun hne => ?_⟩
    obtain ⟨hb, hd, hc⟩ := hystDuty_of_ne hne
    refine ⟨hd, by omega, fun hsmall => ?_⟩
    obtain ⟨hw0, hw1⟩ := clamp_within (hystStep r (feedback s).vout) (num_zero_le_one s.params.num)
    have hcle := (dutyCcr_range (dom := s.params.num) (arr := s.hw.pwmArr) (Or.inr (by omega)) hw0 hw1).2
    exact (congrArg (dutyCcr s.params.num s.hw.pwmArr) hd).trans (dutyCcr_ratio (by unfold hystClamped at hb; omega) hsmall)
  · rw [hok] at hno
    cases hno

end Sys2Proof.Machine
end

section
/-! SUPPORT. Signs of results, in either domain and across them, and the moving statistic (44_cot.md R104). -/

namespace Sys2Proof

open Machine

/-! ## Values that are not negative -/

/-- `x` is NaN or not below zero. -/
def NotNegative : Quantity → Prop
  | .nan => True
  | .inf s => s = false
  | .fin s m => 0 ≤ (Quantity.fin s m).toRat
  | .exact q => 0 ≤ q

theorem notNegative_iff_of_finite {x : Quantity} (h : x.finite = true) : NotNegative x ↔ 0 ≤ x.toRat := by
  cases x with
  | nan => cases h
  | inf s => cases h
  | fin s m => exact Iff.rfl
  | exact q => exact Iff.rfl

theorem notNegative_of_zero_le {dom : NumDomain} {x : Quantity} (h : (dom.num 0).le x = true) : NotNegative x := by
  obtain hf | rfl := finite_or_inf_of_nonneg h
  · exact (notNegative_iff_of_finite hf).2 ((zero_le_iff hf).1 h)
  · rfl

theorem notNegative_or_neg (x : Quantity) : NotNegative x ∨ NotNegative x.neg := by
  cases x with
  | nan => exact Or.inl trivial
  | inf s =>
    cases s
    · exact Or.inl rfl
    · exact Or.inr rfl
  | fin s m =>
    refine (le_total 0 (Quantity.fin s m).toRat).imp id fun h => ?_
    rw [notNegative_iff_of_finite (by rfl), toRat_neg]
    exact neg_nonneg.2 h
  | exact q => exact (le_total 0 q).imp id neg_nonneg.2

theorem fin_notNegative_iff {s : Bool} {m : Mag} : NotNegative (.fin s m) ↔ s = false ∨ m.val = 0 := by
  rw [notNegative_iff_of_finite rfl, toRat_fin, le_div_iff₀ unit_pos_rat, zero_mul, Int.cast_nonneg_iff]
  have := @magValue_pos m.val
  have h0 : m.val = 0 → magValue m = 0 := fun h => by rw [h]; rfl
  cases s <;> simp [signedValue]
  omega

/-- What a value that is not negative has of a sign: none, but on a zero. -/
theorem sign_of_notNegative {x : Quantity} (h : NotNegative x) : x.sign = false ∨ x.isZero = true := by
  cases x with
  | nan => exact Or.inl rfl
  | inf s => exact Or.inl h
  | fin s m => exact (fin_notNegative_iff.1 h).imp id decide_eq_true
  | exact q => exact Or.inl (decide_eq_false (not_lt.2 h))

theorem round_notNegative {neg : Bool} {n d : Nat} (h : neg = true → n = 0) : NotNegative (Quantity.round neg n d) := by
  cases neg
  · obtain ⟨hm, e⟩ | ⟨-, e⟩ := round_cases false n d <;> rw [e]
    · exact fin_notNegative_iff.2 (Or.inl rfl)
    · rfl
  · rw [h rfl, Quantity.round, roundMag_zero, Quantity.ofMag_lt (by decide)]
    exact fin_notNegative_iff.2 (Or.inr rfl)

/-- A sum that is not negative stays so when rounded. -/
theorem add_notNegative_of_finite {x y : Quantity} (hx : x.finite = true) (hy : y.finite = true)
    (h : 0 ≤ x.toRat + y.toRat) : NotNegative (x.add y) := by
  cases x with
  | nan => cases hx
  | inf s => cases hx
  | exact p =>
    cases y with
    | nan => cases hy
    | inf s => cases hy
    | fin t n => exact h
    | exact q => exact h
  | fin s m =>
    cases y with
    | nan => cases hy
    | inf s => cases hy
    | exact q => exact h
    | fin t n =>
      rw [toRat_fin, toRat_fin, ← add_div, le_div_iff₀ unit_pos_rat, zero_mul, ← Int.cast_add, Int.cast_nonneg_iff] at h
      by_cases h0 : signedValue s m + signedValue t n = 0
      · rw [add_fin_of_zero_sum h0]
        exact fin_notNegative_iff.2 (Or.inr rfl)
      · rw [add_fin h0]
        exact round_notNegative fun hneg => absurd h (not_le.2 (of_decide_eq_true hneg))

theorem add_notNegative {x y : Quantity} (hx : NotNegative x) (hy : NotNegative y) : NotNegative (x.add y) := by
  by_cases hf : x.finite = true ∧ y.finite = true
  · obtain ⟨fx, fy⟩ := hf
    rw [notNegative_iff_of_finite fx] at hx
    rw [notNegative_iff_of_finite fy] at hy
    exact add_notNegative_of_finite fx fy (add_nonneg hx hy)
  · cases x with
    | nan => trivial
    | inf s =>
      obtain rfl : s = false := hx
      cases y with
      | nan => trivial
      | inf t =>
        obtain rfl : t = false := hy
        rfl
      | fin t n => rfl
      | exact q => rfl
    | fin s m =>
      cases y with
      | nan => trivial
      | inf t => exact hy
      | fin t n => exact absurd ⟨rfl, rfl⟩ hf
      | exact q => exact absurd ⟨rfl, rfl⟩ hf
    | exact p =>
      cases y with
      | nan => trivial
      | inf t => exact hy
      | fin t n => exact absurd ⟨rfl, rfl⟩ hf
      | exact q => exact absurd ⟨rfl, rfl⟩ hf

/-! ### Products -/

theorem Quantity.mul_comm (x y : Quantity) : x.mul y = y.mul x := by
  cases x <;> cases y <;>
    simp [Quantity.mul, Quantity.isZero, Quantity.sign, Bool.xor_comm, Nat.mul_comm, Rat.mul_comm]

/-- Infinity times a value, in one form. -/
theorem inf_mul (a : Bool) (y : Quantity) :
    (Quantity.inf a).mul y = if y.isNaN = true ∨ y.isZero = true then .nan else .inf (a ^^ y.sign) := by
  cases y <;> simp [Quantity.mul, Quantity.isNaN]

theorem isZero_neg (y : Quantity) : y.neg.isZero = y.isZero := by
  cases y <;> simp [Quantity.neg, Quantity.isZero]

theorem sign_neg {y : Quantity} (hn : y.isNaN = false) (hz : y.isZero = false) : y.neg.sign = !y.sign := by
  cases y with
  | nan => cases hn
  | inf s => rfl
  | fin s m => rfl
  | exact q =>
    have hq : q ≠ 0 := of_decide_eq_false hz
    obtain h | h := lt_or_gt_of_ne hq
    · simp [Quantity.neg, Quantity.sign, h, h.le]
    · simp [Quantity.neg, Quantity.sign, h, h.le]

theorem inf_mul_neg (a : Bool) (y : Quantity) : (Quantity.inf a).mul y.neg = ((Quantity.inf a).mul y).neg := by
  rw [inf_mul, inf_mul, isNaN_neg, isZero_neg]
  split
  · rfl
  · rename_i h
    rw [not_or, Bool.not_eq_true, Bool.not_eq_true] at h
    rw [sign_neg h.1 h.2, Bool.xor_not]
    rfl

theorem neg_inf_mul (a : Bool) (y : Quantity) : (Quantity.inf a).neg.mul y = ((Quantity.inf a).mul y).neg := by
  rw [Quantity.neg, inf_mul, inf_mul]
  split
  · rfl
  · rw [Bool.not_xor]
    rfl

theorem round_neg (s : Bool) (n d : Nat) : (Quantity.round s n d).neg = Quantity.round (!s) n d := by
  unfold Quantity.round Quantity.ofMag
  split <;> rfl

theorem Quantity.mul_neg (x y : Quantity) : x.mul y.neg = (x.mul y).neg := by
  cases x with
  | nan => rfl
  | inf a => exact inf_mul_neg a y
  | fin s m =>
    cases y with
    | nan => rfl
    | inf b => rw [Quantity.mul_comm, neg_inf_mul, Quantity.mul_comm]
    | fin t n => rw [mul_fin, round_neg, ← Bool.xor_not, ← mul_fin]; rfl
    | exact q => exact congrArg Quantity.exact (Rat.mul_neg _ _)
  | exact p =>
    cases y with
    | nan => rfl
    | inf b => rw [Quantity.mul_comm, neg_inf_mul, Quantity.mul_comm]
    | fin t n => exact congrArg Quantity.exact ((congrArg (p * ·) (toRat_neg (.fin t n))).trans (Rat.mul_neg _ _))
    | exact q => exact congrArg Quantity.exact (Rat.mul_neg _ _)

/-- An infinite product of values that are not negative is positive infinity. -/
theorem inf_mul_notNegative {y : Quantity} (hy : NotNegative y) : NotNegative ((Quantity.inf false).mul y) := by
  rw [inf_mul]
  split
  · trivial
  · rename_i h
    rw [not_or] at h
    rw [(sign_of_notNegative hy).resolve_right h.2]
    rfl

theorem mul_notNegative {x y : Quantity} (hx : NotNegative x) (hy : NotNegative y) : NotNegative (x.mul y) := by
  cases x with
  | nan => trivial
  | inf a =>
    obtain rfl : a = false := hx
    exact inf_mul_notNegative hy
  | fin s m =>
    cases y with
    | nan => trivial
    | inf b =>
      obtain rfl : b = false := hy
      exact Quantity.mul_comm _ _ ▸ inf_mul_notNegative hx
    | fin t n =>
      refine round_notNegative fun hs => ?_
      obtain rfl | hm := fin_notNegative_iff.1 hx
      · obtain rfl | hn := fin_notNegative_iff.1 hy
        · cases hs
        · rw [hn, magValue_zero, Nat.mul_zero]
      · rw [hm, magValue_zero, Nat.zero_mul]
    | exact q => exact mul_nonneg (α := ℚ) hx hy
  | exact p =>
    cases y with
    | nan => trivial
    | inf b =>
      obtain rfl : b = false := hy
      exact Quantity.mul_comm _ _ ▸ inf_mul_notNegative hx
    | fin t n => exact mul_nonneg (α := ℚ) hx hy
    | exact q => exact mul_nonneg (α := ℚ) hx hy

theorem Quantity.neg_mul (x y : Quantity) : x.neg.mul y = (x.mul y).neg := by
  rw [Quantity.mul_comm, Quantity.mul_neg, Quantity.mul_comm]

theorem Quantity.neg_neg (x : Quantity) : x.neg.neg = x := by
  cases x with
  | nan => rfl
  | inf s => simp [Quantity.neg]
  | fin s m => simp [Quantity.neg]
  | exact q => simp [Quantity.neg]

/-- The product of a value, a factor that is not negative, and the value again. -/
theorem weighted_square_notNegative {a : Quantity} (h : NotNegative a) (x : Quantity) : NotNegative (x.mul (a.mul x)) := by
  obtain hx | hx := notNegative_or_neg x
  · exact mul_notNegative hx (mul_notNegative h hx)
  · have e : x.neg.mul (a.mul x.neg) = x.mul (a.mul x) := by
      rw [Quantity.mul_neg, Quantity.mul_neg, Quantity.neg_mul, Quantity.neg_neg]
    exact e ▸ mul_notNegative hx (mul_notNegative h hx)

/-! ## The moving statistic -/

theorem emaAdd_first {dom : NumDomain} {m : Ema} (x : Quantity) (h : m.init = false) :
    emaAdd dom m x = { init := true, avg := x, var := dom.num 0, alpha := m.alpha } := by simp [emaAdd, h]

theorem emaAdd_later {dom : NumDomain} {m : Ema} (x : Quantity) (h : m.init = true) :
    emaAdd dom m x =
      { init := true
        avg := m.avg.add (m.alpha.mul (x.sub m.avg))
        var := ((dom.num 1).sub m.alpha).mul (m.var.add ((x.sub m.avg).mul (m.alpha.mul (x.sub m.avg))))
        alpha := m.alpha } := by simp [emaAdd, h]

/-- One less a weight in `[0, 1]` is not negative. -/
theorem one_sub_notNegative {dom : NumDomain} {a : Quantity} (h : Within (dom.num 0) a (dom.num 1)) :
    NotNegative ((dom.num 1).sub a) := by
  obtain ⟨fa, -, h1⟩ := within_unit h.1 h.2
  refine add_notNegative_of_finite (num_one dom).1 (by simpa using fa) ?_
  rw [toRat_neg, (num_one dom).2]
  linarith

/-- Settles O35: the new variance is a product of one less the weight and a sum of the old variance and a weighted
square. -/
theorem movingStatistic : Obligations.MovingStatistic := by
  refine fun dom m x => ⟨emaAdd_first x, emaAdd_later x, fun hw hv hf => ?_⟩
  refine (zero_le_iff hf).2 ((notNegative_iff_of_finite hf).1 ?_)
  cases hi : m.init with
  | false =>
    rw [emaAdd_first x hi]
    exact (notNegative_iff_of_finite (num_zero dom).1).2 (num_zero dom).2.ge
  | true =>
    rw [emaAdd_later x hi]
    exact mul_notNegative (one_sub_notNegative hw)
      (add_notNegative (notNegative_of_zero_le hv) (weighted_square_notNegative (notNegative_of_zero_le hw.1) _))

end Sys2Proof
end

section
/-! SUPPORT. Two clauses of the spec that fail when taken literally: the range of the raw average at every window
(41_control_tick.md R90), and the duty of a tick below the target where the maximum compare value binds
(42_hysteretic.md R98). -/

namespace Sys2Proof.Machine

/-! ## A window of 257 samples (R90) -/

/-- A ring whose first `n` entries all hold the greatest sample. -/
def fullRing (n : Nat) : Memory 16 := (List.range n).map fun a => (a, 65535)

theorem read_map_const {w : Nat} (v : BitVec w) (l : List Nat) {a : Nat} (h : a ∈ l) :
    Memory.read (l.map fun b => (b, v)) a = v := by
  induction l with
  | nil => cases h
  | cons b l ih =>
    rw [List.map_cons, Memory.read]
    split
    · rfl
    · exact ih ((List.mem_cons.1 h).resolve_left ‹_›)

theorem read_fullRing {n a : Nat} (h : a < n) : (fullRing n).read a = 65535 := read_map_const _ _ (List.mem_range.2 h)

/-- Reset, with a window of 257 samples in a ring of 514 entries. -/
def wideWindow (ring : Memory 16) : State :=
  { State.reset with params := { Params.default with ringCap := 514, window := 257 }, ring := ring }

theorem wideWindow_wf (ring : Memory 16) : (wideWindow ring).params.wf = true :=
  (by decide : ({ Params.default with ringCap := 514, window := 257 } : Params).wf = true)

theorem wideWindow_num (ring : Memory 16) : (wideWindow ring).params.num = .binary32 := rfl

theorem wideWindow_window (ring : Memory 16) : (wideWindow ring).params.window = 257 := rfl

theorem ringRead_wideWindow (ring : Memory 16) (a : Int) : ringRead (wideWindow ring) a = ring.read (a % 514).toNat := rfl

theorem ringRead_saturated (a : Int) : ringRead (wideWindow (fullRing 514)) a = 65535 := by
  have h0 := Int.emod_nonneg a (b := 514) (by decide)
  have h1 := Int.emod_lt_of_pos a (b := 514) (by decide)
  rw [ringRead_wideWindow, read_fullRing (by omega)]

theorem windowSum_saturated (base : Int) (c n : Nat) : windowSum (wideWindow (fullRing 514)) base c n = 65535 * n := by
  induction n with
  | zero => rfl
  | succ n ih =>
    rw [windowSum, ih, ringRead_saturated]
    rfl

theorem feedback_a0 (s : State) : (feedback s).a0 = channelAvg s 0 := rfl

/-- The sum 257 * 65535 rounds up to a multiple of 2 above 2^24, and its quotient by 257 above 65535. -/
theorem saturated_average : ((NumDomain.binary32.num (65535 * 257)).div (NumDomain.binary32.num 257)).le
    (NumDomain.binary32.num 65535) = false := by decide +kernel

/-- Refutes O24: at a window of 257 samples of 65535 the sum is rounded to a larger binary32 value before the division. -/
theorem not_averageIsASampleValueAtEveryWindow : ¬ Obligations.AverageIsASampleValueAtEveryWindow := by
  intro h
  obtain ⟨-, hle⟩ := h (wideWindow (fullRing 514)) (wideWindow_wf _)
  rw [feedback_a0, channelAvg, wideWindow_window, windowSum_saturated, wideWindow_num, saturated_average] at hle
  exact Bool.noConfusion hle

/-! ## A tracked duty above the maximum compare value (R98) -/

/-- A duty above 0.25 by less than half a count at the reload 36000, whose compare value is the maximum, 9000. -/
def trackedHyst : HystRec where
  freq := .fin false ⟨0x447A0000, by decide⟩
  target := .fin false ⟨0x44FA0000, by decide⟩
  step := .fin false ⟨0x3E000000, by decide⟩
  maxCompare := 9000
  duty := .fin false ⟨0x3E800100, by decide⟩

/-- The feedback is 1999, below the target 2000. -/
def trackedState : State :=
  { State.reset with
    blk := { State.reset.blk with reg := .hyst trackedHyst }
    hw := { State.reset.hw with pwmPsc := 1, pwmArr := 36000, pwmCcr := 9000, ctrlRun := true }
    ring := [(56, 1999), (58, 1999), (60, 1999), (62, 1999)] }

theorem trackedState_below : (feedback trackedState).vout.lt trackedHyst.target = true := by decide

/-- The stepped duty passes the maximum, and 9000 / 36000 is 0.25. -/
theorem hystNext_tracked :
    hystNext .binary32 trackedHyst 36000 (feedback trackedState).vout =
      some ({ trackedHyst with duty := .fin false ⟨0x3E800000, by decide⟩ }, 9000) := by decide

/-- Refutes O28: the rescaling to the maximum compare value lowers a duty that lies above it by less than half a count. -/
theorem not_hystereticDutyMonotoneLiterally : ¬ Obligations.HystereticDutyMonotoneLiterally := by
  intro h
  have ht := execTick_hyst (s := trackedState) (r := trackedHyst) rfl rfl
  have hn : hystNext trackedState.params.num trackedHyst trackedState.hw.pwmArr (feedback trackedState).vout = _ :=
    hystNext_tracked
  rw [hn] at ht
  have hle := h trackedState _ trackedHyst _ (by decide) ⟨by decide, by decide, by decide, fun _ => by decide⟩
    ⟨by decide, by decide⟩ rfl rfl (by decide) trackedState_below ht rfl
  exact absurd hle (by decide)

end Sys2Proof.Machine
end
